-- ==== Sys2Proof/Word.lean ====
section
/-! DEFINITION. The two word types of the core. 00_scope.md R3 and R4: a byte is 8 bits; a detector word, a
host-visible register and every datapath counter are 64 bits. All values are unsigned (R5). -/

namespace Sys2Proof

/-- A byte of IN or OUT (00_scope.md R3). -/
abbrev Byte := BitVec 8

/-- A detector word, a register or a datapath counter (00_scope.md R3, R4; 10_state.md R11, R19). -/
abbrev Word := BitVec 64

end Sys2Proof
end

