-- ==== Sys2Proof/Syntax.lean ====
section
/-! DEFINITION. The instructions: one constructor of `Instr` for each row of spec/opcode_table.json; the segments of a
compressed body (30_encoding.md R61, R74); the spaces an encoding lives in and the names of what a decoder rejects. -/

namespace Sys2Proof

/-- The 32 rows of spec/opcode_table.json. Operands are the fields the row's encoding has; what a row reads from IN or
from the datapath registers is in its meaning. -/
inductive Instr where
  -- control bytes of a compressed body (30_encoding.md R61 to R65)
  /-- ZRUN_LONG, bytes `00` then LE16(s): s zero bytes (43_decoder.md R187). -/
  | zrunLong (s : BitVec 16)
  /-- ZRUN_SHORT, one byte 0x01..0x7F: v zero bytes (43_decoder.md R188). -/
  | zrunShort (v : BitVec 7)
  /-- LIT_LONG, bytes `80` then LE16(s), then s payload bytes (43_decoder.md R185). -/
  | litLong (s : BitVec 16)
  /-- LIT_SHORT, one byte 0x81..0xFF, then n payload bytes (43_decoder.md R186). -/
  | litShort (n : BitVec 7)
  -- frame headers (30_encoding.md R60)
  /-- HDR_COMPRESSED, H[63] = 0: a compressed body follows (43_decoder.md R180, R184). -/
  | hdrCompressed (n : BitVec 63)
  /-- HDR_VERBATIM, H[63] = 1: N verbatim bytes follow (43_decoder.md R180, R183). -/
  | hdrVerbatim (n : BitVec 63)
  -- host register accesses (30_encoding.md R71; 44_commands.md)
  /-- CMD_NOP, a write of CTRL with CMD = 0x00; `ign` is CTRL[63:8], ignored (44_commands.md R211). -/
  | cmdNop (ign : BitVec 56)
  /-- CMD_COMPRESS, a write of CTRL with CMD = 0x01 (44_commands.md R212). -/
  | cmdCompress (ign : BitVec 56)
  /-- CMD_DECOMPRESS, a write of CTRL with CMD = 0x02 (44_commands.md R213). -/
  | cmdDecompress (ign : BitVec 56)
  /-- CMD_RESERVED, a write of CTRL with CMD in 0x03..0xFF (44_commands.md R214). -/
  | cmdReserved (cmd : Byte) (ign : BitVec 56)
  /-- WRITE_IN_LEN, a write of register index 1 (44_commands.md R216). -/
  | writeInLen (value : Word)
  /-- READ_REGISTER, a read of any register index (44_commands.md R217). -/
  | readRegister (index : Word)
  /-- WRITE_IGNORED, a write of STATUS, OUT_LEN or an index of 4 or above (44_commands.md R218). -/
  | writeIgnored (index : Word) (value : Word)
  -- detector, extractor, classifier (40_swar_classifier.md)
  /-- MARK_ZEROS (40_swar_classifier.md R100). -/
  | markZeros
  /-- EXTRACT_MSBS (40_swar_classifier.md R103). -/
  | extractMsbs
  /-- CLASSIFY (40_swar_classifier.md R110). -/
  | classify
  -- encoder (41_encoder.md)
  /-- ENC_START (41_encoder.md R120). -/
  | encStart
  /-- ENC_WORD (41_encoder.md R122). -/
  | encWord
  /-- ENC_CASE_A (41_encoder.md R123). -/
  | encCaseA
  /-- ENC_CASE_B (41_encoder.md R124). -/
  | encCaseB
  /-- ENC_CASE_C (41_encoder.md R125). -/
  | encCaseC
  /-- ENC_TAIL_ZERO (41_encoder.md R127). -/
  | encTailZero
  /-- ENC_TAIL_NONZERO (41_encoder.md R128). -/
  | encTailNonzero
  /-- ENC_FINAL (41_encoder.md R129). -/
  | encFinal
  /-- ENC_FALLBACK (41_encoder.md R132). -/
  | encFallback
  /-- ENC_NO_FALLBACK (41_encoder.md R133). -/
  | encNoFallback
  /-- ENC_DONE (41_encoder.md R134). -/
  | encDone
  -- emission writer (42_emission.md)
  /-- FLUSH_ZEROS (42_emission.md R161). -/
  | flushZeros
  /-- FLUSH_LITERALS (42_emission.md R163). -/
  | flushLiterals
  -- decoder (43_decoder.md)
  /-- DEC_HEADER (43_decoder.md R180). -/
  | decHeader
  /-- DEC_CHECK (43_decoder.md R189). -/
  | decCheck
  /-- DEC_DONE (43_decoder.md R191). -/
  | decDone
  deriving DecidableEq, Repr

/-- A whole segment, its payload with it, in the notation of 30_encoding.md R74. -/
inductive Segment where
  /-- `ZS v` -/
  | zs (v : Nat)
  /-- `ZL s` -/
  | zl (s : Nat)
  /-- `LS [b1 … bn]` -/
  | ls (payload : List Byte)
  /-- `LL s [b1 … bs]` -/
  | ll (payload : List Byte)
  deriving DecidableEq, Repr

/-- Where an encoding stands: the same bits mean different things in the frame body, in the frame header and on the
host's register port (30_encoding.md, first paragraph; 10_state.md R23). -/
inductive Space where
  /-- A compressed body in IN, from a control byte on (30_encoding.md R61). -/
  | body
  /-- The 8 header bytes of a frame in IN (30_encoding.md R60). -/
  | header
  /-- A host write of a register: the 64-bit index, then the 64-bit value, each little-endian (10_state.md R11). -/
  | regWrite
  /-- A host read of a register: the 64-bit index, little-endian (10_state.md R11). -/
  | regRead
  deriving DecidableEq, Repr

/-- What a decoder rejects, by name. No byte value is an illegal opcode (30_encoding.md R65): only too few bytes. -/
inductive DecodeError where
  /-- The body is exhausted: there is no control byte (43_decoder.md R184). -/
  | noControlByte
  /-- The 2-byte length of a long form is cut short (43_decoder.md R185, R187, first check). -/
  | lengthTruncated
  /-- The payload of a literal segment is cut short (43_decoder.md R185, R186). -/
  | payloadTruncated
  /-- Fewer than 8 header bytes (43_decoder.md R180, first check). -/
  | headerTruncated
  /-- Fewer bytes than a register access has. -/
  | accessTruncated
  deriving DecidableEq, Repr

end Sys2Proof
end

