-- ==== Sys2Proof/WellFormed.lean ====
section
/-! DEFINITION. Which terms are instructions and which segments can be written down: the constraints of
spec/opcode_table.json and 30_encoding.md R62, R63, R66, R74. -/

namespace Sys2Proof

/-- The constraints the opcode table puts on a row's fields. A short count is 1..127 (R62), a reserved command is
0x03..0xFF (R71), an ignored register write has an index that is neither CTRL nor IN_LEN (R218). -/
def Instr.wf : Instr → Bool
  | .zrunShort v => v != 0
  | .litShort n => n != 0
  | .cmdReserved c _ => decide (3 ≤ c.toNat)
  | .writeIgnored i _ => decide (2 ≤ i.toNat)
  | .zrunLong _ | .litLong _ | .hdrCompressed _ | .hdrVerbatim _ | .cmdNop _ | .cmdCompress _ | .cmdDecompress _
  | .writeInLen _ | .readRegister _ | .markZeros | .extractMsbs | .classify | .encStart | .encWord | .encCaseA
  | .encCaseB | .encCaseC | .encTailZero | .encTailNonzero | .encFinal | .encFallback | .encNoFallback | .encDone
  | .flushZeros | .flushLiterals | .decHeader | .decCheck | .decDone => true

/-- A segment that the notation of 30_encoding.md R74 can write: short counts 1..127 (R62), long counts 0..65535 (R63,
R68). -/
def Segment.wf : Segment → Bool
  | .zs v => decide (1 ≤ v) && decide (v ≤ 127)
  | .zl s => decide (s ≤ 65535)
  | .ls p => decide (1 ≤ p.length) && decide (p.length ≤ 127)
  | .ll p => decide (p.length ≤ 65535)

/-- The forms the encoder emits (30_encoding.md R66): short counts 1..127, long counts 255..65535. -/
def Segment.canonical : Segment → Bool
  | .zs v => decide (1 ≤ v) && decide (v ≤ 127)
  | .zl s => decide (255 ≤ s) && decide (s ≤ 65535)
  | .ls p => decide (1 ≤ p.length) && decide (p.length ≤ 127)
  | .ll p => decide (255 ≤ p.length) && decide (p.length ≤ 65535)

end Sys2Proof
end

