-- ==== Sys2Proof/Decode.lean ====
section
/-! DEFINITION. The decoders, total on any bytes and rejecting by name, and after them the encoders, both written from
30_encoding.md. Little-endian helpers first (20_memory.md R40; 00_scope.md R7). -/

namespace Sys2Proof

/-! ### Byte order -/

/-- `LE(b0, b1, …) = Σ b_i · 2^(8i)` (00_scope.md R7). -/
def leNat : List Byte → Nat
  | [] => 0
  | b :: bs => b.toNat + 256 * leNat bs

/-- `bytesLE(v, n)`: the n low bytes of v, lowest first (00_scope.md R7). -/
def bytesLE : Nat → Nat → List Byte
  | _, 0 => []
  | v, n + 1 => BitVec.ofNat 8 v :: bytesLE (v / 256) n

/-! ### Decoding -/

/-- The 2-byte length of a long form, first byte low (30_encoding.md R63). -/
def decodeLength (mk : BitVec 16 → Instr) : List Byte → Except DecodeError (Instr × List Byte)
  | b1 :: b2 :: rest => .ok (mk (BitVec.ofNat 16 (leNat [b1, b2])), rest)
  | _ => .error .lengthTruncated

/-- A control byte with its length bytes, in the order of tests of 43_decoder.md R184 (30_encoding.md R61 to R65). -/
def decodeBody : List Byte → Except DecodeError (Instr × List Byte)
  | [] => .error .noControlByte
  | c :: rest =>
    if c.toNat = 0x80 then decodeLength .litLong rest
    else if 0x81 ≤ c.toNat then .ok (.litShort (c.extractLsb' 0 7), rest)
    else if c.toNat = 0x00 then decodeLength .zrunLong rest
    else .ok (.zrunShort (c.extractLsb' 0 7), rest)

/-- A header value H: V = H[63], N = H[62:0] (30_encoding.md R60). -/
def decodeHeaderWord (h : Word) : Instr :=
  if h.getLsbD 63 then .hdrVerbatim (h.extractLsb' 0 63) else .hdrCompressed (h.extractLsb' 0 63)

/-- A value written to CTRL: CMD = v[7:0], v[63:8] ignored (30_encoding.md R71; 44_commands.md R210). -/
def decodeCommand (v : Word) : Instr :=
  let cmd : Byte := v.extractLsb' 0 8
  let ign : BitVec 56 := v.extractLsb' 8 56
  if cmd.toNat = 0x00 then .cmdNop ign
  else if cmd.toNat = 0x01 then .cmdCompress ign
  else if cmd.toNat = 0x02 then .cmdDecompress ign
  else .cmdReserved cmd ign

/-- A host write of a register, by its index (10_state.md R11; 44_commands.md R210, R216, R218; log 13). -/
def decodeRegWrite (index value : Word) : Instr :=
  if index.toNat = 0 then decodeCommand value
  else if index.toNat = 1 then .writeInLen value
  else .writeIgnored index value

/-- The decoder of every space, on any bytes: the instruction and the bytes left over. -/
def decode (sp : Space) (bs : List Byte) : Except DecodeError (Instr × List Byte) :=
  match sp with
  | .body => decodeBody bs
  | .header =>
    if bs.length < 8 then .error .headerTruncated
    else .ok (decodeHeaderWord (BitVec.ofNat 64 (leNat (bs.take 8))), bs.drop 8)
  | .regWrite =>
    if bs.length < 16 then .error .accessTruncated
    else .ok (decodeRegWrite (BitVec.ofNat 64 (leNat (bs.take 8))) (BitVec.ofNat 64 (leNat ((bs.drop 8).take 8))),
      bs.drop 16)
  | .regRead =>
    if bs.length < 8 then .error .accessTruncated
    else .ok (.readRegister (BitVec.ofNat 64 (leNat (bs.take 8))), bs.drop 8)

/-! ### Encoding -/

/-- The 64-bit value written to CTRL for a command: CMD in bits 7:0 (10_state.md R12). -/
def commandWord (cmd : Nat) (ign : BitVec 56) : Word := BitVec.ofNat 64 (cmd + 256 * ign.toNat)

/-- The bytes of a register write: index, then value. -/
def regWriteBytes (index value : Nat) : List Byte := bytesLE index 8 ++ bytesLE value 8

/-- The space and the bytes of an instruction (30_encoding.md R60 to R63, R71; 10_state.md R11); the datapath rows of the
opcode table have no bit pattern. -/
def encode : Instr → Option (Space × List Byte)
  | .zrunLong s => some (.body, 0x00 :: bytesLE s.toNat 2)
  | .zrunShort v => some (.body, [BitVec.ofNat 8 v.toNat])
  | .litLong s => some (.body, 0x80 :: bytesLE s.toNat 2)
  | .litShort n => some (.body, [BitVec.ofNat 8 (0x80 + n.toNat)])
  | .hdrCompressed n => some (.header, bytesLE n.toNat 8)
  | .hdrVerbatim n => some (.header, bytesLE (n.toNat + 2 ^ 63) 8)
  | .cmdNop ign => some (.regWrite, regWriteBytes 0 (commandWord 0x00 ign).toNat)
  | .cmdCompress ign => some (.regWrite, regWriteBytes 0 (commandWord 0x01 ign).toNat)
  | .cmdDecompress ign => some (.regWrite, regWriteBytes 0 (commandWord 0x02 ign).toNat)
  | .cmdReserved c ign => some (.regWrite, regWriteBytes 0 (commandWord c.toNat ign).toNat)
  | .writeInLen v => some (.regWrite, regWriteBytes 1 v.toNat)
  | .readRegister i => some (.regRead, bytesLE i.toNat 8)
  | .writeIgnored i v => some (.regWrite, regWriteBytes i.toNat v.toNat)
  | .markZeros | .extractMsbs | .classify | .encStart | .encWord | .encCaseA | .encCaseB | .encCaseC | .encTailZero
  | .encTailNonzero | .encFinal | .encFallback | .encNoFallback | .encDone | .flushZeros | .flushLiterals | .decHeader
  | .decCheck | .decDone => none

/-! ### Whole segments (30_encoding.md R64, R69, R74) -/

/-- The bytes of a segment (30_encoding.md R74). -/
def Segment.encode : Segment → List Byte
  | .zs v => [BitVec.ofNat 8 v]
  | .zl s => 0x00 :: bytesLE s 2
  | .ls p => BitVec.ofNat 8 (0x80 + p.length) :: p
  | .ll p => 0x80 :: (bytesLE p.length 2 ++ p)

/-- The bytes a segment stands for: its items (30_encoding.md R61, R64). -/
def Segment.expand : Segment → List Byte
  | .zs v => List.replicate v 0
  | .zl s => List.replicate s 0
  | .ls p => p
  | .ll p => p

/-- The bytes of a compressed body: its segments with nothing between them (30_encoding.md R69). -/
def encodeBody (segs : List Segment) : List Byte := segs.flatMap Segment.encode

/-- The bytes a compressed body stands for. -/
def expandBody (segs : List Segment) : List Byte := segs.flatMap Segment.expand

/-- The payload of a literal segment: its first s bytes, rejected when there are fewer (43_decoder.md R185, R186). -/
def takePayload (mk : List Byte → Segment) (s : Nat) (bs : List Byte) : Except DecodeError (Segment × List Byte) :=
  if bs.length < s then .error .payloadTruncated else .ok (mk (bs.take s), bs.drop s)

/-- One whole segment at the head of a body, from the decoded control byte (30_encoding.md R64). -/
def parseSegment (bs : List Byte) : Except DecodeError (Segment × List Byte) :=
  match decodeBody bs with
  | .error e => .error e
  | .ok (.zrunLong s, rest) => .ok (.zl s.toNat, rest)
  | .ok (.zrunShort v, rest) => .ok (.zs v.toNat, rest)
  | .ok (.litLong s, rest) => takePayload .ll s.toNat rest
  | .ok (.litShort n, rest) => takePayload .ls n.toNat rest
  | .ok (_, _) => .error .noControlByte

/-- A body split completely into segments (43_decoder.md R190), with fuel for at most that many. Each segment has at
least one byte (R196), so the length of the body is fuel enough. -/
def parseSegments : Nat → List Byte → Except DecodeError (List Segment)
  | _, [] => .ok []
  | 0, _ :: _ => .error .noControlByte
  | f + 1, b :: bs =>
    match parseSegment (b :: bs) with
    | .error e => .error e
    | .ok (g, rest) =>
      match parseSegments f rest with
      | .error e => .error e
      | .ok gs => .ok (g :: gs)

/-- The segments of a body (30_encoding.md R69). -/
def parseBody (bs : List Byte) : Except DecodeError (List Segment) := parseSegments bs.length bs

/-! ### The host's numbering of a table row -/

/-- The space a table word of `nbits` bits lies in and the bytes it stands for, lowest first; every bit above `nbits` is
0. The table numbers three spaces from bit 0 on and does not mark which (log 12), so the width of a row's mask tells: up
to 56 bits is a control byte with its length bytes, 64 bits is a frame header. The register accesses, which would need the
same widths, are told apart by more bits: 72 with bits 71:64 = 0 is a value written to CTRL, 72 with other bits there a
register read by index, and a wider word a register write, bits 63:0 its index and bits 127:64 its value. -/
def tableWord (nbits w : Nat) : Space × List Byte :=
  if nbits ≤ 56 then (.body, bytesLE w 3)
  else if nbits ≤ 64 then (.header, bytesLE w 8)
  else if nbits ≤ 72 then
    if w / 2 ^ 64 = 0 then (.regWrite, regWriteBytes 0 w) else (.regRead, bytesLE w 8)
  else (.regWrite, regWriteBytes w (w / 2 ^ 64))

/-- The instruction the decoder reads from a table word. -/
def decodeTableWord (nbits w : Nat) : Option Instr :=
  match decode (tableWord nbits w).1 (tableWord nbits w).2 with
  | .ok (i, _) => some i
  | .error _ => none

end Sys2Proof
end

