-- ==== Sys2Proof/Config.lean ====
section
/-! DEFINITION. What the spec leaves to the implementation or leaves unspecified. The opaque constants have no body:
nothing in Lean evaluates one, so a claim that holds in the model holds whatever their values are. -/

namespace Sys2Proof.Config

/-- IN_SIZE of the machine that `State.reset` describes (00_scope.md R4, D2: an OPEN parameter). DESIGN CHOICE, log 1:
every state carries its own size, so that claims are about every size; only `State.reset` uses this one. -/
def inSize : Word := 0x20000

/-- OUT_SIZE of the machine that `State.reset` describes (00_scope.md R4, D2: an OPEN parameter). DESIGN CHOICE, log 1. -/
def outSize : Word := 0x20000

/-- The byte of IN at an offset that nothing has written since power-on: any value (10_state.md R24, 70_reset_and_hazards.md
R270, U17). A free value, log 7. -/
opaque freeIn : Nat → Byte

/-- `freeOut g a`: the byte of OUT at offset `a` after it has become unspecified `g` times since power-on and nothing
has written it since (20_memory.md R58, R59; 70_reset_and_hazards.md R270, R271; U5, U6, U16, U17). A free value, logs 7
and 8. -/
opaque freeOut : Nat → Nat → Byte

end Sys2Proof.Config
end

