-- ==== Sys2Proof/Machine/State.lean ====
section
/-! DEFINITION. Everything the spec gives the machine (10_state.md), the host's pending moves, and the state after reset. -/

namespace Sys2Proof.Machine

/-- The phase register (10_state.md R17). -/
inductive Phase where
  | idle | encMain | encTail | encFinal | encFallback | decHeader | decVerbatim | decBody | decCheck | done
  deriving DecidableEq, Repr

/-- The error codes of STATUS.ERR (60_exceptions.md R240); the numbers are in `ErrCode.code`. -/
inductive ErrCode where
  | none | invalidFrame | capacity | length | badCommand
  deriving DecidableEq, Repr

/-- The fields of STATUS (10_state.md R14); bits 63:6 read 0 and hold nothing. -/
structure Status where
  busy : Bool
  done : Bool
  err  : ErrCode
  verb : Bool
  deriving DecidableEq, Repr

/-- A byte memory in ONE canonical form: (offset, byte) pairs with strictly rising offsets. An unlisted offset has no
known value (`none`, see `Memory.read`), so no entry can equal what an unlisted offset reads as, and a written byte is
always listed. -/
abbrev Memory := List Host.Cell

/-- Strictly rising offsets. -/
def Memory.wf : Memory → Bool
  | [] => true
  | [_] => true
  | c :: d :: rest => decide (c.1 < d.1) && Memory.wf (d :: rest)

/-- One move of the host agent (10_state.md R10, R23; 44_commands.md; 70_reset_and_hazards.md R270, R272), or of the
schedule between the two agents: `pass` and `wait`. Log 4. -/
inductive HostMove where
  /-- A write of a register (44_commands.md R210, R216, R218), at any time. -/
  | writeReg (index value : Word)
  /-- A read of a register (44_commands.md R217), at any time. -/
  | readReg (index : Word)
  /-- Writes bytes to IN from an offset on (10_state.md R23), only while not BUSY. -/
  | writeIn (addr : Word) (bytes : List Byte)
  /-- Reads a byte of IN, only while not BUSY. -/
  | readIn (addr : Word)
  /-- Writes bytes to OUT from an offset on (10_state.md R23), only while not BUSY. -/
  | writeOut (addr : Word) (bytes : List Byte)
  /-- Reads a byte of OUT, only while not BUSY. -/
  | readOut (addr : Word)
  /-- Resets the core (70_reset_and_hazards.md R270, R271), at any time. -/
  | reset
  /-- The host makes no move: the core takes one step. -/
  | pass
  /-- The host polls STATUS until BUSY = 0 (70_reset_and_hazards.md R272 item 4); until then the core steps. -/
  | wait
  deriving DecidableEq, Repr

/-- The values of the four registers that a decode writes before it may raise an error (43_decoder.md R180, R184 to R188). -/
structure DecodeRegs where
  ip    : Word
  hN    : Word
  hflag : Bool
  op    : Word
  deriving DecidableEq, Repr

/-- The state of one instance of the core (10_state.md), of its two memories and of its host. -/
structure State where
  -- parameters (00_scope.md R4); no step writes them
  inSize  : Word
  outSize : Word
  -- host-visible registers (10_state.md R11 to R15); CTRL holds no state (R12)
  inLen   : Word
  status  : Status
  outLen  : Word
  -- core-internal registers (10_state.md R17, R18, R19)
  phase   : Phase
  it      : Word
  ip      : Word
  n       : Word
  dst     : Word
  zc      : Word
  uc      : Word
  uPtr    : Word
  hN      : Word
  hflag   : Bool
  op      : Word
  -- the formats of the datapath, as the values they last carried (30_encoding.md R73; log 6)
  w       : Word
  m       : Word
  l       : Byte
  k       : Byte
  r       : Byte
  -- memories (10_state.md R23)
  inMem   : Memory
  outMem  : Memory
  -- the model's own: ranges of OUT that became 'any value', newest first (log 8)
  outLost : List (Nat × Nat)
  -- the model's own: ip, hN, hflag and op as they were before the running command (log 20)
  before : DecodeRegs
  -- the model's own: what the last host read returned (log 5)
  readData : Word
  -- the model's own: the host's moves not yet made (log 4)
  host    : List HostMove
  deriving DecidableEq, Repr

/-- Why the machine stops. The spec's own errors are not stops: they end an operation (60_exceptions.md R245). -/
inductive Fault where
  /-- Raised by any read of IN at an offset IN does not have (20_memory.md R51: offsets 0..IN_SIZE−1). Safe; the core never
  reaches it from a state that meets the invariant of Safety.lean. Log 11. -/
  | inAccess
  /-- Raised by any access of OUT at an offset OUT does not have (20_memory.md R51: offsets 0..OUT_SIZE−1). Safe, as
  `inAccess`. Log 11. -/
  | outAccess
  deriving DecidableEq, Repr

/-- What the model has no transition for. -/
inductive Refusal where
  /-- Raised by the arm of an instruction that has no meaning yet; none is left. Safe. -/
  | notModelled (mnemonic : String)
  /-- Raised by a host read or write of IN or OUT while STATUS.BUSY = 1: "The model gives the host no such move"
  (20_memory.md R52; U8: refuse). Safe. Log 10. -/
  | hostMemoryWhileBusy
  deriving DecidableEq, Repr

/-- What a step or a meaning answers. -/
abbrev Result := Host.Outcome State Fault Refusal

/-- Power-on of a machine with memories of these sizes: every register 0, phase IDLE, nothing known of IN and OUT
(10_state.md R24; 70_reset_and_hazards.md R270). -/
def State.powerOn (inSize outSize : Word) : State where
  inSize := inSize
  outSize := outSize
  inLen := 0
  status := { busy := false, done := false, err := .none, verb := false }
  outLen := 0
  phase := .idle
  it := 0
  ip := 0
  n := 0
  dst := 0
  zc := 0
  uc := 0
  uPtr := 0
  hN := 0
  hflag := false
  op := 0
  w := 0
  m := 0
  l := 0
  k := 0
  r := 0
  inMem := []
  outMem := []
  outLost := []
  before := { ip := 0, hN := 0, hflag := false, op := 0 }
  readData := 0
  host := []

/-- The machine right after reset at power-on. The two sizes are OPEN parameters (D2): log 1. -/
def State.reset : State := State.powerOn Config.inSize Config.outSize

end Sys2Proof.Machine
end

