-- ==== Sys2Proof/Machine/Flags.lean ====
section
/-! DEFINITION. The status register as a word and the verbatim flag of a header (10_state.md R14, R22; 30_encoding.md
R60). The core has no condition code, carry or overflow flag (R22). -/

namespace Sys2Proof.Machine

/-- The numeric values of STATUS.ERR (60_exceptions.md R240). -/
def ErrCode.code : ErrCode → Nat
  | .none => 0
  | .invalidFrame => 1
  | .capacity => 2
  | .length => 3
  | .badCommand => 4

/-- STATUS as the host reads it: BUSY bit 0, DONE bit 1, ERR bits 4:2, VERB bit 5, bits 63:6 zero (10_state.md R14). -/
def Status.toWord (st : Status) : Word :=
  BitVec.ofNat 64 (st.busy.toNat + 2 * st.done.toNat + 4 * st.err.code + 32 * st.verb.toNat)

/-- The phases in which an operation runs: BUSY = 1 exactly in them (10_state.md R17). -/
def Phase.running : Phase → Bool
  | .idle | .done => false
  | .encMain | .encTail | .encFinal | .encFallback | .decHeader | .decVerbatim | .decBody | .decCheck => true

/-- The verbatim flag in a header value: bit 63 (30_encoding.md R60). -/
def verbatimBit : Word := 0x8000000000000000

/-- The header value for a length and a flag: `n` or `n | 2^63` (41_encoder.md R120, R132). -/
def headerWord (verbatim : Bool) (n : Word) : Word := if verbatim then n ||| verbatimBit else n

/-- V = H[63] (30_encoding.md R60). -/
def headerFlag (h : Word) : Bool := h.getLsbD 63

/-- N = H[62:0] (30_encoding.md R60). -/
def headerLength (h : Word) : BitVec 63 := h.extractLsb' 0 63

end Sys2Proof.Machine
end

