-- ==== Sys2Proof/Machine/Operands.lean ====
section
/-! DEFINITION. The operands of the operations: bytes and words of IN (20_memory.md R41, R44), bytes of OUT as the host
reads them, registers as the host reads them (44_commands.md R217). -/

namespace Sys2Proof.Machine

/-- The known byte at an offset, if there is one. -/
def Memory.read : Memory → Nat → Option Byte
  | [], _ => none
  | c :: rest, a => if c.1 = a then some c.2 else Memory.read rest a

/-! ### IN -/

/-- `IN[a]` (00_scope.md R7). A byte nothing has written since power-on is any value (10_state.md R24, U17). -/
def State.inByte (s : State) (a : Nat) : Byte := (s.inMem.read a).getD (Config.freeIn a)

/-- `IN[a], …, IN[a+len-1]` (00_scope.md R7). -/
def State.inBytes (s : State) (a : Nat) : Nat → List Byte
  | 0 => []
  | len + 1 => s.inByte a :: s.inBytes (a + 1) len

/-- Whether `len` bytes from offset `a` on all lie in a memory of that size (20_memory.md R51); no bytes lie anywhere. -/
def fits (size a len : Nat) : Bool := decide (len = 0) || decide (a + len ≤ size)

/-- `IN[a..a+len)` where IN has all those offsets, no alignment asked (20_memory.md R43, R51); else nothing, log 11. -/
def State.readIn (s : State) (a len : Nat) : Option (List Byte) :=
  if fits s.inSize.toNat a len then some (s.inBytes a len) else none

/-- `MemRead(IN, a, 8)` as a 64-bit value (20_memory.md R41). -/
def State.loadWord (s : State) (a : Nat) : Option Word :=
  (s.readIn a 8).map fun bs => BitVec.ofNat 64 (leNat bs)

/-! ### OUT -/

/-- How many times OUT[a] has become unspecified since power-on (log 8). -/
def State.outGeneration (s : State) (a : Nat) : Nat :=
  (s.outLost.filter fun lost => decide (lost.1 ≤ a) && decide (a < lost.2)).length

/-- `OUT[a]` as the host reads it: the known byte, or any value where the byte is unspecified (20_memory.md R58, R59; U5, U6,
U16, U17). -/
def State.outByte (s : State) (a : Nat) : Byte :=
  (s.outMem.read a).getD (Config.freeOut (s.outGeneration a) a)

/-- `OUT[a..a+len)` as the host reads it. -/
def State.outBytes (s : State) (a : Nat) : Nat → List Byte
  | 0 => []
  | len + 1 => s.outByte a :: s.outBytes (a + 1) len

/-! ### Registers -/

/-- What a host read of a register returns (44_commands.md R217; 10_state.md R12, R13, R14, R15, R16). -/
def State.readReg (s : State) (index : Word) : Word :=
  if index.toNat = 1 then s.inLen
  else if index.toNat = 2 then s.status.toWord
  else if index.toNat = 3 then s.outLen
  else 0

end Sys2Proof.Machine
end

