-- ==== Sys2Proof/Machine/Ops.lean ====
section
/-! DEFINITION. The shared operations: sequencing, writing memory, starting and ending an operation. `raise` is the one way an error
ends an operation (60_exceptions.md R245); the way back is `accept`, the next command (R248), or a reset. -/

namespace Sys2Proof.Machine

/-- Goes on from a next state, and stops where the first part stops. -/
def andThen (o : Result) (f : State → Result) : Result :=
  match o with
  | .next s => f s
  | .fault r => .fault r
  | .refused r => .refused r

/-! ### Memory -/

/-- Writes one byte, keeping the offsets strictly rising. -/
def Memory.write : Memory → Nat → Byte → Memory
  | [], a, b => [(a, b)]
  | c :: rest, a, b =>
    if a < c.1 then (a, b) :: c :: rest
    else if c.1 = a then (a, b) :: rest
    else c :: Memory.write rest a b

/-- Writes a byte string from an offset on, lowest offset first (00_scope.md R7). -/
def Memory.writeBytes : Memory → Nat → List Byte → Memory
  | mem, _, [] => mem
  | mem, a, b :: bs => Memory.writeBytes (mem.write a b) (a + 1) bs

/-- Forgets the bytes at the offsets lo ≤ a < hi. -/
def Memory.forget (mem : Memory) (lo hi : Nat) : Memory :=
  mem.filter fun c => !(decide (lo ≤ c.1) && decide (c.1 < hi))

/-- `OUT[a..a+|bs|) <- bs`, unchecked. -/
def State.storeOut (s : State) (a : Nat) (bs : List Byte) : State :=
  { s with outMem := s.outMem.writeBytes a bs }

/-- `IN[a..a+|bs|) <- bs`, unchecked; only the host writes IN (20_memory.md R49). -/
def State.storeIn (s : State) (a : Nat) (bs : List Byte) : State :=
  { s with inMem := s.inMem.writeBytes a bs }

/-- `MemWrite` and `<-` on OUT (00_scope.md R7), where OUT has all those offsets (20_memory.md R46, R51; log 11). -/
def putOut (a : Nat) (bs : List Byte) (s : State) : Result :=
  if fits s.outSize.toNat a bs.length then .next (s.storeOut a bs) else .fault .outAccess

/-- OUT[lo..hi) becomes any value (20_memory.md R58, R59; 70_reset_and_hazards.md R271; log 8). -/
def State.loseOut (s : State) (lo hi : Nat) : State :=
  { s with outMem := s.outMem.forget lo hi, outLost := (lo, hi) :: s.outLost }

/-- Reads `IN[a..a+len)` and goes on with the bytes. -/
def withIn (a len : Nat) (s : State) (f : List Byte → Result) : Result :=
  match s.readIn a len with
  | some bs => f bs
  | none => .fault .inAccess

/-- `emit(s)` (42_emission.md R160): appends at `dst` and advances it. -/
def emit (bs : List Byte) (s : State) : Result :=
  andThen (putOut s.dst.toNat bs s) fun t => .next { t with dst := t.dst + BitVec.ofNat 64 bs.length }

/-! ### Starting and ending an operation -/

/-- `phase <- p`. -/
def State.enter (s : State) (p : Phase) : State := { s with phase := p }

/-- The four registers a decode writes, as they stand. -/
def State.decodeRegs (s : State) : DecodeRegs := { ip := s.ip, hN := s.hN, hflag := s.hflag, op := s.op }

/-- STATUS and OUT_LEN when a COMPRESS or DECOMPRESS is accepted (44_commands.md R212, R213): BUSY set, DONE, ERR and VERB
cleared, OUT_LEN 0. What an error puts back is kept (60_exceptions.md R245; log 20). -/
def State.accept (s : State) : State :=
  { s with
    status := { busy := true, done := false, err := .none, verb := false }
    outLen := 0
    before := s.decodeRegs }

/-- The registers a decode writes, put back as they were before the command (60_exceptions.md R245: "no state other than the
listed registers and those OUT bytes differs from the state before the command"; log 20). -/
def State.restore (s : State) : State :=
  { s with ip := s.before.ip, hN := s.before.hN, hflag := s.before.hflag, op := s.before.op }

/-- The registers when an operation ends or a command is rejected: phase DONE, BUSY 0, DONE 1 (10_state.md R14, R17). -/
def State.close (s : State) (err : ErrCode) (verb : Bool) (outLen : Word) : State :=
  { s with phase := .done, status := { busy := false, done := true, err := err, verb := verb }, outLen := outLen }

/-- `raise ERR_x` before the operation's first write of OUT (60_exceptions.md R245; log 20): OUT is unchanged (20_memory.md
R59), and so is everything but phase, STATUS and OUT_LEN, seen from before the command. -/
def raise (e : ErrCode) (s : State) : Result := .next (s.restore.close e false 0)

/-- `raise ERR_x` in a decode whose header is read (60_exceptions.md R245): OUT is unchanged if nothing was written, which is
when `op` is still 0, and otherwise OUT[0..N) is any value (20_memory.md R59). -/
def raiseInBody (e : ErrCode) (s : State) : Result :=
  if s.op.toNat = 0 then raise e s else raise e (s.loseOut 0 s.hN.toNat)

/-- Reset (70_reset_and_hazards.md R270, R271; 10_state.md R24): every register at its reset value; IN unchanged; OUT unchanged,
but any value in OUT[0..max(8 + 2·n, hN)) when an operation was running (log 9). The sizes, what the host has read and the host's
own moves are not the core's and stay. -/
def State.resetCore (s : State) : State :=
  let kept := if s.status.busy then s.loseOut 0 (max (8 + 2 * s.n.toNat) s.hN.toNat) else s
  { State.powerOn s.inSize s.outSize with
    inMem := kept.inMem, outMem := kept.outMem, outLost := kept.outLost, readData := s.readData, host := s.host }

end Sys2Proof.Machine
end

