-- ==== Sys2Proof/Machine/Decoder.lean ====
section
/-! DEFINITION. The decoder's steps (43_decoder.md). Sums in conditions are of natural numbers (00_scope.md R6). -/

namespace Sys2Proof.Machine

/-- DEC_DONE (43_decoder.md R191). -/
def execDecDone (s : State) : Result := .next (s.close .none s.hflag s.hN)

/-- What DEC_HEADER does once H is read (43_decoder.md R180, from "hflag <- H[63]" on; the capacity check is R182). -/
def takeHeader (flag : Bool) (len : BitVec 63) (s : State) : Result :=
  let t := { s with hflag := flag, hN := len.setWidth 64 }
  if t.hN.toNat > t.outSize.toNat then raise .capacity t
  else .next { t with ip := 8, op := 0, phase := if flag then .decVerbatim else .decBody }

/-- DEC_HEADER (43_decoder.md R180). -/
def execDecHeader (s : State) : Result :=
  if s.inLen.toNat < 8 then raise .invalidFrame s
  else match s.loadWord 0 with
    | none => .fault .inAccess
    | some h => takeHeader (headerFlag h) (headerLength h) s

/-- DEC_VERBATIM: copies the verbatim body (43_decoder.md R183). -/
def copyVerbatim (s : State) : Result :=
  if s.inLen.toNat < 8 + s.hN.toNat then raise .invalidFrame s
  else withIn 8 s.hN.toNat s fun bs =>
    andThen (putOut 0 bs s) fun t => execDecDone { t with ip := 8 + t.hN, op := t.hN }

/-- HDR_COMPRESSED, a header with V = 0: N is taken and the control-byte loop is entered (30_encoding.md R60; 43_decoder.md R180,
R184; log 14). -/
def execHdrCompressed (len : BitVec 63) (s : State) : Result := takeHeader false len s

/-- HDR_VERBATIM, a header with V = 1: N is taken and the N bytes that follow are copied (30_encoding.md R60, R70; 43_decoder.md
R180, R183; log 14). -/
def execHdrVerbatim (len : BitVec 63) (s : State) : Result :=
  andThen (takeHeader true len s) fun t => if t.phase = .decVerbatim then copyVerbatim t else .next t

/-- A literal segment of c payload bytes at `ip`: truncation is checked before overflow (43_decoder.md R185, R186). -/
def copyLiterals (c : Nat) (s : State) : Result :=
  if s.ip.toNat + c > s.inLen.toNat then raiseInBody .invalidFrame s
  else if s.op.toNat + c > s.hN.toNat then raiseInBody .invalidFrame s
  else withIn s.ip.toNat c s fun bs =>
    andThen (putOut s.op.toNat bs s) fun t =>
    .next { t with ip := t.ip + BitVec.ofNat 64 c, op := t.op + BitVec.ofNat 64 c }

/-- A zero segment of c items: its zero bytes are written (43_decoder.md R187, R188, R192). -/
def fillZeros (c : Nat) (s : State) : Result :=
  if s.op.toNat + c > s.hN.toNat then raiseInBody .invalidFrame s
  else andThen (putOut s.op.toNat (List.replicate c 0) s) fun t => .next { t with op := t.op + BitVec.ofNat 64 c }

/-- LIT_LONG, its control byte and length already read (43_decoder.md R185). -/
def execLitLong (len : BitVec 16) (s : State) : Result := copyLiterals len.toNat s

/-- LIT_SHORT, its control byte already read (43_decoder.md R186). -/
def execLitShort (len : BitVec 7) (s : State) : Result := copyLiterals len.toNat s

/-- ZRUN_LONG, its control byte and length already read (43_decoder.md R187). -/
def execZrunLong (len : BitVec 16) (s : State) : Result := fillZeros len.toNat s

/-- ZRUN_SHORT, its control byte already read (43_decoder.md R188). -/
def execZrunShort (len : BitVec 7) (s : State) : Result := fillZeros len.toNat s

/-- DEC_CHECK (43_decoder.md R189). -/
def execDecCheck (s : State) : Result :=
  if s.op ≠ s.hN then raiseInBody .invalidFrame s else execDecDone s

end Sys2Proof.Machine
end

