-- ==== Sys2Proof/Machine/Emission.lean ====
section
/-! DEFINITION. The emission writer (42_emission.md): which segments a count is cut into, and the two flushes. -/

namespace Sys2Proof.Machine

/-- One turn of the writer's loops and branches, the same thresholds in 42_emission.md R161 and R163. -/
inductive Piece where
  /-- A long form of s items: the loop `while c > 65535` or the branch `if c > 254`. -/
  | long (s : Nat)
  /-- A short form of v items: the loop `while c > 127` or the branch `if c > 0`. -/
  | short (v : Nat)
  deriving DecidableEq, Repr

/-- How many items a piece takes. -/
def Piece.items : Piece → Nat
  | .long s => s
  | .short v => v

/-- The pieces of a count, in order, with fuel for at most that many: the two loops and the two branches of
42_emission.md R161 and R163. After the first loop the count is at most 65535, after the first branch it is 0 or at most
254, so asking the four questions anew at every turn takes the same turns. -/
def piecesFrom : Nat → Nat → List Piece
  | 0, _ => []
  | fuel + 1, c =>
    if c > 65535 then .long 65535 :: piecesFrom fuel (c - 65535)
    else if c > 254 then [.long c]
    else if c > 127 then .short 127 :: piecesFrom fuel (c - 127)
    else if c > 0 then [.short c]
    else []

/-- The pieces of a count. Each turn takes at least one item, so the count is fuel enough. -/
def pieces (c : Nat) : List Piece := piecesFrom c c

/-- A piece of a zero run (42_emission.md R161). -/
def Piece.zeroSegment : Piece → Segment
  | .long s => .zl s
  | .short v => .zs v

/-- A piece of a literal run, with its payload (42_emission.md R163). -/
def Piece.literalSegment : Piece → List Byte → Segment
  | .long _, payload => .ll payload
  | .short _, payload => .ls payload

/-- `write_zeros(z)` (42_emission.md R161; the pseudo-instruction ZEROS z of 30_encoding.md R75). -/
def writeZeros (z : Nat) : List Segment := (pieces z).map Piece.zeroSegment

/-- The payload cut into its pieces, in order. -/
def cutLiterals : List Piece → List Byte → List Segment
  | [], _ => []
  | p :: ps, bs => p.literalSegment (bs.take p.items) :: cutLiterals ps (bs.drop p.items)

/-- `write_uncompressed` of a run of bytes (42_emission.md R163; the pseudo-instruction LITS of 30_encoding.md R75). -/
def writeLiterals (bs : List Byte) : List Segment := cutLiterals (pieces bs.length) bs

/-- How far a literal flush advances u_ptr: over every piece of the two loops, not over the branch that ends the flush,
which is always its last piece (42_emission.md R164; log 16). -/
def literalAdvance (c : Nat) : Nat := ((pieces c).dropLast.map Piece.items).sum

/-- FLUSH_ZEROS (42_emission.md R161). -/
def flushZeros (s : State) : Result :=
  andThen (emit (encodeBody (writeZeros s.zc.toNat)) s) fun t => .next { t with zc := 0 }

/-- FLUSH_LITERALS (42_emission.md R163). -/
def flushLiterals (s : State) : Result :=
  withIn s.uPtr.toNat s.uc.toNat s fun bs =>
  andThen (emit (encodeBody (writeLiterals bs)) s) fun t =>
  .next { t with uPtr := t.uPtr + BitVec.ofNat 64 (literalAdvance t.uc.toNat), uc := 0 }

/-- "if zc > 0 : FLUSH_ZEROS" (41_encoder.md R124, R125, R128, R129). -/
def flushPendingZeros (s : State) : Result := if s.zc.toNat > 0 then flushZeros s else .next s

/-- "if uc > 0 : FLUSH_LITERALS" (41_encoder.md R123, R127, R129). -/
def flushPendingLiterals (s : State) : Result := if s.uc.toNat > 0 then flushLiterals s else .next s

/-- The row FLUSH_ZEROS (42_emission.md R161). -/
def execFlushZeros (s : State) : Result := flushZeros s

/-- The row FLUSH_LITERALS (42_emission.md R163). -/
def execFlushLiterals (s : State) : Result := flushLiterals s

end Sys2Proof.Machine
end

