-- ==== Sys2Proof/Machine/Classifier.lean ====
section
/-! DEFINITION. CLASS, the run classifier's ROM (10_state.md R20): the 256 entries of 40_swar_classifier.md R109, written
as that table is, `(n_zeros, run_length)` with L[7:4] the row and L[3:0] the column. It is a constant: no operation writes
it, so it is no field of State. -/

namespace Sys2Proof.Machine

/-- Row 0_ of the table. -/
def classRow0 : List (Nat × Nat) :=
  [(0, 8), (1, 7), (0, 1), (2, 6), (0, 2), (1, 1), (0, 1), (3, 5), (0, 3), (1, 2), (0, 1), (2, 1), (0, 2), (1, 1), (0, 1), (4, 4)]

/-- Row 1_ of the table. -/
def classRow1 : List (Nat × Nat) :=
  [(0, 4), (1, 3), (0, 1), (2, 2), (0, 2), (1, 1), (0, 1), (3, 1), (0, 3), (1, 2), (0, 1), (2, 1), (0, 2), (1, 1), (0, 1), (5, 3)]

/-- Row 2_ of the table. -/
def classRow2 : List (Nat × Nat) :=
  [(0, 5), (1, 4), (0, 1), (2, 3), (0, 2), (1, 1), (0, 1), (3, 2), (0, 3), (1, 2), (0, 1), (2, 1), (0, 2), (1, 1), (0, 1), (4, 1)]

/-- Row 3_ of the table. -/
def classRow3 : List (Nat × Nat) :=
  [(0, 4), (1, 3), (0, 1), (2, 2), (0, 2), (1, 1), (0, 1), (3, 1), (0, 3), (1, 2), (0, 1), (2, 1), (0, 2), (1, 1), (0, 1), (6, 2)]

/-- Row 4_ of the table. -/
def classRow4 : List (Nat × Nat) :=
  [(0, 6), (1, 5), (0, 1), (2, 4), (0, 2), (1, 1), (0, 1), (3, 3), (0, 3), (1, 2), (0, 1), (2, 1), (0, 2), (1, 1), (0, 1), (4, 2)]

/-- Row 5_ of the table. -/
def classRow5 : List (Nat × Nat) :=
  [(0, 4), (1, 3), (0, 1), (2, 2), (0, 2), (1, 1), (0, 1), (3, 1), (0, 3), (1, 2), (0, 1), (2, 1), (0, 2), (1, 1), (0, 1), (5, 1)]

/-- Row 6_ of the table. -/
def classRow6 : List (Nat × Nat) :=
  [(0, 5), (1, 4), (0, 1), (2, 3), (0, 2), (1, 1), (0, 1), (3, 2), (0, 3), (1, 2), (0, 1), (2, 1), (0, 2), (1, 1), (0, 1), (4, 1)]

/-- Row 7_ of the table. -/
def classRow7 : List (Nat × Nat) :=
  [(0, 4), (1, 3), (0, 1), (2, 2), (0, 2), (1, 1), (0, 1), (3, 1), (0, 3), (1, 2), (0, 1), (2, 1), (0, 2), (1, 1), (0, 1), (7, 1)]

/-- Row 8_ of the table. -/
def classRow8 : List (Nat × Nat) :=
  [(0, 7), (1, 6), (0, 1), (2, 5), (0, 2), (1, 1), (0, 1), (3, 4), (0, 3), (1, 2), (0, 1), (2, 1), (0, 2), (1, 1), (0, 1), (4, 3)]

/-- Row 9_ of the table. -/
def classRow9 : List (Nat × Nat) :=
  [(0, 4), (1, 3), (0, 1), (2, 2), (0, 2), (1, 1), (0, 1), (3, 1), (0, 3), (1, 2), (0, 1), (2, 1), (0, 2), (1, 1), (0, 1), (5, 2)]

/-- Row A_ of the table. -/
def classRowA : List (Nat × Nat) :=
  [(0, 5), (1, 4), (0, 1), (2, 3), (0, 2), (1, 1), (0, 1), (3, 2), (0, 3), (1, 2), (0, 1), (2, 1), (0, 2), (1, 1), (0, 1), (4, 1)]

/-- Row B_ of the table. -/
def classRowB : List (Nat × Nat) :=
  [(0, 4), (1, 3), (0, 1), (2, 2), (0, 2), (1, 1), (0, 1), (3, 1), (0, 3), (1, 2), (0, 1), (2, 1), (0, 2), (1, 1), (0, 1), (6, 1)]

/-- Row C_ of the table. -/
def classRowC : List (Nat × Nat) :=
  [(0, 6), (1, 5), (0, 1), (2, 4), (0, 2), (1, 1), (0, 1), (3, 3), (0, 3), (1, 2), (0, 1), (2, 1), (0, 2), (1, 1), (0, 1), (4, 2)]

/-- Row D_ of the table. -/
def classRowD : List (Nat × Nat) :=
  [(0, 4), (1, 3), (0, 1), (2, 2), (0, 2), (1, 1), (0, 1), (3, 1), (0, 3), (1, 2), (0, 1), (2, 1), (0, 2), (1, 1), (0, 1), (5, 1)]

/-- Row E_ of the table. -/
def classRowE : List (Nat × Nat) :=
  [(0, 5), (1, 4), (0, 1), (2, 3), (0, 2), (1, 1), (0, 1), (3, 2), (0, 3), (1, 2), (0, 1), (2, 1), (0, 2), (1, 1), (0, 1), (4, 1)]

/-- Row F_ of the table. -/
def classRowF : List (Nat × Nat) :=
  [(0, 4), (1, 3), (0, 1), (2, 2), (0, 2), (1, 1), (0, 1), (3, 1), (0, 3), (1, 2), (0, 1), (2, 1), (0, 2), (1, 1), (0, 1), (8, 0)]

/-- CLASS[0..255] (40_swar_classifier.md R109). -/
def classRom : List (Nat × Nat) :=
  classRow0 ++ classRow1 ++ classRow2 ++ classRow3 ++ classRow4 ++ classRow5 ++ classRow6 ++ classRow7 ++
  classRow8 ++ classRow9 ++ classRowA ++ classRowB ++ classRowC ++ classRowD ++ classRowE ++ classRowF

/-- An entry as the ROM holds it: bits 7:0 n_zeros, bits 15:8 run_length (30_encoding.md R73). -/
def classEntry (l : Byte) : BitVec 16 :=
  let e := classRom.getD l.toNat (0, 0)
  BitVec.ofNat 16 (e.1 + 256 * e.2)

/-- The n_zeros field of an entry (30_encoding.md R73). -/
def entryZeros (e : BitVec 16) : Byte := e.extractLsb' 0 8

/-- The run_length field of an entry (30_encoding.md R73). -/
def entryRun (e : BitVec 16) : Byte := e.extractLsb' 8 8

end Sys2Proof.Machine
end

