-- ==== Sys2Proof/Machine/Swar.lean ====
section
/-! DEFINITION. Zero-run detector, layout extractor and run classifier (40_swar_classifier.md): the combinational functions, and the
three rows of the opcode table that apply them to the datapath's values (30_encoding.md R73). -/

namespace Sys2Proof.Machine

/-- M of 40_swar_classifier.md R100. -/
def lowMask : Word := 0x7F7F7F7F7F7F7F7F

/-- The most significant bit of each lane (40_swar_classifier.md R100). -/
def msbMask : Word := 0x8080808080808080

/-- The multiplier of 40_swar_classifier.md R103. -/
def gather : Word := 0x0002040810204081

/-- MARK_ZEROS(W), the mask-add-or form and no other (40_swar_classifier.md R100, R102). -/
def zeroMask (w : Word) : Word := ((((w &&& lowMask) + lowMask) ||| w) &&& msbMask) ^^^ msbMask

/-- EXTRACT_MSBS(m): the product modulo 2^64, shifted right by 56, 8 bits (40_swar_classifier.md R103). -/
def layoutOf (m : Word) : Byte := ((m * gather) >>> 56).setWidth 8

/-- MARK_ZEROS: m <- MARK_ZEROS(W) (40_swar_classifier.md R100). -/
def execMarkZeros (s : State) : Result := .next { s with m := zeroMask s.w }

/-- EXTRACT_MSBS: L <- EXTRACT_MSBS(m) (40_swar_classifier.md R103). -/
def execExtractMsbs (s : State) : Result := .next { s with l := layoutOf s.m }

/-- CLASSIFY: (k, r) <- CLASS[L] (40_swar_classifier.md R110). -/
def execClassify (s : State) : Result :=
  .next { s with k := entryZeros (classEntry s.l), r := entryRun (classEntry s.l) }

end Sys2Proof.Machine
end

