-- ==== Sys2Proof/Machine/Encoder.lean ====
section
/-! DEFINITION. The encoder's steps (41_encoder.md). -/

namespace Sys2Proof.Machine

/-- ENC_START (41_encoder.md R120). -/
def execEncStart (s : State) : Result :=
  andThen (putOut 0 (bytesLE (headerWord false s.inLen).toNat 8) { s with n := s.inLen }) fun t =>
  .next { t with dst := 8, zc := 0, uc := 0, uPtr := 0, it := 0, phase := .encMain }

/-- "if uc = 0 : u_ptr <- it ; uc <- uc + c ; it <- it + c": c literal bytes are pending from `it` on (41_encoder.md R124, R125,
R128). -/
def addLiterals (c : Word) (s : State) : State :=
  { s with uPtr := if s.uc.toNat = 0 then s.it else s.uPtr, uc := s.uc + c, it := s.it + c }

/-- "zc <- zc + c ; it <- it + c": c zero bytes are pending (41_encoder.md R123, R127). -/
def addZeros (c : Word) (s : State) : State := { s with zc := s.zc + c, it := s.it + c }

/-- ENC_CASE_A: all eight bytes are zero (41_encoder.md R123). -/
def execEncCaseA (s : State) : Result :=
  andThen (flushPendingLiterals s) fun t => .next (addZeros 8 t)

/-- ENC_CASE_B: k zero bytes, then r nonzero bytes (41_encoder.md R124). -/
def execEncCaseB (s : State) : Result :=
  andThen (execExtractMsbs s) fun s =>
  andThen (execClassify s) fun s =>
  andThen (if s.zc.toNat > 0 ∨ s.k.toNat > 0 then flushPendingLiterals s else .next s) fun s =>
  andThen (flushPendingZeros { s with zc := s.zc + s.k.setWidth 64 }) fun s =>
  .next (addLiterals (s.r.setWidth 64) { s with it := s.it + s.k.setWidth 64 })

/-- ENC_CASE_C: no zero byte (41_encoder.md R125). -/
def execEncCaseC (s : State) : Result :=
  andThen (flushPendingZeros s) fun t => .next (addLiterals 8 t)

/-- ENC_WORD: loads a word, marks its zero bytes and runs the case it selects (41_encoder.md R122). -/
def execEncWord (s : State) : Result :=
  match s.loadWord s.it.toNat with
  | none => .fault .inAccess
  | some w =>
    andThen (execMarkZeros { s with w := w }) fun s =>
    if s.w = 0 then execEncCaseA s
    else if s.m ≠ 0 then execEncCaseB s
    else execEncCaseC s

/-- ENC_TAIL_ZERO (41_encoder.md R127). -/
def execEncTailZero (s : State) : Result :=
  andThen (flushPendingLiterals s) fun t => .next (addZeros 1 t)

/-- ENC_TAIL_NONZERO (41_encoder.md R128). -/
def execEncTailNonzero (s : State) : Result :=
  andThen (flushPendingZeros s) fun t => .next (addLiterals 1 t)

/-- ENC_FINAL: literals, then zeros (41_encoder.md R129). -/
def execEncFinal (s : State) : Result :=
  andThen (flushPendingLiterals s) fun t =>
  andThen (flushPendingZeros t) fun u => .next (u.enter .encFallback)

/-- ENC_DONE: the operation ends without error; VERB and OUT_LEN as they were set (41_encoder.md R134). OUT beyond the result
becomes any value (20_memory.md R58). -/
def execEncDone (s : State) : Result :=
  .next ((s.loseOut s.outLen.toNat s.outSize.toNat).close .none s.status.verb s.outLen)

/-- ENC_FALLBACK: the frame becomes a verbatim one (41_encoder.md R132). -/
def execEncFallback (s : State) : Result :=
  andThen (putOut 0 (bytesLE (headerWord true s.n).toNat 8) s) fun t =>
  withIn 0 t.n.toNat t fun bs =>
  andThen (putOut 8 bs t) fun u =>
  execEncDone { u with outLen := 8 + u.n, status := { u.status with verb := true } }

/-- ENC_NO_FALLBACK: the compressed frame is the result (41_encoder.md R133). -/
def execEncNoFallback (s : State) : Result :=
  execEncDone { s with outLen := s.dst, status := { s.status with verb := false } }

end Sys2Proof.Machine
end

