-- ==== Sys2Proof/Machine/Commands.lean ====
section
/-! DEFINITION. Host commands and register accesses (44_commands.md). -/

namespace Sys2Proof.Machine

/-- Writes of CTRL and IN_LEN while STATUS.BUSY = 1 are ignored (44_commands.md R210, R215). -/
def unlessBusy (s : State) (act : State → Result) : Result := if s.status.busy then .next s else act s

/-- CMD_NOP (44_commands.md R211). -/
def execCmdNop (_ign : BitVec 56) (s : State) : Result := unlessBusy s fun s => .next s

/-- CMD_COMPRESS: accepted, the start checks in their order, then ENC_START (44_commands.md R212; 60_exceptions.md R246). -/
def execCmdCompress (_ign : BitVec 56) (s : State) : Result :=
  unlessBusy s fun s =>
  let t := s.accept
  if t.inLen.toNat ≥ 2 ^ 63 then raise .length t
  else if t.inLen.toNat > t.inSize.toNat then raise .capacity t
  else if 8 + 2 * t.inLen.toNat > t.outSize.toNat then raise .capacity t
  else execEncStart t

/-- CMD_DECOMPRESS: accepted, the start check, then DEC_HEADER is next (44_commands.md R213; 60_exceptions.md R247). -/
def execCmdDecompress (_ign : BitVec 56) (s : State) : Result :=
  unlessBusy s fun s =>
  let t := s.accept
  if t.inLen.toNat > t.inSize.toNat then raise .capacity t
  else .next (t.enter .decHeader)

/-- CMD_RESERVED: rejected with BAD_COMMAND; OUT_LEN is unchanged (44_commands.md R214; 60_exceptions.md R244). -/
def execCmdReserved (_cmd : Byte) (_ign : BitVec 56) (s : State) : Result :=
  unlessBusy s fun s => .next (s.close .badCommand false s.outLen)

/-- WRITE_IN_LEN (44_commands.md R215, R216). -/
def execWriteInLen (value : Word) (s : State) : Result := unlessBusy s fun s => .next { s with inLen := value }

/-- READ_REGISTER: the value goes to the host, nothing else changes (44_commands.md R217; log 5). -/
def execReadRegister (index : Word) (s : State) : Result := .next { s with readData := s.readReg index }

/-- WRITE_IGNORED (44_commands.md R218). -/
def execWriteIgnored (_index _value : Word) (s : State) : Result := .next s

end Sys2Proof.Machine
end

