-- ==== Sys2Proof/Machine/Dispatch.lean ====
section
/-! DEFINITION. Which meaning each instruction has. -/

namespace Sys2Proof.Machine

def exec (i : Instr) (s : State) : Host.Outcome State Fault Refusal :=
  match i with
  -- control bytes
  | .zrunLong len => Sys2Proof.Machine.execZrunLong len s
  | .zrunShort len => Sys2Proof.Machine.execZrunShort len s
  | .litLong len => Sys2Proof.Machine.execLitLong len s
  | .litShort len => Sys2Proof.Machine.execLitShort len s
  -- frame headers
  | .hdrCompressed len => Sys2Proof.Machine.execHdrCompressed len s
  | .hdrVerbatim len => Sys2Proof.Machine.execHdrVerbatim len s
  -- host register accesses
  | .cmdNop ign => Sys2Proof.Machine.execCmdNop ign s
  | .cmdCompress ign => Sys2Proof.Machine.execCmdCompress ign s
  | .cmdDecompress ign => Sys2Proof.Machine.execCmdDecompress ign s
  | .cmdReserved cmd ign => Sys2Proof.Machine.execCmdReserved cmd ign s
  | .writeInLen value => Sys2Proof.Machine.execWriteInLen value s
  | .readRegister index => Sys2Proof.Machine.execReadRegister index s
  | .writeIgnored index value => Sys2Proof.Machine.execWriteIgnored index value s
  -- detector, extractor, classifier
  | .markZeros => Sys2Proof.Machine.execMarkZeros s
  | .extractMsbs => Sys2Proof.Machine.execExtractMsbs s
  | .classify => Sys2Proof.Machine.execClassify s
  -- encoder
  | .encStart => Sys2Proof.Machine.execEncStart s
  | .encWord => Sys2Proof.Machine.execEncWord s
  | .encCaseA => Sys2Proof.Machine.execEncCaseA s
  | .encCaseB => Sys2Proof.Machine.execEncCaseB s
  | .encCaseC => Sys2Proof.Machine.execEncCaseC s
  | .encTailZero => Sys2Proof.Machine.execEncTailZero s
  | .encTailNonzero => Sys2Proof.Machine.execEncTailNonzero s
  | .encFinal => Sys2Proof.Machine.execEncFinal s
  | .encFallback => Sys2Proof.Machine.execEncFallback s
  | .encNoFallback => Sys2Proof.Machine.execEncNoFallback s
  | .encDone => Sys2Proof.Machine.execEncDone s
  -- emission writer
  | .flushZeros => Sys2Proof.Machine.execFlushZeros s
  | .flushLiterals => Sys2Proof.Machine.execFlushLiterals s
  -- decoder
  | .decHeader => Sys2Proof.Machine.execDecHeader s
  | .decCheck => Sys2Proof.Machine.execDecCheck s
  | .decDone => Sys2Proof.Machine.execDecDone s

end Sys2Proof.Machine
end

