-- ==== Sys2Proof/Machine/Sequencer.lean ====
section
/-! DEFINITION. Which instruction the core takes next in each phase (10_state.md R17), what a host move does, and how the two
agents take turns (10_state.md R10; 20_memory.md R52). Step.lean only calls this file. -/

namespace Sys2Proof.Machine

/-! ### The core -/

/-- How many length bytes follow a control byte: 2 for the long forms (30_encoding.md R63, R64). -/
def lengthBytes (c : Byte) : Nat := if c.toNat = 0x00 ∨ c.toNat = 0x80 then 2 else 0

/-- DEC_BODY: fetches the control byte at `ip`, with those of its length bytes that lie below IN_LEN, and runs what they
decode to; a length cut short raises INVALID_FRAME (43_decoder.md R184, R185, R187; 20_memory.md R45; log 17). -/
def stepBody (s : State) : Result :=
  let ip := s.ip.toNat
  let left := s.inLen.toNat - ip
  if ip ≥ s.inLen.toNat then .next (s.enter .decCheck)
  else withIn ip 1 s fun c =>
    let len := min (c.map lengthBytes).sum (left - 1)
    withIn (ip + 1) len s fun b =>
      match decodeBody (c ++ b) with
      | .ok (i, _) => exec i { s with ip := s.ip + BitVec.ofNat 64 (1 + len) }
      | .error _ => raiseInBody .invalidFrame { s with ip := s.ip + 1 }

/-- ENC_MAIN: one main-loop iteration while a whole word is left, else ENC_TAIL (41_encoder.md R121). -/
def stepMain (s : State) : Result :=
  if s.it.toNat + 8 ≤ s.n.toNat then exec .encWord s else .next (s.enter .encTail)

/-- ENC_TAIL: one tail byte while one is left, else ENC_FINAL (41_encoder.md R126). -/
def stepTail (s : State) : Result :=
  if s.it.toNat < s.n.toNat then
    withIn s.it.toNat 1 s fun b => if b = [0] then exec .encTailZero s else exec .encTailNonzero s
  else .next (s.enter .encFinal)

/-- ENC_FALLBACK: the whole compressed frame against the input length (41_encoder.md R130, R131). -/
def stepFallback (s : State) : Result :=
  if s.dst.toNat > s.n.toNat then exec .encFallback s else exec .encNoFallback s

/-- One step of the core in its phase. In IDLE and DONE it changes nothing (60_exceptions.md R254). -/
def coreStep (s : State) : Result :=
  match s.phase with
  | .idle => .next s
  | .encMain => stepMain s
  | .encTail => stepTail s
  | .encFinal => exec .encFinal s
  | .encFallback => stepFallback s
  | .decHeader => exec .decHeader s
  | .decVerbatim => exec (.hdrVerbatim (s.hN.extractLsb' 0 63)) s
  | .decBody => stepBody s
  | .decCheck => exec .decCheck s
  | .done => .next s

/-! ### The host -/

/-- A host access of IN or OUT: no such move while BUSY (20_memory.md R52; U8; log 10). -/
def whileNotBusy (s : State) (f : Result) : Result := if s.status.busy then .refused .hostMemoryWhileBusy else f

/-- A host write of IN (10_state.md R23). -/
def hostWriteIn (a : Word) (bs : List Byte) (s : State) : Result :=
  whileNotBusy s (if fits s.inSize.toNat a.toNat bs.length then .next (s.storeIn a.toNat bs) else .fault .inAccess)

/-- A host read of a byte of IN (10_state.md R23). -/
def hostReadIn (a : Word) (s : State) : Result :=
  whileNotBusy s (withIn a.toNat 1 s fun _ => .next { s with readData := (s.inByte a.toNat).setWidth 64 })

/-- A host write of OUT (10_state.md R23). -/
def hostWriteOut (a : Word) (bs : List Byte) (s : State) : Result := whileNotBusy s (putOut a.toNat bs s)

/-- A host read of a byte of OUT (10_state.md R23). -/
def hostReadOut (a : Word) (s : State) : Result :=
  whileNotBusy s (if fits s.outSize.toNat a.toNat 1 then .next { s with readData := (s.outByte a.toNat).setWidth 64 }
    else .fault .outAccess)

/-- Takes the host's next move, or lets the core step where the host has none, passes or waits. -/
def advance (s : State) : Result :=
  match s.host with
  | [] => coreStep s
  | .pass :: rest => coreStep { s with host := rest }
  | .wait :: rest => if s.status.busy then coreStep s else .next { s with host := rest }
  | .reset :: rest => .next { s with host := rest }.resetCore
  | .writeReg i v :: rest => exec (decodeRegWrite i v) { s with host := rest }
  | .readReg i :: rest => exec (.readRegister i) { s with host := rest }
  | .writeIn a bs :: rest => hostWriteIn a bs { s with host := rest }
  | .readIn a :: rest => hostReadIn a { s with host := rest }
  | .writeOut a bs :: rest => hostWriteOut a bs { s with host := rest }
  | .readOut a :: rest => hostReadOut a { s with host := rest }

/-! ### Placing one instruction where the next step takes it -/

/-- A control byte's operation: how many payload bytes follow it, and how many items it produces (30_encoding.md R64). -/
def segmentShape : Instr → Nat × Nat
  | .zrunLong s => (0, s.toNat)
  | .zrunShort v => (0, v.toNat)
  | .litLong s => (s.toNat, s.toNat)
  | .litShort n => (n.toNat, n.toNat)
  | _ => (0, 0)

/-- A decode is running and the core, not the host, takes the next step. -/
def State.decoding (s : State) (p : Phase) (frameLength : Nat) : State :=
  { s.accept with phase := p, inLen := BitVec.ofNat 64 frameLength, host := .pass :: s.host }

/-- A body whose only segment is this one, with zero payload bytes, about to be fetched at `ip` = 8. -/
def State.placeBody (s : State) (i : Instr) (bs : List Byte) : State :=
  let frame := bs ++ List.replicate (segmentShape i).1 0
  { (s.storeIn 8 frame).decoding .decBody (8 + frame.length) with
    ip := 8, op := 0, hflag := false, hN := BitVec.ofNat 64 (segmentShape i).2 }

/-- A frame with this header: about to be read, or, for a verbatim header, about to have its zero body copied. -/
def State.placeHeader (s : State) (i : Instr) (bs : List Byte) : State :=
  match i with
  | .hdrVerbatim len =>
    { (s.storeIn 0 (bs ++ List.replicate len.toNat 0)).decoding .decVerbatim (8 + len.toNat) with
      ip := 8, op := 0, hflag := true, hN := len.setWidth 64 }
  | _ => (s.storeIn 0 bs).decoding .decHeader 8

/-- Places the instruction that `decodeTableWord nbits w` reads, so that the very next step runs it (log 12). -/
def State.placeWord (s : State) (nbits w : Nat) : State :=
  let bs := (tableWord nbits w).2
  match (tableWord nbits w).1, decode (tableWord nbits w).1 bs with
  | .body, .ok (i, rest) => s.placeBody i (bs.take (bs.length - rest.length))
  | .header, .ok (i, _) => s.placeHeader i bs
  | .regWrite, _ =>
    { s with host := .writeReg (BitVec.ofNat 64 (leNat (bs.take 8))) (BitVec.ofNat 64 (leNat (bs.drop 8))) :: s.host }
  | .regRead, _ => { s with host := .readReg (BitVec.ofNat 64 (leNat bs)) :: s.host }
  | _, .error _ => s

end Sys2Proof.Machine
end

