-- ==== Sys2Proof/Safety.lean ====
section
/-! DEFINITION. What a safe run is, in the terms the claims use: the invariant of the machine, the end of an operation, and what an
encode and a decode should produce as functions of byte strings. -/

namespace Sys2Proof.Machine

/-! ### The invariant -/

/-- No known byte lies outside a memory of that size (20_memory.md R51). -/
def Memory.within (mem : Memory) (size : Nat) : Bool := mem.all fun c => decide (c.1 < size)

/-- Both memories are in the canonical form and inside their sizes. -/
def MemInv (s : State) : Prop :=
  s.inMem.wf = true ∧ s.outMem.wf = true ∧ s.inMem.within s.inSize.toNat = true ∧ s.outMem.within s.outSize.toNat = true

/-- STATUS and OUT_LEN agree with the phase (10_state.md R14, R15, R17): BUSY = 1 exactly while an operation runs, DONE = 1
exactly in phase DONE; VERB is 0 unless DONE = 1 and ERR = 0; ERR is 0 and OUT_LEN is 0 while an operation runs. -/
def StatusInv (s : State) : Prop :=
  s.status.busy = s.phase.running ∧ s.status.done = decide (s.phase = .done) ∧
  (s.status.verb = true → s.status.done = true ∧ s.status.err = .none) ∧
  (s.status.done = false → s.status.err = .none) ∧
  (s.phase.running = true → s.outLen = 0)

/-- What holds in the four phases of an encode: the start checks hold (60_exceptions.md R246), `it` never exceeds `n`
(10_state.md R18), at most one count is pending (41_encoder.md R135), the pending literals end at `it` (R136), and what is
emitted and pending stays within 8 + 2·it bytes (R139; 42_emission.md R165). -/
def EncodeInv (s : State) : Prop :=
  s.n = s.inLen ∧ s.n.toNat < 2 ^ 63 ∧ s.n.toNat ≤ s.inSize.toNat ∧ 8 + 2 * s.n.toNat ≤ s.outSize.toNat ∧
  s.it.toNat ≤ s.n.toNat ∧
  (s.zc = 0 ∨ s.uc = 0) ∧
  (s.uc ≠ 0 → s.uPtr.toNat + s.uc.toNat = s.it.toNat) ∧
  8 ≤ s.dst.toNat ∧ s.dst.toNat + s.zc.toNat + 2 * s.uc.toNat ≤ 8 + 2 * s.it.toNat

/-- What holds in the phases of a decode after its header is read: the capacities (20_memory.md R48), both cursors within
their bounds (10_state.md R18; 43_decoder.md R189), N a 63-bit value (R180). -/
def DecodeInv (s : State) : Prop :=
  s.inLen.toNat ≤ s.inSize.toNat ∧ s.hN.toNat ≤ s.outSize.toNat ∧ s.hN.toNat < 2 ^ 63 ∧
  8 ≤ s.ip.toNat ∧ s.ip.toNat ≤ s.inLen.toNat ∧ s.op.toNat ≤ s.hN.toNat

/-- What holds in each phase. -/
def PhaseInv (s : State) : Prop :=
  match s.phase with
  | .idle | .done => True
  | .encMain => EncodeInv s
  | .encTail => EncodeInv s ∧ s.n.toNat - s.it.toNat < 8
  | .encFinal => EncodeInv s ∧ s.it = s.n
  | .encFallback => EncodeInv s ∧ s.it = s.n ∧ s.zc = 0 ∧ s.uc = 0
  | .decHeader => s.inLen.toNat ≤ s.inSize.toNat
  | .decVerbatim => DecodeInv s ∧ s.hflag = true ∧ s.ip = 8 ∧ s.op = 0
  | .decBody => DecodeInv s ∧ s.hflag = false
  | .decCheck => DecodeInv s ∧ s.hflag = false ∧ s.ip = s.inLen

/-- The invariant of the machine. -/
def Invariant (s : State) : Prop := MemInv s ∧ StatusInv s ∧ PhaseInv s

/-- The host's next move is one the spec gives it (10_state.md R23; 20_memory.md R51, R52): a move on IN or OUT is made while
not BUSY and within the memory. -/
def HostAllowed (s : State) : Prop :=
  match s.host with
  | .writeIn a bs :: _ => s.status.busy = false ∧ fits s.inSize.toNat a.toNat bs.length = true
  | .readIn a :: _ => s.status.busy = false ∧ a.toNat < s.inSize.toNat
  | .writeOut a bs :: _ => s.status.busy = false ∧ fits s.outSize.toNat a.toNat bs.length = true
  | .readOut a :: _ => s.status.busy = false ∧ a.toNat < s.outSize.toNat
  | _ => True

/-! ### The encoder's states, as the rules write them -/

/-- What FLUSH_ZEROS appends (42_emission.md R161). -/
def State.zeroBytes (s : State) : List Byte := encodeBody (writeZeros s.zc.toNat)

/-- What FLUSH_LITERALS appends (42_emission.md R163). -/
def State.literalBytes (s : State) : List Byte := encodeBody (writeLiterals (s.inBytes s.uPtr.toNat s.uc.toNat))

/-- OUT has room for the pending zeros, if there are any (20_memory.md R46, R51). -/
def CanFlushZeros (s : State) : Prop := s.zc = 0 ∨ s.dst.toNat + s.zeroBytes.length ≤ s.outSize.toNat

/-- IN has the pending literals and OUT has room for them, if there are any (20_memory.md R45, R46, R51). -/
def CanFlushLiterals (s : State) : Prop :=
  s.uc = 0 ∨ (s.uPtr.toNat + s.uc.toNat ≤ s.inSize.toNat ∧ s.dst.toNat + s.literalBytes.length ≤ s.outSize.toNat)

/-- The state after FLUSH_ZEROS (42_emission.md R160, R161); with no zeros pending it is the same state. -/
def State.afterZeros (s : State) : State :=
  { s with
    outMem := s.outMem.writeBytes s.dst.toNat s.zeroBytes
    dst := s.dst + BitVec.ofNat 64 s.zeroBytes.length
    zc := 0 }

/-- The state after FLUSH_LITERALS (42_emission.md R160, R163, R164); with no literals pending it is the same state. -/
def State.afterLiterals (s : State) : State :=
  { s with
    outMem := s.outMem.writeBytes s.dst.toNat s.literalBytes
    dst := s.dst + BitVec.ofNat 64 s.literalBytes.length
    uPtr := s.uPtr + BitVec.ofNat 64 (literalAdvance s.uc.toNat)
    uc := 0 }

/-- The state after CASE_A (41_encoder.md R123). -/
def State.afterCaseA (s : State) : State :=
  { s.afterLiterals with zc := s.zc + 8, it := s.it + 8 }

/-- CASE_B up to its literal flush: the layout and the class of the mask (41_encoder.md R124). -/
def State.classified (s : State) : State :=
  { s with
    l := layoutOf s.m
    k := entryZeros (classEntry (layoutOf s.m))
    r := entryRun (classEntry (layoutOf s.m)) }

/-- CASE_B up to its zero flush: literals are flushed when a zero run is pending or begins, then the word's leading zeros are
counted (41_encoder.md R124). -/
def State.zerosCounted (s : State) : State :=
  let t := if s.classified.zc = 0 ∧ s.classified.k = 0 then s.classified else s.classified.afterLiterals
  { t with zc := t.zc + t.k.setWidth 64 }

/-- What CASE_B needs of the memories. -/
def CanCaseB (s : State) : Prop :=
  ((s.classified.zc = 0 ∧ s.classified.k = 0) ∨ CanFlushLiterals s.classified) ∧ CanFlushZeros s.zerosCounted

/-- The state after CASE_B (41_encoder.md R124). -/
def State.afterCaseB (s : State) : State :=
  let t := s.zerosCounted.afterZeros
  { t with
    it := t.it + t.k.setWidth 64 + t.r.setWidth 64
    uPtr := if t.uc = 0 then t.it + t.k.setWidth 64 else t.uPtr
    uc := t.uc + t.r.setWidth 64 }

/-- The state after CASE_C (41_encoder.md R125). -/
def State.afterCaseC (s : State) : State :=
  { s.afterZeros with uPtr := if s.uc = 0 then s.it else s.uPtr, uc := s.uc + 8, it := s.it + 8 }

/-- The state in which ENC_WORD selects its case: the word at `it` is loaded and its zero bytes are marked (41_encoder.md R122). -/
def State.wordLoaded (s : State) : State :=
  let w : Word := BitVec.ofNat 64 (leNat (s.inBytes s.it.toNat 8))
  { s with w := w, m := zeroMask w }

/-! ### Comparing two steps -/

/-- What the answers to `s` and to `s'`, which differ in OUT alone, share: everything but OUT, and of OUT what is new. A byte of
OUT is the same in both next states, or in each it is the one that was there before; the ranges that became 'any value' are the
same. -/
def SameButOldOut (s s' : State) (o o' : Result) : Prop :=
  match o, o' with
  | .next t, .next t' =>
    t' = { t with outMem := t'.outMem, outLost := t'.outLost } ∧
    (∃ lost, t.outLost = lost ++ s.outLost ∧ t'.outLost = lost ++ s'.outLost) ∧
    ∀ a, t.outMem.read a = t'.outMem.read a ∨
      (t.outMem.read a = s.outMem.read a ∧ t'.outMem.read a = s'.outMem.read a)
  | .fault e, .fault e' => e = e'
  | .refused e, .refused e' => e = e'
  | _, _ => False

/-- The state after an error that leaves OUT as it is (60_exceptions.md R245): phase, STATUS and OUT_LEN as the rule says, and the
four registers a decode writes as they were before the command (log 20). -/
def State.failed (s : State) (e : ErrCode) : State :=
  { s with
    phase := .done, status := { busy := false, done := true, err := e, verb := false }, outLen := 0,
    ip := s.before.ip, hN := s.before.hN, hflag := s.before.hflag, op := s.before.op }

/-! ### The end of an operation -/

/-- From `s` the machine comes, in some number of steps, to `t`, where the operation has ended: DONE = 1 (44_commands.md R219). -/
def EndsIn (s t : State) : Prop := t.status.done = true ∧ ∃ k, Sys2Proof.core.run k s = .next t

/-! ### What an encode should produce (41_encoder.md R131 to R133, R139) -/

/-- A maximal run of zero bytes, or of nonzero bytes. -/
inductive Run where
  | zeros (len : Nat)
  | literals (bytes : List Byte)
  deriving DecidableEq, Repr

/-- One more byte in front of a list of runs. -/
def consRun (b : Byte) : List Run → List Run
  | .zeros len :: rest => if b = 0 then .zeros (len + 1) :: rest else .literals [b] :: .zeros len :: rest
  | .literals bs :: rest => if b = 0 then .zeros 1 :: .literals bs :: rest else .literals (b :: bs) :: rest
  | [] => if b = 0 then [.zeros 1] else [.literals [b]]

/-- The maximal runs of a byte string, in order (41_encoder.md R139). -/
def runsOf (bytes : List Byte) : List Run := bytes.foldr consRun []

/-- How a run is written (41_encoder.md R139; 42_emission.md R161, R163). -/
def Run.segments : Run → List Segment
  | .zeros len => writeZeros len
  | .literals bs => writeLiterals bs

/-- The compressed body of a byte string (41_encoder.md R139). -/
def compressedBody (bytes : List Byte) : List Byte := encodeBody ((runsOf bytes).flatMap Run.segments)

/-- Whether the whole compressed frame, header counted, is longer than the input (41_encoder.md R131). -/
def fallsBack (bytes : List Byte) : Bool := decide (8 + (compressedBody bytes).length > bytes.length)

/-- The final frame of a byte string (41_encoder.md R132, R133, R140). -/
def frameOf (bytes : List Byte) : List Byte :=
  if fallsBack bytes then bytesLE (bytes.length + 2 ^ 63) 8 ++ bytes
  else bytesLE bytes.length 8 ++ compressedBody bytes

/-! ### What a decode should produce (43_decoder.md R183, R190) -/

/-- The header value of a frame (30_encoding.md R60). -/
def frameHeader (frame : List Byte) : Word := BitVec.ofNat 64 (leNat (frame.take 8))

/-- The verbatim flag of a frame. -/
def frameFlag (frame : List Byte) : Bool := headerFlag (frameHeader frame)

/-- The original length N a frame states. -/
def frameLength (frame : List Byte) : Nat := (headerLength (frameHeader frame)).toNat

/-- The bytes a well-formed frame stands for; nothing where the frame is not well-formed (43_decoder.md R190, R195). -/
def contentOf (frame : List Byte) : Option (List Byte) :=
  if frame.length < 8 then none
  else if frameFlag frame then
    if frame.length < 8 + frameLength frame then none else some ((frame.drop 8).take (frameLength frame))
  else match parseBody (frame.drop 8) with
    | .error _ => none
    | .ok segs => if (expandBody segs).length = frameLength frame then some (expandBody segs) else none

end Sys2Proof.Machine
end

