-- ==== Sys2Proof/Certificates/Slice0/Obligations.lean ====
section
/-! DEFINITION. The statements for the provers. Each docstring names the rule of spec/ it formalises. -/

open Sys2Proof Sys2Proof.Machine

/-! ## Encoding -/

/-- Words written out bit by bit from 30_encoding.md R60 to R63 and R71 decode to the instructions they stand for, each family of
encodings once or more. The five register accesses stand in the model's own byte encoding, index first, then value, each 8
little-endian bytes: that is the model's choice (log 13), since the spec gives a register access (10_state.md R11) none. -/
def Obligations.SpecWordsDecodeToTheirInstructions : Prop :=
  decode .body [0b00000000, 0b11111111, 0b00000001] = .ok (.zrunLong 511, []) ∧
  decode .body [0b01111111, 0b00000001] = .ok (.zrunShort 127, [0b00000001]) ∧
  decode .body [0b10000000, 0b00000011, 0b00000000, 0xAA, 0xBB, 0xCC] = .ok (.litLong 3, [0xAA, 0xBB, 0xCC]) ∧
  decode .body [0b10000010, 0xAA, 0xBB] = .ok (.litShort 2, [0xAA, 0xBB]) ∧
  decode .header [0x00, 0x00, 0x01, 0x00, 0x00, 0x00, 0x00, 0x00] = .ok (.hdrCompressed 65536, []) ∧
  decode .header [0x08, 0x00, 0x00, 0x00, 0x00, 0x00, 0x00, 0x80] = .ok (.hdrVerbatim 8, []) ∧
  decode .regWrite [0, 0, 0, 0, 0, 0, 0, 0, 0x01, 0x01, 0, 0, 0, 0, 0, 0] = .ok (.cmdCompress 1, []) ∧
  decode .regWrite [0, 0, 0, 0, 0, 0, 0, 0, 0x03, 0, 0, 0, 0, 0, 0, 0] = .ok (.cmdReserved 3 0, []) ∧
  decode .regWrite [1, 0, 0, 0, 0, 0, 0, 0, 0x1F, 0, 0, 0, 0, 0, 0, 0] = .ok (.writeInLen 31, []) ∧
  decode .regWrite [5, 0, 0, 0, 0, 0, 0, 0, 0x07, 0, 0, 0, 0, 0, 0, 0] = .ok (.writeIgnored 5 7, []) ∧
  decode .regRead [2, 0, 0, 0, 0, 0, 0, 0] = .ok (.readRegister 2, [])

/-- 30_encoding.md R65 and R62: every one of the 256 control-byte values is a defined opcode, and which one and with which count is
as the table says; a long form takes its count from the next two bytes. -/
def Obligations.EveryControlByteIsAnOpcode : Prop :=
  ∀ (c b1 b2 : Byte) (rest : List Byte),
    (c.toNat = 0x00 →
      ∃ s, decodeBody (c :: b1 :: b2 :: rest) = .ok (.zrunLong s, rest) ∧ s.toNat = b1.toNat + 256 * b2.toNat) ∧
    (0x01 ≤ c.toNat ∧ c.toNat ≤ 0x7F →
      ∃ v, decodeBody (c :: rest) = .ok (.zrunShort v, rest) ∧ v.toNat = c.toNat ∧ 1 ≤ v.toNat) ∧
    (c.toNat = 0x80 →
      ∃ s, decodeBody (c :: b1 :: b2 :: rest) = .ok (.litLong s, rest) ∧ s.toNat = b1.toNat + 256 * b2.toNat) ∧
    (0x81 ≤ c.toNat →
      ∃ n, decodeBody (c :: rest) = .ok (.litShort n, rest) ∧ n.toNat = c.toNat - 0x80 ∧ 1 ≤ n.toNat)

/-- 30_encoding.md R63: the length of a long form is the two bytes after the control byte, low byte first, and ranges over all
of 0..65535; with fewer than two bytes there is no length (43_decoder.md R185, R187). -/
def Obligations.LongFormLengthIsLittleEndian : Prop :=
  ∀ (mk : BitVec 16 → Instr),
    (∀ (b1 b2 : Byte) (rest : List Byte), ∃ s : BitVec 16,
      decodeLength mk (b1 :: b2 :: rest) = .ok (mk s, rest) ∧ s.toNat = b1.toNat + 256 * b2.toNat) ∧
    (∀ bs : List Byte, bs.length < 2 → decodeLength mk bs = .error .lengthTruncated)

/-- 30_encoding.md R60: bit 7 of frame byte 7 is the verbatim flag, and the other 63 bits of the little-endian header value are
N; both values of the flag are legal with every N. -/
def Obligations.HeaderSplitsIntoFlagAndLength : Prop :=
  ∀ (b0 b1 b2 b3 b4 b5 b6 b7 : Byte) (rest : List Byte), ∃ n : BitVec 63,
    decode .header (b0 :: b1 :: b2 :: b3 :: b4 :: b5 :: b6 :: b7 :: rest) =
      .ok (if b7.getLsbD 7 then .hdrVerbatim n else .hdrCompressed n, rest) ∧
    n.toNat = b0.toNat + 2 ^ 8 * b1.toNat + 2 ^ 16 * b2.toNat + 2 ^ 24 * b3.toNat + 2 ^ 32 * b4.toNat +
      2 ^ 40 * b5.toNat + 2 ^ 48 * b6.toNat + 2 ^ 56 * (b7.toNat % 128)

/-- 30_encoding.md R71: the command of a value written to CTRL is its low byte, and bits 63:8 are ignored: two values with the same
low byte do the same. -/
def Obligations.ControlWriteSelectsCommand : Prop :=
  ∀ v : Word, ∃ ign : BitVec 56,
    (v.toNat % 256 = 0x00 → decodeRegWrite 0 v = .cmdNop ign) ∧
    (v.toNat % 256 = 0x01 → decodeRegWrite 0 v = .cmdCompress ign) ∧
    (v.toNat % 256 = 0x02 → decodeRegWrite 0 v = .cmdDecompress ign) ∧
    (3 ≤ v.toNat % 256 → decodeRegWrite 0 v = .cmdReserved (BitVec.ofNat 8 v.toNat) ign) ∧
    (∀ (v' : Word) (s : State), v'.toNat % 256 = v.toNat % 256 →
      exec (decodeRegWrite 0 v') s = exec (decodeRegWrite 0 v) s)

/-- Decode of encode, for every instruction that has an encoding and every operand it admits, whatever bytes follow. The byte
encoding of a register access is the model's choice (log 13). -/
def Obligations.DecodeOfEncodeGivesInstructionBack : Prop :=
  ∀ (i : Instr) (sp : Space) (bs rest : List Byte),
    i.wf = true → encode i = some (sp, bs) → decode sp (bs ++ rest) = .ok (i, rest)

/-- Encode of decode: what the decoder reads is a well-formed instruction of that space, and its encoding is exactly the bytes
that were read. The byte encoding of a register access is the model's choice (log 13). -/
def Obligations.EncodeOfDecodeGivesBytesBack : Prop :=
  ∀ (i : Instr) (sp : Space) (bs rest : List Byte),
    decode sp bs = .ok (i, rest) → i.wf = true ∧ ∃ e, encode i = some (sp, e) ∧ bs = e ++ rest

/-- 30_encoding.md R64, R69: a body splits into segments in at most one way, and exactly the concatenations of well-formed
segments split. -/
def Obligations.BodiesSplitUniquelyIntoSegments : Prop :=
  ∀ (segs : List Segment) (bs : List Byte),
    parseBody bs = .ok segs ↔ (∀ g ∈ segs, g.wf = true) ∧ encodeBody segs = bs

/-! ## Host commands and registers -/

/-- 44_commands.md R211: NOP changes nothing. -/
def Obligations.NopChangesNothing : Prop :=
  ∀ (ign : BitVec 56) (s : State), exec (.cmdNop ign) s = .next s

/-- 44_commands.md R215: while BUSY = 1 a write of CTRL or of IN_LEN, of any value, changes no state. -/
def Obligations.BusyCoreIgnoresCommandAndLengthWrites : Prop :=
  ∀ (v : Word) (s : State), s.status.busy = true →
    exec (decodeRegWrite 0 v) s = .next s ∧ exec (decodeRegWrite 1 v) s = .next s

/-- 60_exceptions.md R246 (with R242, R243, R245): the start checks of a COMPRESS, in their order, and what each leaves: only
phase, STATUS and OUT_LEN change. The model's own field `before` holds what the command put aside (log 20). -/
def Obligations.CompressChecksInOrder : Prop :=
  ∀ (ign : BitVec 56) (s : State), s.status.busy = false →
    let failed (e : ErrCode) : Result :=
      .next { s with
        phase := .done, status := { busy := false, done := true, err := e, verb := false }, outLen := 0,
        before := s.decodeRegs }
    (2 ^ 63 ≤ s.inLen.toNat → exec (.cmdCompress ign) s = failed .length) ∧
    (s.inLen.toNat < 2 ^ 63 → s.inSize.toNat < s.inLen.toNat → exec (.cmdCompress ign) s = failed .capacity) ∧
    (s.inLen.toNat < 2 ^ 63 → s.inLen.toNat ≤ s.inSize.toNat → s.outSize.toNat < 8 + 2 * s.inLen.toNat →
      exec (.cmdCompress ign) s = failed .capacity)

/-- 44_commands.md R212 and 41_encoder.md R120: an accepted COMPRESS whose start checks pass sets BUSY, clears DONE, ERR, VERB and
OUT_LEN, writes the header and prepares the encode. The model's own field `before` holds what the command put aside (log 20). -/
def Obligations.CompressStartsEncode : Prop :=
  ∀ (ign : BitVec 56) (s : State), s.status.busy = false → s.inLen.toNat < 2 ^ 63 → s.inLen.toNat ≤ s.inSize.toNat →
    8 + 2 * s.inLen.toNat ≤ s.outSize.toNat →
    exec (.cmdCompress ign) s = .next { s with
      status := { busy := true, done := false, err := .none, verb := false }, outLen := 0, before := s.decodeRegs,
      n := s.inLen, outMem := s.outMem.writeBytes 0 (bytesLE s.inLen.toNat 8), dst := 8, zc := 0, uc := 0, uPtr := 0,
      it := 0, phase := .encMain }

/-- 44_commands.md R213 and 60_exceptions.md R247, check (1): an accepted DECOMPRESS raises CAPACITY when IN_LEN > IN_SIZE, and
otherwise sets BUSY and goes on to read the header. The model's own field `before` holds what the command put aside (log 20). -/
def Obligations.DecompressStartsDecode : Prop :=
  ∀ (ign : BitVec 56) (s : State), s.status.busy = false →
    (s.inSize.toNat < s.inLen.toNat → exec (.cmdDecompress ign) s = .next { s with
      phase := .done, status := { busy := false, done := true, err := .capacity, verb := false }, outLen := 0,
      before := s.decodeRegs }) ∧
    (s.inLen.toNat ≤ s.inSize.toNat → exec (.cmdDecompress ign) s = .next { s with
      phase := .decHeader, status := { busy := true, done := false, err := .none, verb := false }, outLen := 0,
      before := s.decodeRegs })

/-- 44_commands.md R214: a reserved command ends at once with STATUS = 0x12; IN, OUT and OUT_LEN are not touched. -/
def Obligations.ReservedCommandReportsBadCommand : Prop :=
  ∀ (c : Byte) (ign : BitVec 56) (s : State), 3 ≤ c.toNat → s.status.busy = false →
    ∃ t, exec (.cmdReserved c ign) s = .next t ∧ t.readReg 2 = 0x12 ∧ t.phase = .done ∧
      t = { s with phase := t.phase, status := t.status }

/-- 44_commands.md R216: a write of IN_LEN while BUSY = 0 sets it to the written value and changes nothing else. -/
def Obligations.InLenWriteTakesValue : Prop :=
  ∀ (v : Word) (s : State), s.status.busy = false → exec (.writeInLen v) s = .next { s with inLen := v }

/-- 44_commands.md R217 with the STATUS fields of 10_state.md R14: what each register index reads as, at any time, with no other
effect. -/
def Obligations.RegisterReadsReturnTheirFields : Prop :=
  ∀ (index : Word) (s : State), ∃ v : Word,
    exec (.readRegister index) s = .next { s with readData := v } ∧
    (index.toNat = 0 → v = 0) ∧
    (index.toNat = 1 → v = s.inLen) ∧
    (index.toNat = 2 →
      v.getLsbD 0 = s.status.busy ∧ v.getLsbD 1 = s.status.done ∧ (v.extractLsb' 2 3).toNat = s.status.err.code ∧
      v.getLsbD 5 = s.status.verb ∧ ∀ j, 6 ≤ j → v.getLsbD j = false) ∧
    (index.toNat = 3 → v = s.outLen) ∧
    (4 ≤ index.toNat → v = 0) ∧
    (StatusInv s → s.status.busy = true → (index.toNat = 2 → v.getLsbD 0 = true) ∧ (index.toNat = 3 → v = 0))

/-- 44_commands.md R218: a write of STATUS, OUT_LEN or an index of 4 or above changes nothing, at any time. -/
def Obligations.OtherRegisterWritesAreIgnored : Prop :=
  ∀ (index v : Word) (s : State), 2 ≤ index.toNat →
    decodeRegWrite index v = .writeIgnored index v ∧ exec (.writeIgnored index v) s = .next s

/-! ## Detector, extractor, classifier -/

/-- 40_swar_classifier.md R100: MARK_ZEROS sets m, and only m, by the mask-add-or form; bit 8i+7 of m is 1 exactly when byte i of
W is zero, and every other bit is 0. -/
def Obligations.MarkZerosMarksExactlyTheZeroLanes : Prop :=
  ∀ s : State, ∃ m : Word, exec .markZeros s = .next { s with m := m } ∧
    m = (((((s.w &&& 0x7F7F7F7F7F7F7F7F) + 0x7F7F7F7F7F7F7F7F) ||| s.w) &&& 0x8080808080808080) ^^^ 0x8080808080808080) ∧
    ∀ i < 8, m.getLsbD (8 * i + 7) = decide (s.w.extractLsb' (8 * i) 8 = 0) ∧
      ∀ j < 7, m.getLsbD (8 * i + j) = false

/-- 40_swar_classifier.md R103 and R104: EXTRACT_MSBS sets L, and only L, by the multiply-and-shift form; for a mask whose only
possible set bits are the bits 8i+7 it agrees with the reference loop. -/
def Obligations.ExtractMsbsGathersTheLaneMsbs : Prop :=
  ∀ s : State, ∃ l : Byte, exec .extractMsbs s = .next { s with l := l } ∧
    l.toNat = (s.m.toNat * 0x0002040810204081) % 2 ^ 64 / 2 ^ 56 ∧
    ((∀ i < 8, ∀ j < 7, s.m.getLsbD (8 * i + j) = false) → ∀ i < 8, l.getLsbD i = s.m.getLsbD (8 * i + 7))

/-- 40_swar_classifier.md R105: bit i of the layout byte says whether byte i of the word is zero; it is 0xFF exactly for the zero
word and 0x00 exactly for a word with no zero byte. -/
def Obligations.LayoutByteNamesTheZeroBytes : Prop :=
  ∀ w : Word,
    (∀ i < 8, (layoutOf (zeroMask w)).getLsbD i = decide (w.extractLsb' (8 * i) 8 = 0)) ∧
    (layoutOf (zeroMask w) = 0xFF ↔ w = 0) ∧
    (layoutOf (zeroMask w) = 0x00 ↔ ∀ i < 8, w.extractLsb' (8 * i) 8 ≠ 0)

/-- 40_swar_classifier.md R110 with R106 to R108: CLASSIFY sets k and r, and only them; k is the number of trailing 1-bits of L
and r the length of the run of 0-bits of L that starts at bit k. -/
def Obligations.ClassifyCountsLeadingZerosAndRun : Prop :=
  ∀ s : State, ∃ k r : Byte, exec .classify s = .next { s with k := k, r := r } ∧
    k.toNat + r.toNat ≤ 8 ∧
    (∀ i < k.toNat, s.l.getLsbD i = true) ∧
    (k.toNat < 8 → s.l.getLsbD k.toNat = false ∧ 1 ≤ r.toNat) ∧
    (∀ i, k.toNat ≤ i → i < k.toNat + r.toNat → s.l.getLsbD i = false) ∧
    (k.toNat + r.toNat < 8 → s.l.getLsbD (k.toNat + r.toNat) = true) ∧
    (s.l = 0xFF → k = 8 ∧ r = 0) ∧ (s.l = 0x00 → k = 0 ∧ r = 8)

/-! ## Emission writer -/

/-- 42_emission.md R161: FLUSH_ZEROS appends at `dst` the bytes of the pending zeros, 65535 of them in each long segment of the first
loop and the rest by its thresholds, advances `dst` over them and sets zc to 0; nothing else changes. -/
def Obligations.FlushZerosAppendsTheRun : Prop :=
  ∀ s : State, CanFlushZeros s →
    let a := (s.zc.toNat - 1) / 65535
    let left := s.zc.toNat - 65535 * a
    let bytes : List Byte := (List.replicate a [0x00, 0xFF, 0xFF]).flatten ++
      (if left > 254 then 0x00 :: bytesLE left 2
      else if left > 127 then [0x7F, BitVec.ofNat 8 (left - 127)]
      else if left > 0 then [BitVec.ofNat 8 left]
      else [])
    exec .flushZeros s = .next { s with
      outMem := s.outMem.writeBytes s.dst.toNat bytes, dst := s.dst + BitVec.ofNat 64 bytes.length, zc := 0 }

/-- 42_emission.md R162: the segments FLUSH_ZEROS emits for a count z, and their length in bytes. -/
def Obligations.ZeroSegmentsHaveTheirClosedForm : Prop :=
  writeZeros 0 = [] ∧
  ∀ z : Nat, 1 ≤ z →
    let a := (z - 1) / 65535
    let z' := z - 65535 * a
    (1 ≤ z' ∧ z' ≤ 65535 ∧ (z ≤ 65535 → a = 0)) ∧
    writeZeros z = List.replicate a (.zl 65535) ++
      (if 255 ≤ z' then [.zl z'] else if 128 ≤ z' then [.zs 127, .zs (z' - 127)] else [.zs z']) ∧
    (encodeBody (writeZeros z)).length = 3 * a + (if 255 ≤ z' then 3 else if 128 ≤ z' then 2 else 1)

/-- 42_emission.md R163 and R164: FLUSH_LITERALS appends the segments of the pending literals at `dst`, advances `dst` over them,
sets uc to 0 and advances u_ptr by 65535 and 127 for each turn of the two loops; nothing else changes. -/
def Obligations.FlushLiteralsAppendsTheRun : Prop :=
  ∀ s : State, CanFlushLiterals s →
    let bytes := encodeBody (writeLiterals (s.inBytes s.uPtr.toNat s.uc.toNat))
    let a := (s.uc.toNat - 1) / 65535
    let rest := s.uc.toNat - 65535 * a
    exec .flushLiterals s = .next { s with
      outMem := s.outMem.writeBytes s.dst.toNat bytes, dst := s.dst + BitVec.ofNat 64 bytes.length, uc := 0,
      uPtr := s.uPtr + BitVec.ofNat 64 (65535 * a + if 128 ≤ rest ∧ rest ≤ 254 then 127 else 0) }

/-- 42_emission.md R163: the bytes FLUSH_LITERALS emits for a run, by its length, each branch and loop of the rule. -/
def Obligations.LiteralBytesFollowTheThresholds : Prop :=
  ∀ bs : List Byte,
    (bs.length = 0 → encodeBody (writeLiterals bs) = []) ∧
    (1 ≤ bs.length ∧ bs.length ≤ 127 → encodeBody (writeLiterals bs) = BitVec.ofNat 8 (0x80 + bs.length) :: bs) ∧
    (128 ≤ bs.length ∧ bs.length ≤ 254 → encodeBody (writeLiterals bs) =
      0xFF :: (bs.take 127 ++ BitVec.ofNat 8 (0x80 + (bs.length - 127)) :: bs.drop 127)) ∧
    (255 ≤ bs.length ∧ bs.length ≤ 65535 → encodeBody (writeLiterals bs) = 0x80 :: (bytesLE bs.length 2 ++ bs)) ∧
    (65535 < bs.length → encodeBody (writeLiterals bs) =
      0x80 :: 0xFF :: 0xFF :: (bs.take 65535 ++ encodeBody (writeLiterals (bs.drop 65535))))

/-- 42_emission.md R166: every segment the writer emits is canonical, and counts 128..254 use two short forms. -/
def Obligations.EmittedSegmentsAreCanonical : Prop :=
  (∀ z : Nat, (∀ g ∈ writeZeros z, g.canonical = true) ∧
    (128 ≤ z → z ≤ 254 → writeZeros z = [.zs 127, .zs (z - 127)])) ∧
  (∀ bs : List Byte, (∀ g ∈ writeLiterals bs, g.canonical = true) ∧
    (128 ≤ bs.length → bs.length ≤ 254 → writeLiterals bs = [.ls (bs.take 127), .ls (bs.drop 127)]))

/-- What the writer emits stands for exactly the run it was given (41_encoder.md R139), and the cost bounds of 42_emission.md R165: a
run of z zeros takes at most z bytes, a run of u literals at most 2u. -/
def Obligations.EmittedSegmentsStandForTheRun : Prop :=
  (∀ z : Nat, expandBody (writeZeros z) = List.replicate z 0 ∧ (encodeBody (writeZeros z)).length ≤ z) ∧
  (∀ bs : List Byte, expandBody (writeLiterals bs) = bs ∧ (encodeBody (writeLiterals bs)).length ≤ 2 * bs.length)

/-! ## Encoder -/

/-- 41_encoder.md R120: ENC_START copies IN_LEN to n, writes the header with the verbatim bit clear and prepares the counts and
cursors. -/
def Obligations.EncStartPreparesTheFrame : Prop :=
  ∀ s : State, 8 ≤ s.outSize.toNat → exec .encStart s = .next { s with
    n := s.inLen, outMem := s.outMem.writeBytes 0 (bytesLE s.inLen.toNat 8), dst := 8, zc := 0, uc := 0, uPtr := 0,
    it := 0, phase := .encMain }

/-- 41_encoder.md R122: ENC_WORD loads the word at `it`, marks its zero bytes and takes CASE_A for the zero word, CASE_B for any
other word with a zero byte, CASE_C for a word with none. -/
def Obligations.EncWordTakesTheSelectedCase : Prop :=
  ∀ s : State, s.it.toNat + 8 ≤ s.inSize.toNat →
    let t := s.wordLoaded
    (t.w = 0 → CanFlushLiterals t → exec .encWord s = .next t.afterCaseA) ∧
    (t.w ≠ 0 → t.m ≠ 0 → CanCaseB t → exec .encWord s = .next t.afterCaseB) ∧
    (t.m = 0 → CanFlushZeros t → exec .encWord s = .next t.afterCaseC)

/-- 41_encoder.md R123: CASE_A flushes pending literals, then counts 8 zeros. -/
def Obligations.CaseAFlushesLiteralsAndCountsZeros : Prop :=
  ∀ s : State, CanFlushLiterals s →
    exec .encCaseA s = .next { s.afterLiterals with zc := s.zc + 8, it := s.it + 8 }

/-- 41_encoder.md R124: CASE_B classifies the layout of m; flushes literals when a zero run is pending or begins; counts the k
leading zeros and flushes the zeros; then the run of r literals is pending. -/
def Obligations.CaseBFlushesAndStartsLiterals : Prop :=
  ∀ s : State, CanCaseB s → exec .encCaseB s = .next s.afterCaseB

/-- 41_encoder.md R125: CASE_C flushes pending zeros, then 8 more literals are pending. -/
def Obligations.CaseCFlushesZerosAndExtendsLiterals : Prop :=
  ∀ s : State, CanFlushZeros s → exec .encCaseC s = .next { s.afterZeros with
    uPtr := if s.uc = 0 then s.it else s.uPtr, uc := s.uc + 8, it := s.it + 8 }

/-- 41_encoder.md R127 and R128: the two tail steps. -/
def Obligations.TailStepsCountOneByte : Prop :=
  ∀ s : State,
    (CanFlushLiterals s →
      exec .encTailZero s = .next { s.afterLiterals with zc := s.zc + 1, it := s.it + 1 }) ∧
    (CanFlushZeros s → exec .encTailNonzero s = .next { s.afterZeros with
      uPtr := if s.uc = 0 then s.it else s.uPtr, uc := s.uc + 1, it := s.it + 1 })

/-- 41_encoder.md R129: ENC_FINAL flushes literals, then zeros, and goes on to the fallback decision. -/
def Obligations.EncFinalFlushesWhatIsPending : Prop :=
  ∀ s : State, CanFlushLiterals s → CanFlushZeros s.afterLiterals →
    exec .encFinal s = .next { s.afterLiterals.afterZeros with phase := .encFallback }

/-- 41_encoder.md R132 and R134: ENC_FALLBACK writes the header with the verbatim flag and the n input bytes; OUT_LEN is 8 + n,
STATUS is DONE with VERB; of OUT only what lies beyond the result may differ besides (20_memory.md R58). -/
def Obligations.FallbackWritesTheVerbatimFrame : Prop :=
  ∀ s : State, s.n.toNat < 2 ^ 63 → s.n.toNat ≤ s.inSize.toNat → 8 + s.n.toNat ≤ s.outSize.toNat →
    ∃ t, exec .encFallback s = .next t ∧
      t = { s with
        phase := .done, status := { busy := false, done := true, err := .none, verb := true }, outLen := t.outLen,
        outMem := t.outMem, outLost := t.outLost } ∧
      t.outLen.toNat = 8 + s.n.toNat ∧
      t.outBytes 0 (8 + s.n.toNat) = bytesLE (s.n.toNat + 2 ^ 63) 8 ++ s.inBytes 0 s.n.toNat

/-- 41_encoder.md R133 and R134: ENC_NO_FALLBACK ends with OUT_LEN = dst and VERB = 0, and ENC_DONE ends with OUT_LEN and VERB as
they stand; the result OUT[0..OUT_LEN) is not changed, and nothing but OUT beyond it is (20_memory.md R58). -/
def Obligations.EncodeEndsKeepTheResult : Prop :=
  ∀ s : State,
    (∃ t, exec .encNoFallback s = .next t ∧
      t = { s with
        phase := .done, status := { busy := false, done := true, err := .none, verb := false }, outLen := s.dst,
        outMem := t.outMem, outLost := t.outLost } ∧
      ∀ a, a < s.dst.toNat → t.outByte a = s.outByte a) ∧
    (∃ t, exec .encDone s = .next t ∧
      t = { s with
        phase := .done, status := { busy := false, done := true, err := .none, verb := s.status.verb },
        outMem := t.outMem, outLost := t.outLost } ∧
      ∀ a, a < s.outLen.toNat → t.outByte a = s.outByte a)

/-- The frame of the encoder's storing steps (41_encoder.md R123 to R129; 42_emission.md R160): which registers each may change, and
that OUT changes only between the old and the new `dst`. -/
def Obligations.EncoderStepsStoreOnlyAtDst : Prop :=
  ∀ s t : State,
    (exec .flushZeros s = .next t → t = { s with outMem := t.outMem, dst := t.dst, zc := t.zc }) ∧
    (exec .flushLiterals s = .next t → t = { s with outMem := t.outMem, dst := t.dst, uc := t.uc, uPtr := t.uPtr }) ∧
    (∀ i ∈ [Instr.encCaseA, .encCaseC, .encTailZero, .encTailNonzero], exec i s = .next t →
      t = { s with outMem := t.outMem, dst := t.dst, uc := t.uc, uPtr := t.uPtr, zc := t.zc, it := t.it }) ∧
    (exec .encCaseB s = .next t → t = { s with
      outMem := t.outMem, dst := t.dst, uc := t.uc, uPtr := t.uPtr, zc := t.zc, it := t.it, l := t.l, k := t.k, r := t.r }) ∧
    (exec .encWord s = .next t → t = { s with
      outMem := t.outMem, dst := t.dst, uc := t.uc, uPtr := t.uPtr, zc := t.zc, it := t.it, l := t.l, k := t.k, r := t.r,
      w := t.w, m := t.m }) ∧
    (exec .encFinal s = .next t → t = { s with
      outMem := t.outMem, dst := t.dst, uc := t.uc, uPtr := t.uPtr, zc := t.zc, phase := .encFallback }) ∧
    (∀ i ∈ [Instr.flushZeros, .flushLiterals, .encCaseA, .encCaseB, .encCaseC, .encTailZero, .encTailNonzero, .encWord,
        .encFinal], exec i s = .next t →
      s.dst.toNat ≤ t.dst.toNat ∧ ∀ a, a < s.dst.toNat ∨ t.dst.toNat ≤ a → t.outByte a = s.outByte a)

/-! ## Decoder -/

/-- 43_decoder.md R180 and R182: DEC_HEADER raises INVALID_FRAME when fewer than 8 bytes are there and CAPACITY when N exceeds
OUT_SIZE, and otherwise takes flag and N, sets the cursors and enters the body's phase. That an error puts hflag, hN, ip and op
back (60_exceptions.md R245) by way of the field `before` is the model's reading, log 20. -/
def Obligations.DecHeaderTakesFlagAndLength : Prop :=
  ∀ s : State,
    let h := leNat (s.inBytes 0 8)
    let flag := decide (2 ^ 63 ≤ h)
    let len := BitVec.ofNat 64 (h % 2 ^ 63)
    (s.inLen.toNat < 8 → exec .decHeader s = .next (s.failed .invalidFrame)) ∧
    (8 ≤ s.inLen.toNat → 8 ≤ s.inSize.toNat → s.outSize.toNat < h % 2 ^ 63 →
      exec .decHeader s = .next (s.failed .capacity)) ∧
    (8 ≤ s.inLen.toNat → 8 ≤ s.inSize.toNat → h % 2 ^ 63 ≤ s.outSize.toNat → exec .decHeader s = .next { s with
      hflag := flag, hN := len, ip := 8, op := 0, phase := if flag then .decVerbatim else .decBody })

/-- A header with V = 0 enters the control-byte loop with its N (30_encoding.md R60; 43_decoder.md R180, R184), or raises CAPACITY
(R182). What the row HDR_COMPRESSED does as an instruction is the model's reading, log 14, and what an error puts back is by
log 20. -/
def Obligations.CompressedHeaderEntersTheBody : Prop :=
  ∀ (len : BitVec 63) (s : State),
    (len.toNat ≤ s.outSize.toNat → exec (.hdrCompressed len) s = .next { s with
      hflag := false, hN := len.setWidth 64, ip := 8, op := 0, phase := .decBody }) ∧
    (s.outSize.toNat < len.toNat → exec (.hdrCompressed len) s = .next (s.failed .capacity))

/-- 43_decoder.md R183 and R191: a verbatim header copies the N bytes after it to OUT and ends with OUT_LEN = N and VERB = 1;
fewer than N bytes raise INVALID_FRAME before any write, and an N beyond OUT_SIZE raises CAPACITY first (R182). That the row
HDR_VERBATIM also takes the header is the model's reading, log 14, and what an error puts back is by log 20. -/
def Obligations.VerbatimHeaderCopiesTheBody : Prop :=
  ∀ (len : BitVec 63) (s : State),
    (len.toNat ≤ s.outSize.toNat → 8 + len.toNat ≤ s.inLen.toNat → 8 + len.toNat ≤ s.inSize.toNat →
      exec (.hdrVerbatim len) s = .next { s with
        hflag := true, hN := len.setWidth 64, ip := 8 + len.setWidth 64, op := len.setWidth 64,
        outMem := s.outMem.writeBytes 0 (s.inBytes 8 len.toNat), outLen := len.setWidth 64,
        phase := .done, status := { busy := false, done := true, err := .none, verb := true } }) ∧
    (len.toNat ≤ s.outSize.toNat → s.inLen.toNat < 8 + len.toNat →
      exec (.hdrVerbatim len) s = .next (s.failed .invalidFrame)) ∧
    (s.outSize.toNat < len.toNat → exec (.hdrVerbatim len) s = .next (s.failed .capacity))

/-- 43_decoder.md R185 and R186, once the control byte and the length are read: both literal forms copy their payload, of any
length the form can state, and advance both cursors; a payload cut short, then an output beyond N, raises INVALID_FRAME. -/
def Obligations.LiteralSegmentsCopyTheirPayload : Prop :=
  ∀ (i : Instr) (c : Nat) (s : State),
    ((∃ x : BitVec 16, i = .litLong x ∧ c = x.toNat) ∨ (∃ x : BitVec 7, i = .litShort x ∧ c = x.toNat)) →
    (s.ip.toNat + c ≤ s.inLen.toNat → s.op.toNat + c ≤ s.hN.toNat → s.inLen.toNat ≤ s.inSize.toNat →
      s.hN.toNat ≤ s.outSize.toNat → exec i s = .next { s with
        outMem := s.outMem.writeBytes s.op.toNat (s.inBytes s.ip.toNat c),
        ip := s.ip + BitVec.ofNat 64 c, op := s.op + BitVec.ofNat 64 c }) ∧
    (s.inLen.toNat < s.ip.toNat + c ∨ s.hN.toNat < s.op.toNat + c → exec i s = raiseInBody .invalidFrame s)

/-- 43_decoder.md R187, R188 and R192, once the control byte and the length are read: both zero forms write their zero bytes and
advance the output cursor; an output beyond N raises INVALID_FRAME. -/
def Obligations.ZeroSegmentsWriteZeroBytes : Prop :=
  ∀ (i : Instr) (c : Nat) (s : State),
    ((∃ x : BitVec 16, i = .zrunLong x ∧ c = x.toNat) ∨ (∃ x : BitVec 7, i = .zrunShort x ∧ c = x.toNat)) →
    (s.op.toNat + c ≤ s.hN.toNat → s.hN.toNat ≤ s.outSize.toNat → exec i s = .next { s with
      outMem := s.outMem.writeBytes s.op.toNat (List.replicate c 0), op := s.op + BitVec.ofNat 64 c }) ∧
    (s.hN.toNat < s.op.toNat + c → exec i s = raiseInBody .invalidFrame s)

/-- 43_decoder.md R189 and R191: DEC_CHECK ends the decode without error when op = N, and raises INVALID_FRAME otherwise; DEC_DONE
gives OUT_LEN = N and VERB = the flag read. -/
def Obligations.DecCheckAcceptsExactlyN : Prop :=
  ∀ s : State,
    let ended : State := { s with
      phase := .done, outLen := s.hN, status := { busy := false, done := true, err := .none, verb := s.hflag } }
    (s.op = s.hN → exec .decCheck s = .next ended) ∧
    (s.op ≠ s.hN → exec .decCheck s = raiseInBody .invalidFrame s) ∧
    exec .decDone s = .next ended

/-- 60_exceptions.md R245 and 20_memory.md R59: an error of a running decode ends it at once; STATUS holds the code, OUT_LEN is 0,
hflag, hN, ip and op are as they were before the command, and IN and every other register are unchanged; OUT is unchanged if
nothing was written and otherwise outside OUT[0..N). Seen from the command, whatever the error and after however many steps: no
state but phase, STATUS, OUT_LEN and OUT differs from the state before it, and OUT differs after an INVALID_FRAME only. The field
`before`, which holds what is put back, is the model's own (log 20), and that nothing was written while op = 0 is log 8. -/
def Obligations.ErrorEndsTheOperation : Prop :=
  (∀ (e : ErrCode) (s : State), ∃ t, raiseInBody e s = .next t ∧
    t = { s.failed e with outMem := t.outMem, outLost := t.outLost } ∧
    (s.op = 0 → ∀ a, t.outByte a = s.outByte a) ∧
    (∀ a, s.hN.toNat ≤ a → t.outByte a = s.outByte a)) ∧
  (∀ (ign : BitVec 56) (s s₁ t : State) (k : Nat), s.host = [] → s.status.busy = false →
    exec (.cmdCompress ign) s = .next s₁ ∨ exec (.cmdDecompress ign) s = .next s₁ →
    Sys2Proof.core.run k s₁ = .next t → t.status.done = true → t.status.err ≠ .none →
      t = { s with
        phase := .done, status := { busy := false, done := true, err := t.status.err, verb := false }, outLen := 0,
        outMem := t.outMem, outLost := t.outLost, before := t.before } ∧
      (t.status.err ≠ .invalidFrame → ∀ a, t.outByte a = s.outByte a))

/-- 43_decoder.md R194, and the frame of the four segment forms: OUT at or beyond N keeps its contents; where the segment is
executed, only ip, op and the bytes it produces change; where it fails, what R245 says (the field `before` is the model's own,
log 20). -/
def Obligations.DecoderWritesOnlyItsOutput : Prop :=
  (∀ (i : Instr) (c : Nat) (s t : State),
    ((∃ x : BitVec 16, (i = .litLong x ∨ i = .zrunLong x) ∧ c = x.toNat) ∨
      (∃ x : BitVec 7, (i = .litShort x ∨ i = .zrunShort x) ∧ c = x.toNat)) →
    exec i s = .next t →
    (t = { s with ip := t.ip, op := t.op, outMem := t.outMem } ∧
      ∀ a, a < s.op.toNat ∨ s.op.toNat + c ≤ a → t.outByte a = s.outByte a) ∨
    t = { s.failed .invalidFrame with outMem := t.outMem, outLost := t.outLost }) ∧
  (∀ s t : State, DecodeInv s → s.host = [] → s.phase = .decVerbatim ∨ s.phase = .decBody ∨ s.phase = .decCheck →
    step s = .next t → ∀ a, s.hN.toNat ≤ a → t.outByte a = s.outByte a)

/-! ## The machine -/

/-- A step in DEC_BODY runs the instruction its bytes decode to, past the control byte and its length bytes (43_decoder.md R184);
a length cut short by IN_LEN raises INVALID_FRAME (R185, R187, first check). That the step, not the meaning, reads the length
bytes is the model's reading, log 17. -/
def Obligations.StepRunsTheDecodedControlByte : Prop :=
  ∀ s : State, s.host = [] → s.phase = .decBody → s.inLen.toNat ≤ s.inSize.toNat →
    (∀ (i : Instr) (rest : List Byte), s.ip.toNat < s.inLen.toNat →
      decode .body (s.inBytes s.ip.toNat (s.inLen.toNat - s.ip.toNat)) = .ok (i, rest) →
      step s = exec i { s with ip := s.ip + BitVec.ofNat 64 (s.inLen.toNat - s.ip.toNat - rest.length) }) ∧
    (decode .body (s.inBytes s.ip.toNat (s.inLen.toNat - s.ip.toNat)) = .error .lengthTruncated →
      step s = raiseInBody .invalidFrame { s with ip := s.ip + 1 }) ∧
    (s.inLen.toNat ≤ s.ip.toNat → step s = .next { s with phase := .decCheck })

/-- A step of the core in each other phase runs the phase's operation; the guards of ENC_MAIN and ENC_TAIL and the fallback
decision are those of 41_encoder.md R121, R126 and R131, and in IDLE and DONE nothing changes (60_exceptions.md R254). That a step
is one transition of the reference decomposition is the model's choice, log 2, and that the step in DEC_VERBATIM runs the row
HDR_VERBATIM, which takes the header again, is the model's reading, log 14. -/
def Obligations.StepRunsThePhaseOperation : Prop :=
  ∀ s : State, s.host = [] →
    (s.phase = .idle ∨ s.phase = .done → step s = .next s) ∧
    (s.phase = .encMain → s.it.toNat + 8 ≤ s.n.toNat → step s = exec .encWord s) ∧
    (s.phase = .encMain → s.n.toNat < s.it.toNat + 8 → step s = .next { s with phase := .encTail }) ∧
    (s.phase = .encTail → s.it.toNat < s.n.toNat → s.it.toNat < s.inSize.toNat →
      step s = if s.inByte s.it.toNat = 0 then exec .encTailZero s else exec .encTailNonzero s) ∧
    (s.phase = .encTail → s.n.toNat ≤ s.it.toNat → step s = .next { s with phase := .encFinal }) ∧
    (s.phase = .encFinal → step s = exec .encFinal s) ∧
    (s.phase = .encFallback → s.n.toNat < s.dst.toNat → step s = exec .encFallback s) ∧
    (s.phase = .encFallback → s.dst.toNat ≤ s.n.toNat → step s = exec .encNoFallback s) ∧
    (s.phase = .decHeader → step s = exec .decHeader s) ∧
    (s.phase = .decVerbatim → step s = exec (.hdrVerbatim (s.hN.extractLsb' 0 63)) s) ∧
    (s.phase = .decCheck → step s = exec .decCheck s)

/-- A step with a host move pending (log 4) makes that move and leaves the rest of the host's moves (10_state.md R10; 44_commands.md R210,
R216 to R218): a register access is the instruction it decodes to; `pass` and, while BUSY, `wait` let the core step. -/
def Obligations.StepMakesTheHostMove : Prop :=
  ∀ (s : State) (rest : List HostMove) (i v : Word),
    let t : State := { s with host := rest }
    (s.host = .writeReg i v :: rest → step s = exec (decodeRegWrite i v) t) ∧
    (s.host = .readReg i :: rest → step s = exec (.readRegister i) t) ∧
    (s.host = .pass :: rest → step s = coreStep t) ∧
    (s.host = .wait :: rest → s.status.busy = true → step s = coreStep s) ∧
    (s.host = .wait :: rest → s.status.busy = false → step s = .next t)

/-- A host access of IN or OUT while BUSY = 1 is a move the model does not give the host (20_memory.md R52, U8; log 10); otherwise
it stores the bytes, or returns the byte, and changes nothing else. -/
def Obligations.HostMemoryMovesNeedAnIdleCore : Prop :=
  ∀ (s : State) (rest : List HostMove) (a : Word) (bs : List Byte),
    let t : State := { s with host := rest }
    (∀ mv ∈ [HostMove.writeIn a bs, .readIn a, .writeOut a bs, .readOut a], s.host = mv :: rest → s.status.busy = true →
      step s = .refused .hostMemoryWhileBusy) ∧
    (s.host = .writeIn a bs :: rest → s.status.busy = false → a.toNat + bs.length ≤ s.inSize.toNat →
      ∃ u, step s = .next u ∧ u = { t with inMem := u.inMem } ∧ u.inBytes a.toNat bs.length = bs ∧
        ∀ x, x < a.toNat ∨ a.toNat + bs.length ≤ x → u.inByte x = s.inByte x) ∧
    (s.host = .writeOut a bs :: rest → s.status.busy = false → a.toNat + bs.length ≤ s.outSize.toNat →
      ∃ u, step s = .next u ∧ u = { t with outMem := u.outMem } ∧ u.outBytes a.toNat bs.length = bs ∧
        ∀ x, x < a.toNat ∨ a.toNat + bs.length ≤ x → u.outByte x = s.outByte x) ∧
    (s.host = .readIn a :: rest → s.status.busy = false → a.toNat < s.inSize.toNat →
      step s = .next { t with readData := (s.inByte a.toNat).setWidth 64 }) ∧
    (s.host = .readOut a :: rest → s.status.busy = false → a.toNat < s.outSize.toNat →
      step s = .next { t with readData := (s.outByte a.toNat).setWidth 64 })

/-- 10_state.md R24: the values after reset that the spec gives, for memories of any size; IN and OUT are not known. -/
def Obligations.PowerOnStateHoldsTheResetValues : Prop :=
  ∀ inSize outSize : Word,
    let s := State.powerOn inSize outSize
    (s.inSize = inSize ∧ s.outSize = outSize) ∧
    (∀ i : Word, s.readReg i = 0) ∧ s.phase = .idle ∧
    s.it = 0 ∧ s.ip = 0 ∧ s.n = 0 ∧ s.dst = 0 ∧ s.zc = 0 ∧ s.uc = 0 ∧ s.uPtr = 0 ∧ s.hN = 0 ∧ s.hflag = false ∧ s.op = 0 ∧
    (∀ a, s.inMem.read a = none ∧ s.outMem.read a = none)

/-- 70_reset_and_hazards.md R270 (and R271): a reset puts every register and the phase at its reset value at any time; IN is
unchanged; OUT is unchanged too, but for OUT[0..max(8 + 2n, hN)) when an operation was running. The values of the latched
datapath formats after a reset are the model's choice (log 6) and left open here; `readData`, `host` and `before` are the model's own. -/
def Obligations.ResetClearsRegistersAndKeepsMemories : Prop :=
  ∀ (s : State) (rest : List HostMove), s.host = .reset :: rest → ∃ t, step s = .next t ∧
    t = { State.powerOn s.inSize s.outSize with
      inMem := s.inMem, outMem := t.outMem, outLost := t.outLost, readData := s.readData, host := rest,
      w := t.w, m := t.m, l := t.l, k := t.k, r := t.r, before := t.before } ∧
    (∀ a, s.status.busy = false ∨ max (8 + 2 * s.n.toNat) s.hN.toNat ≤ a → t.outByte a = s.outByte a)

/-- 20_memory.md R45: a step of the core never reads IN at an offset at or beyond IN_LEN: with other bytes there, it answers alike and
leaves a state that differs in nothing but those bytes. -/
def Obligations.CoreReadsOnlyItsInput : Prop :=
  ∀ (s t : State) (im : Memory), Invariant s → s.host = [] →
    (∀ a, a < s.inLen.toNat → { s with inMem := im }.inByte a = s.inByte a) →
    step s = .next t → step { s with inMem := im } = .next { t with inMem := im }

/-- The instructions that store nothing leave every byte of IN and OUT (their register effects are stated with each). -/
def Obligations.RegisterOnlyInstructionsKeepMemories : Prop :=
  ∀ (i : Instr) (s t : State) (ign : BitVec 56) (c : Byte) (x v : Word) (len : BitVec 63),
    i ∈ [Instr.cmdNop ign, .cmdDecompress ign, .cmdReserved c ign, .writeInLen v, .readRegister x, .writeIgnored x v,
      .markZeros, .extractMsbs, .classify, .hdrCompressed len, .decHeader, .decDone] →
    exec i s = .next t → t.inMem = s.inMem ∧ ∀ a, t.outByte a = s.outByte a

/-- 20_memory.md R49: a step of the core never writes IN and never reads OUT: whatever OUT holds, it answers alike, leaves a state
that differs in nothing but OUT, and each byte of OUT is then the same whatever OUT held, or is the one that was there before. -/
def Obligations.CoreNeverWritesInNorReadsOut : Prop :=
  ∀ (s : State) (om : Memory) (lost : List (Nat × Nat)), s.host = [] →
    (∀ t, step s = .next t → t.inMem = s.inMem) ∧
    SameButOldOut s { s with outMem := om, outLost := lost } (step s) (step { s with outMem := om, outLost := lost })

/-- The invariant holds in the state after reset. -/
def Obligations.ResetStateMeetsTheInvariant : Prop :=
  Invariant State.reset ∧ ∀ inSize outSize : Word, Invariant (State.powerOn inSize outSize)

/-- Every step, of the core or of the host, keeps the invariant: both memories stay in the canonical form and inside their
sizes (20_memory.md R46), STATUS and OUT_LEN agree with the phase (10_state.md R14, R15, R17), both cursors stay within their
bounds (R18), at most one count is pending (41_encoder.md R135) and the pending literals end at `it` (R136). -/
def Obligations.EveryStepKeepsTheInvariant : Prop :=
  ∀ s t : State, Invariant s → step s = .next t → Invariant t

/-- From a state that meets the invariant no step faults and none is refused, whatever the host does that the spec lets it do: the
core never accesses IN or OUT where there is nothing (20_memory.md R45, R46). -/
def Obligations.InvariantStatesAlwaysStep : Prop :=
  ∀ s : State, Invariant s → HostAllowed s → ∃ t, step s = .next t

/-- An encode whose start checks pass ends, within IN_LEN + 4 steps (41_encoder.md R137), and its result is the frame of its
input: the maximal runs written in order (R139), stored verbatim when the whole frame would be longer than the input (R131 to
R134), whatever OUT or any register held before (R142). -/
def Obligations.EncodeProducesTheFrame : Prop :=
  ∀ (s : State) (ign : BitVec 56), s.host = [] → s.status.busy = false → s.inLen.toNat < 2 ^ 63 →
    s.inLen.toNat ≤ s.inSize.toNat → 8 + 2 * s.inLen.toNat ≤ s.outSize.toNat →
    let input := s.inBytes 0 s.inLen.toNat
    ∃ s₁ t k, exec (.cmdCompress ign) s = .next s₁ ∧ k ≤ s.inLen.toNat + 4 ∧ Sys2Proof.core.run k s₁ = .next t ∧
      t.phase = .done ∧ t.status = { busy := false, done := true, err := .none, verb := fallsBack input } ∧
      t.outLen.toNat = (frameOf input).length ∧ t.outBytes 0 t.outLen.toNat = frameOf input ∧
      t.outLen.toNat ≤ 8 + s.inLen.toNat

/-- A decode whose IN_LEN fits IN ends, within IN_LEN + 4 steps (43_decoder.md R196): without error exactly when the frame is
well-formed (R190), with N in OUT_LEN, the flag in VERB and the bytes the frame stands for in OUT (R191, R193); with CAPACITY when N exceeds
OUT_SIZE (R182), and with INVALID_FRAME otherwise; OUT at or beyond N is kept (R194). -/
def Obligations.DecodeProducesTheContent : Prop :=
  ∀ (s : State) (ign : BitVec 56), s.host = [] → s.status.busy = false → s.inLen.toNat ≤ s.inSize.toNat →
    let frame := s.inBytes 0 s.inLen.toNat
    ∃ s₁ t k, exec (.cmdDecompress ign) s = .next s₁ ∧ k ≤ s.inLen.toNat + 4 ∧ Sys2Proof.core.run k s₁ = .next t ∧
      t.phase = .done ∧ t.status.busy = false ∧ t.status.done = true ∧
      (8 ≤ frame.length → s.outSize.toNat < frameLength frame →
        t.status.err = .capacity ∧ t.status.verb = false ∧ t.outLen = 0) ∧
      (frame.length < 8 ∨ frameLength frame ≤ s.outSize.toNat → contentOf frame = none →
        t.status.err = .invalidFrame ∧ t.status.verb = false ∧ t.outLen = 0) ∧
      (∀ bs, frameLength frame ≤ s.outSize.toNat → contentOf frame = some bs →
        t.status.err = .none ∧ t.status.verb = frameFlag frame ∧ t.outLen.toNat = frameLength frame ∧
        t.outBytes 0 t.outLen.toNat = bs) ∧
      (8 ≤ frame.length → ∀ a, frameLength frame ≤ a → t.outByte a = s.outByte a)

/-- 41_encoder.md R143: for every input that fits the capacities, a DECOMPRESS of the frame a COMPRESS wrote, copied to IN by the
host (70_reset_and_hazards.md R278), ends without error and gives the input back. -/
def Obligations.DecompressOfCompressIsTheInput : Prop :=
  ∀ (s : State) (ign : BitVec 56), s.host = [] → s.status.busy = false → s.inLen.toNat < 2 ^ 63 →
    s.inLen.toNat ≤ s.inSize.toNat → 8 + 2 * s.inLen.toNat ≤ s.outSize.toNat →
    ∃ s₁ t, exec (.cmdCompress ign) s = .next s₁ ∧ EndsIn s₁ t ∧ t.status.err = .none ∧
      ∀ (u : State) (ign' : BitVec 56), u.host = [] → u.status.busy = false → u.inLen = t.outLen →
        u.inLen.toNat ≤ u.inSize.toNat → s.inLen.toNat ≤ u.outSize.toNat →
        u.inBytes 0 u.inLen.toNat = t.outBytes 0 t.outLen.toNat →
        ∃ u₁ v, exec (.cmdDecompress ign') u = .next u₁ ∧ EndsIn u₁ v ∧ v.status.err = .none ∧ v.outLen = s.inLen ∧
          v.outBytes 0 v.outLen.toNat = s.inBytes 0 s.inLen.toNat
end

