-- ==== Sys2Proof/Laws/Memory.lean ====
section
/-! SUPPORT. The laws of memory: a read after a write, what a write and a forget leave alone, and that every memory operation
keeps the canonical form. -/

namespace Sys2Proof.Machine.Memory

/-! ### Reading after an operation -/

theorem read_write (mem : Memory) (a x : Nat) (b : Byte) :
    (mem.write a b).read x = if x = a then some b else mem.read x := by
  induction mem with
  | nil => simp only [write, read]; split <;> simp_all [eq_comm]
  | cons c rest ih =>
    simp only [write]
    split
    · simp only [read]; split <;> simp_all [eq_comm]
    · split
      · simp only [read]; split <;> simp_all [eq_comm]
      · simp only [read, ih]
        by_cases hx : x = a
        · subst hx; simp_all
        · simp [hx]

@[simp] theorem read_write_same (mem : Memory) (a : Nat) (b : Byte) : (mem.write a b).read a = some b := by
  simp [read_write]

theorem read_write_other (mem : Memory) {a x : Nat} (b : Byte) (h : x ≠ a) : (mem.write a b).read x = mem.read x := by
  simp [read_write, h]

/-- A byte string written from `a` on is what reads from `a` on; every other offset reads as before. -/
theorem read_writeBytes (mem : Memory) (a : Nat) (bs : List Byte) (x : Nat) :
    (mem.writeBytes a bs).read x = if a ≤ x ∧ x < a + bs.length then bs[x - a]? else mem.read x := by
  induction bs generalizing mem a with
  | nil =>
    have : ¬(a ≤ x ∧ x < a) := by omega
    simp [writeBytes, this]
  | cons b bs ih =>
    simp only [writeBytes, ih, read_write, List.length_cons]
    by_cases h1 : a + 1 ≤ x ∧ x < a + 1 + bs.length
    · have h2 : a ≤ x ∧ x < a + (bs.length + 1) := by omega
      have h3 : x - a = (x - (a + 1)) + 1 := by omega
      rw [if_pos h1, if_pos h2, h3, List.getElem?_cons_succ]
    · rw [if_neg h1]
      by_cases hx : x = a
      · subst hx
        have h2 : x ≤ x ∧ x < x + (bs.length + 1) := by omega
        simp
      · have h2 : ¬(a ≤ x ∧ x < a + (bs.length + 1)) := by omega
        simp [hx, h2]

theorem read_writeBytes_outside (mem : Memory) {a : Nat} {bs : List Byte} {x : Nat} (h : x < a ∨ a + bs.length ≤ x) :
    (mem.writeBytes a bs).read x = mem.read x := by
  rw [read_writeBytes, if_neg (by omega)]

theorem read_forget (mem : Memory) (lo hi x : Nat) :
    (mem.forget lo hi).read x = if lo ≤ x ∧ x < hi then none else mem.read x := by
  induction mem with
  | nil => simp [forget, read]
  | cons c rest ih =>
    simp only [forget, List.filter_cons]
    simp only [forget] at ih
    split
    · rename_i h
      simp only [read, ih]
      by_cases hc : c.1 = x
      · subst hc; simp at h; simp only [if_true]; rw [if_neg (by omega)]
      · simp [hc]
    · rename_i h
      rw [ih]
      simp at h
      by_cases hc : c.1 = x
      · subst hc; simp [h]
      · simp [read, hc]

/-! ### The canonical form -/

theorem wf_iff (mem : Memory) : mem.wf = true ↔ mem.Pairwise (fun c d => c.1 < d.1) := by
  induction mem with
  | nil => simp [wf]
  | cons c rest ih =>
    cases rest with
    | nil => simp [wf]
    | cons d rest =>
      simp only [wf, Bool.and_eq_true, decide_eq_true_eq, ih, List.pairwise_cons]
      constructor
      · rintro ⟨hcd, hd, hrest⟩
        refine ⟨?_, hd, hrest⟩
        intro e he
        rcases List.mem_cons.1 he with rfl | he
        · exact hcd
        · exact lt_trans hcd (hd e he)
      · rintro ⟨hc, hd, hrest⟩
        exact ⟨hc d (by simp), hd, hrest⟩

theorem mem_write {mem : Memory} {a : Nat} {b : Byte} {c : Host.Cell} (h : c ∈ mem.write a b) : c = (a, b) ∨ c ∈ mem := by
  induction mem with
  | nil => simpa [write] using h
  | cons d rest ih =>
    simp only [write] at h
    split at h
    · simpa using h
    · split at h
      · simp only [List.mem_cons] at h ⊢; tauto
      · simp only [List.mem_cons] at h ⊢
        rcases h with rfl | h
        · tauto
        · have := ih h; tauto

/-- A write keeps the canonical form. -/
theorem write_wf {mem : Memory} (a : Nat) (b : Byte) (h : mem.wf = true) : (mem.write a b).wf = true := by
  rw [wf_iff] at h ⊢
  induction mem with
  | nil => simp [write]
  | cons d rest ih =>
    rw [List.pairwise_cons] at h
    simp only [write]
    split
    · rename_i had
      rw [List.pairwise_cons]
      refine ⟨?_, List.pairwise_cons.2 h⟩
      intro e he
      rcases List.mem_cons.1 he with rfl | he
      · exact had
      · exact lt_trans had (h.1 e he)
    · split
      · rename_i hda
        rw [List.pairwise_cons]
        exact ⟨fun e he => hda ▸ h.1 e he, h.2⟩
      · rename_i had hda
        rw [List.pairwise_cons]
        refine ⟨?_, ih h.2⟩
        intro e he
        rcases mem_write he with rfl | he
        · show d.1 < a; omega
        · exact h.1 e he

theorem writeBytes_wf {mem : Memory} (a : Nat) (bs : List Byte) (h : mem.wf = true) : (mem.writeBytes a bs).wf = true := by
  induction bs generalizing mem a with
  | nil => exact h
  | cons b bs ih => exact ih (a + 1) (write_wf a b h)

theorem forget_wf {mem : Memory} (lo hi : Nat) (h : mem.wf = true) : (mem.forget lo hi).wf = true := by
  rw [wf_iff] at h ⊢
  exact h.filter _

/-- In the canonical form a byte of memory is listed exactly where it is known. -/
theorem read_eq_some_iff {mem : Memory} (h : mem.wf = true) (a : Nat) (b : Byte) :
    mem.read a = some b ↔ (a, b) ∈ mem := by
  rw [wf_iff] at h
  induction mem with
  | nil => simp [read]
  | cons c rest ih =>
    rw [List.pairwise_cons] at h
    obtain ⟨x, y⟩ := c
    simp only [read, List.mem_cons, Prod.mk.injEq]
    by_cases hc : x = a
    · subst hc
      constructor
      · intro hb; simp at hb; exact Or.inl ⟨rfl, hb.symm⟩
      · rintro (⟨_, rfl⟩ | hm)
        · simp
        · exact absurd (h.1 _ hm) (by simp)
    · rw [if_neg hc, ih h.2]
      constructor
      · exact Or.inr
      · rintro (⟨rfl, _⟩ | hm)
        · exact absurd rfl hc
        · exact hm

/-- Equal memories are equal data: two memories in the canonical form that read alike are the same list. -/
theorem ext_of_read {m₁ m₂ : Memory} (h₁ : m₁.wf = true) (h₂ : m₂.wf = true) (h : ∀ a, m₁.read a = m₂.read a) :
    m₁ = m₂ := by
  have hmem : ∀ c : Host.Cell, c ∈ m₁ ↔ c ∈ m₂ := by
    rintro ⟨a, b⟩
    rw [← read_eq_some_iff h₁, ← read_eq_some_iff h₂, h a]
  rw [wf_iff] at h₁ h₂
  have d₁ : m₁.Nodup := h₁.imp (fun hlt => by rintro rfl; exact lt_irrefl _ hlt)
  have d₂ : m₂.Nodup := h₂.imp (fun hlt => by rintro rfl; exact lt_irrefl _ hlt)
  have hp : m₁.Perm m₂ := (List.perm_ext_iff_of_nodup d₁ d₂).2 hmem
  exact List.Perm.eq_of_pairwise (fun a b _ _ hab hba => absurd hab (not_lt_of_gt hba)) h₁ h₂ hp

/-! ### Staying inside a memory of a size -/

theorem write_within {mem : Memory} {size a : Nat} {b : Byte} (h : mem.within size = true) (ha : a < size) :
    (mem.write a b).within size = true := by
  simp only [within, List.all_eq_true, decide_eq_true_eq] at h ⊢
  intro c hc
  rcases mem_write hc with rfl | hc
  · exact ha
  · exact h c hc

theorem writeBytes_within {mem : Memory} {size a : Nat} {bs : List Byte} (h : mem.within size = true)
    (ha : bs = [] ∨ a + bs.length ≤ size) : (mem.writeBytes a bs).within size = true := by
  induction bs generalizing mem a with
  | nil => exact h
  | cons b bs ih =>
    simp only [reduceCtorEq, List.length_cons, false_or] at ha
    exact ih (write_within h (by omega)) (Or.inr (by omega))

theorem forget_within {mem : Memory} {size : Nat} (lo hi : Nat) (h : mem.within size = true) :
    (mem.forget lo hi).within size = true := by
  simp only [within, List.all_eq_true, decide_eq_true_eq] at h ⊢
  intro c hc
  exact h c (List.mem_of_mem_filter hc)

end Sys2Proof.Machine.Memory
end

