-- ==== Sys2Proof/Laws/State.lean ====
section
/-! SUPPORT. What each named update of State does to each field, true by unfolding, so that no later proof unfolds a
record update; and what the updates leave of the machine's views of IN, OUT and the registers. -/

namespace Sys2Proof.Machine.State

/-! ### enter -/

@[simp] theorem enter_inSize (s : State) (p : Phase) : (s.enter p).inSize = s.inSize := rfl
@[simp] theorem enter_outSize (s : State) (p : Phase) : (s.enter p).outSize = s.outSize := rfl
@[simp] theorem enter_inLen (s : State) (p : Phase) : (s.enter p).inLen = s.inLen := rfl
@[simp] theorem enter_status (s : State) (p : Phase) : (s.enter p).status = s.status := rfl
@[simp] theorem enter_outLen (s : State) (p : Phase) : (s.enter p).outLen = s.outLen := rfl
@[simp] theorem enter_phase (s : State) (p : Phase) : (s.enter p).phase = p := rfl
@[simp] theorem enter_it (s : State) (p : Phase) : (s.enter p).it = s.it := rfl
@[simp] theorem enter_ip (s : State) (p : Phase) : (s.enter p).ip = s.ip := rfl
@[simp] theorem enter_n (s : State) (p : Phase) : (s.enter p).n = s.n := rfl
@[simp] theorem enter_dst (s : State) (p : Phase) : (s.enter p).dst = s.dst := rfl
@[simp] theorem enter_zc (s : State) (p : Phase) : (s.enter p).zc = s.zc := rfl
@[simp] theorem enter_uc (s : State) (p : Phase) : (s.enter p).uc = s.uc := rfl
@[simp] theorem enter_uPtr (s : State) (p : Phase) : (s.enter p).uPtr = s.uPtr := rfl
@[simp] theorem enter_hN (s : State) (p : Phase) : (s.enter p).hN = s.hN := rfl
@[simp] theorem enter_hflag (s : State) (p : Phase) : (s.enter p).hflag = s.hflag := rfl
@[simp] theorem enter_op (s : State) (p : Phase) : (s.enter p).op = s.op := rfl
@[simp] theorem enter_w (s : State) (p : Phase) : (s.enter p).w = s.w := rfl
@[simp] theorem enter_m (s : State) (p : Phase) : (s.enter p).m = s.m := rfl
@[simp] theorem enter_l (s : State) (p : Phase) : (s.enter p).l = s.l := rfl
@[simp] theorem enter_k (s : State) (p : Phase) : (s.enter p).k = s.k := rfl
@[simp] theorem enter_r (s : State) (p : Phase) : (s.enter p).r = s.r := rfl
@[simp] theorem enter_inMem (s : State) (p : Phase) : (s.enter p).inMem = s.inMem := rfl
@[simp] theorem enter_outMem (s : State) (p : Phase) : (s.enter p).outMem = s.outMem := rfl
@[simp] theorem enter_outLost (s : State) (p : Phase) : (s.enter p).outLost = s.outLost := rfl
@[simp] theorem enter_readData (s : State) (p : Phase) : (s.enter p).readData = s.readData := rfl
@[simp] theorem enter_before (s : State) (p : Phase) : (s.enter p).before = s.before := rfl
@[simp] theorem enter_host (s : State) (p : Phase) : (s.enter p).host = s.host := rfl

/-! ### accept -/

@[simp] theorem accept_inSize (s : State) : (s.accept).inSize = s.inSize := rfl
@[simp] theorem accept_outSize (s : State) : (s.accept).outSize = s.outSize := rfl
@[simp] theorem accept_inLen (s : State) : (s.accept).inLen = s.inLen := rfl
@[simp] theorem accept_status (s : State) : (s.accept).status = { busy := true, done := false, err := .none, verb := false } := rfl
@[simp] theorem accept_outLen (s : State) : (s.accept).outLen = 0 := rfl
@[simp] theorem accept_phase (s : State) : (s.accept).phase = s.phase := rfl
@[simp] theorem accept_it (s : State) : (s.accept).it = s.it := rfl
@[simp] theorem accept_ip (s : State) : (s.accept).ip = s.ip := rfl
@[simp] theorem accept_n (s : State) : (s.accept).n = s.n := rfl
@[simp] theorem accept_dst (s : State) : (s.accept).dst = s.dst := rfl
@[simp] theorem accept_zc (s : State) : (s.accept).zc = s.zc := rfl
@[simp] theorem accept_uc (s : State) : (s.accept).uc = s.uc := rfl
@[simp] theorem accept_uPtr (s : State) : (s.accept).uPtr = s.uPtr := rfl
@[simp] theorem accept_hN (s : State) : (s.accept).hN = s.hN := rfl
@[simp] theorem accept_hflag (s : State) : (s.accept).hflag = s.hflag := rfl
@[simp] theorem accept_op (s : State) : (s.accept).op = s.op := rfl
@[simp] theorem accept_w (s : State) : (s.accept).w = s.w := rfl
@[simp] theorem accept_m (s : State) : (s.accept).m = s.m := rfl
@[simp] theorem accept_l (s : State) : (s.accept).l = s.l := rfl
@[simp] theorem accept_k (s : State) : (s.accept).k = s.k := rfl
@[simp] theorem accept_r (s : State) : (s.accept).r = s.r := rfl
@[simp] theorem accept_inMem (s : State) : (s.accept).inMem = s.inMem := rfl
@[simp] theorem accept_outMem (s : State) : (s.accept).outMem = s.outMem := rfl
@[simp] theorem accept_outLost (s : State) : (s.accept).outLost = s.outLost := rfl
@[simp] theorem accept_readData (s : State) : (s.accept).readData = s.readData := rfl
@[simp] theorem accept_before (s : State) : (s.accept).before = s.decodeRegs := rfl
@[simp] theorem accept_host (s : State) : (s.accept).host = s.host := rfl

/-! ### close -/

@[simp] theorem close_inSize (s : State) (e : ErrCode) (v : Bool) (len : Word) : (s.close e v len).inSize = s.inSize := rfl
@[simp] theorem close_outSize (s : State) (e : ErrCode) (v : Bool) (len : Word) : (s.close e v len).outSize = s.outSize := rfl
@[simp] theorem close_inLen (s : State) (e : ErrCode) (v : Bool) (len : Word) : (s.close e v len).inLen = s.inLen := rfl
@[simp] theorem close_status (s : State) (e : ErrCode) (v : Bool) (len : Word) : (s.close e v len).status = { busy := false, done := true, err := e, verb := v } := rfl
@[simp] theorem close_outLen (s : State) (e : ErrCode) (v : Bool) (len : Word) : (s.close e v len).outLen = len := rfl
@[simp] theorem close_phase (s : State) (e : ErrCode) (v : Bool) (len : Word) : (s.close e v len).phase = .done := rfl
@[simp] theorem close_it (s : State) (e : ErrCode) (v : Bool) (len : Word) : (s.close e v len).it = s.it := rfl
@[simp] theorem close_ip (s : State) (e : ErrCode) (v : Bool) (len : Word) : (s.close e v len).ip = s.ip := rfl
@[simp] theorem close_n (s : State) (e : ErrCode) (v : Bool) (len : Word) : (s.close e v len).n = s.n := rfl
@[simp] theorem close_dst (s : State) (e : ErrCode) (v : Bool) (len : Word) : (s.close e v len).dst = s.dst := rfl
@[simp] theorem close_zc (s : State) (e : ErrCode) (v : Bool) (len : Word) : (s.close e v len).zc = s.zc := rfl
@[simp] theorem close_uc (s : State) (e : ErrCode) (v : Bool) (len : Word) : (s.close e v len).uc = s.uc := rfl
@[simp] theorem close_uPtr (s : State) (e : ErrCode) (v : Bool) (len : Word) : (s.close e v len).uPtr = s.uPtr := rfl
@[simp] theorem close_hN (s : State) (e : ErrCode) (v : Bool) (len : Word) : (s.close e v len).hN = s.hN := rfl
@[simp] theorem close_hflag (s : State) (e : ErrCode) (v : Bool) (len : Word) : (s.close e v len).hflag = s.hflag := rfl
@[simp] theorem close_op (s : State) (e : ErrCode) (v : Bool) (len : Word) : (s.close e v len).op = s.op := rfl
@[simp] theorem close_w (s : State) (e : ErrCode) (v : Bool) (len : Word) : (s.close e v len).w = s.w := rfl
@[simp] theorem close_m (s : State) (e : ErrCode) (v : Bool) (len : Word) : (s.close e v len).m = s.m := rfl
@[simp] theorem close_l (s : State) (e : ErrCode) (v : Bool) (len : Word) : (s.close e v len).l = s.l := rfl
@[simp] theorem close_k (s : State) (e : ErrCode) (v : Bool) (len : Word) : (s.close e v len).k = s.k := rfl
@[simp] theorem close_r (s : State) (e : ErrCode) (v : Bool) (len : Word) : (s.close e v len).r = s.r := rfl
@[simp] theorem close_inMem (s : State) (e : ErrCode) (v : Bool) (len : Word) : (s.close e v len).inMem = s.inMem := rfl
@[simp] theorem close_outMem (s : State) (e : ErrCode) (v : Bool) (len : Word) : (s.close e v len).outMem = s.outMem := rfl
@[simp] theorem close_outLost (s : State) (e : ErrCode) (v : Bool) (len : Word) : (s.close e v len).outLost = s.outLost := rfl
@[simp] theorem close_readData (s : State) (e : ErrCode) (v : Bool) (len : Word) : (s.close e v len).readData = s.readData := rfl
@[simp] theorem close_before (s : State) (e : ErrCode) (v : Bool) (len : Word) : (s.close e v len).before = s.before := rfl
@[simp] theorem close_host (s : State) (e : ErrCode) (v : Bool) (len : Word) : (s.close e v len).host = s.host := rfl

/-! ### storeOut -/

@[simp] theorem storeOut_inSize (s : State) (a : Nat) (bs : List Byte) : (s.storeOut a bs).inSize = s.inSize := rfl
@[simp] theorem storeOut_outSize (s : State) (a : Nat) (bs : List Byte) : (s.storeOut a bs).outSize = s.outSize := rfl
@[simp] theorem storeOut_inLen (s : State) (a : Nat) (bs : List Byte) : (s.storeOut a bs).inLen = s.inLen := rfl
@[simp] theorem storeOut_status (s : State) (a : Nat) (bs : List Byte) : (s.storeOut a bs).status = s.status := rfl
@[simp] theorem storeOut_outLen (s : State) (a : Nat) (bs : List Byte) : (s.storeOut a bs).outLen = s.outLen := rfl
@[simp] theorem storeOut_phase (s : State) (a : Nat) (bs : List Byte) : (s.storeOut a bs).phase = s.phase := rfl
@[simp] theorem storeOut_it (s : State) (a : Nat) (bs : List Byte) : (s.storeOut a bs).it = s.it := rfl
@[simp] theorem storeOut_ip (s : State) (a : Nat) (bs : List Byte) : (s.storeOut a bs).ip = s.ip := rfl
@[simp] theorem storeOut_n (s : State) (a : Nat) (bs : List Byte) : (s.storeOut a bs).n = s.n := rfl
@[simp] theorem storeOut_dst (s : State) (a : Nat) (bs : List Byte) : (s.storeOut a bs).dst = s.dst := rfl
@[simp] theorem storeOut_zc (s : State) (a : Nat) (bs : List Byte) : (s.storeOut a bs).zc = s.zc := rfl
@[simp] theorem storeOut_uc (s : State) (a : Nat) (bs : List Byte) : (s.storeOut a bs).uc = s.uc := rfl
@[simp] theorem storeOut_uPtr (s : State) (a : Nat) (bs : List Byte) : (s.storeOut a bs).uPtr = s.uPtr := rfl
@[simp] theorem storeOut_hN (s : State) (a : Nat) (bs : List Byte) : (s.storeOut a bs).hN = s.hN := rfl
@[simp] theorem storeOut_hflag (s : State) (a : Nat) (bs : List Byte) : (s.storeOut a bs).hflag = s.hflag := rfl
@[simp] theorem storeOut_op (s : State) (a : Nat) (bs : List Byte) : (s.storeOut a bs).op = s.op := rfl
@[simp] theorem storeOut_w (s : State) (a : Nat) (bs : List Byte) : (s.storeOut a bs).w = s.w := rfl
@[simp] theorem storeOut_m (s : State) (a : Nat) (bs : List Byte) : (s.storeOut a bs).m = s.m := rfl
@[simp] theorem storeOut_l (s : State) (a : Nat) (bs : List Byte) : (s.storeOut a bs).l = s.l := rfl
@[simp] theorem storeOut_k (s : State) (a : Nat) (bs : List Byte) : (s.storeOut a bs).k = s.k := rfl
@[simp] theorem storeOut_r (s : State) (a : Nat) (bs : List Byte) : (s.storeOut a bs).r = s.r := rfl
@[simp] theorem storeOut_inMem (s : State) (a : Nat) (bs : List Byte) : (s.storeOut a bs).inMem = s.inMem := rfl
@[simp] theorem storeOut_outMem (s : State) (a : Nat) (bs : List Byte) : (s.storeOut a bs).outMem = s.outMem.writeBytes a bs := rfl
@[simp] theorem storeOut_outLost (s : State) (a : Nat) (bs : List Byte) : (s.storeOut a bs).outLost = s.outLost := rfl
@[simp] theorem storeOut_readData (s : State) (a : Nat) (bs : List Byte) : (s.storeOut a bs).readData = s.readData := rfl
@[simp] theorem storeOut_before (s : State) (a : Nat) (bs : List Byte) : (s.storeOut a bs).before = s.before := rfl
@[simp] theorem storeOut_host (s : State) (a : Nat) (bs : List Byte) : (s.storeOut a bs).host = s.host := rfl

/-! ### storeIn -/

@[simp] theorem storeIn_inSize (s : State) (a : Nat) (bs : List Byte) : (s.storeIn a bs).inSize = s.inSize := rfl
@[simp] theorem storeIn_outSize (s : State) (a : Nat) (bs : List Byte) : (s.storeIn a bs).outSize = s.outSize := rfl
@[simp] theorem storeIn_inLen (s : State) (a : Nat) (bs : List Byte) : (s.storeIn a bs).inLen = s.inLen := rfl
@[simp] theorem storeIn_status (s : State) (a : Nat) (bs : List Byte) : (s.storeIn a bs).status = s.status := rfl
@[simp] theorem storeIn_outLen (s : State) (a : Nat) (bs : List Byte) : (s.storeIn a bs).outLen = s.outLen := rfl
@[simp] theorem storeIn_phase (s : State) (a : Nat) (bs : List Byte) : (s.storeIn a bs).phase = s.phase := rfl
@[simp] theorem storeIn_it (s : State) (a : Nat) (bs : List Byte) : (s.storeIn a bs).it = s.it := rfl
@[simp] theorem storeIn_ip (s : State) (a : Nat) (bs : List Byte) : (s.storeIn a bs).ip = s.ip := rfl
@[simp] theorem storeIn_n (s : State) (a : Nat) (bs : List Byte) : (s.storeIn a bs).n = s.n := rfl
@[simp] theorem storeIn_dst (s : State) (a : Nat) (bs : List Byte) : (s.storeIn a bs).dst = s.dst := rfl
@[simp] theorem storeIn_zc (s : State) (a : Nat) (bs : List Byte) : (s.storeIn a bs).zc = s.zc := rfl
@[simp] theorem storeIn_uc (s : State) (a : Nat) (bs : List Byte) : (s.storeIn a bs).uc = s.uc := rfl
@[simp] theorem storeIn_uPtr (s : State) (a : Nat) (bs : List Byte) : (s.storeIn a bs).uPtr = s.uPtr := rfl
@[simp] theorem storeIn_hN (s : State) (a : Nat) (bs : List Byte) : (s.storeIn a bs).hN = s.hN := rfl
@[simp] theorem storeIn_hflag (s : State) (a : Nat) (bs : List Byte) : (s.storeIn a bs).hflag = s.hflag := rfl
@[simp] theorem storeIn_op (s : State) (a : Nat) (bs : List Byte) : (s.storeIn a bs).op = s.op := rfl
@[simp] theorem storeIn_w (s : State) (a : Nat) (bs : List Byte) : (s.storeIn a bs).w = s.w := rfl
@[simp] theorem storeIn_m (s : State) (a : Nat) (bs : List Byte) : (s.storeIn a bs).m = s.m := rfl
@[simp] theorem storeIn_l (s : State) (a : Nat) (bs : List Byte) : (s.storeIn a bs).l = s.l := rfl
@[simp] theorem storeIn_k (s : State) (a : Nat) (bs : List Byte) : (s.storeIn a bs).k = s.k := rfl
@[simp] theorem storeIn_r (s : State) (a : Nat) (bs : List Byte) : (s.storeIn a bs).r = s.r := rfl
@[simp] theorem storeIn_inMem (s : State) (a : Nat) (bs : List Byte) : (s.storeIn a bs).inMem = s.inMem.writeBytes a bs := rfl
@[simp] theorem storeIn_outMem (s : State) (a : Nat) (bs : List Byte) : (s.storeIn a bs).outMem = s.outMem := rfl
@[simp] theorem storeIn_outLost (s : State) (a : Nat) (bs : List Byte) : (s.storeIn a bs).outLost = s.outLost := rfl
@[simp] theorem storeIn_readData (s : State) (a : Nat) (bs : List Byte) : (s.storeIn a bs).readData = s.readData := rfl
@[simp] theorem storeIn_before (s : State) (a : Nat) (bs : List Byte) : (s.storeIn a bs).before = s.before := rfl
@[simp] theorem storeIn_host (s : State) (a : Nat) (bs : List Byte) : (s.storeIn a bs).host = s.host := rfl

/-! ### loseOut -/

@[simp] theorem loseOut_inSize (s : State) (lo hi : Nat) : (s.loseOut lo hi).inSize = s.inSize := rfl
@[simp] theorem loseOut_outSize (s : State) (lo hi : Nat) : (s.loseOut lo hi).outSize = s.outSize := rfl
@[simp] theorem loseOut_inLen (s : State) (lo hi : Nat) : (s.loseOut lo hi).inLen = s.inLen := rfl
@[simp] theorem loseOut_status (s : State) (lo hi : Nat) : (s.loseOut lo hi).status = s.status := rfl
@[simp] theorem loseOut_outLen (s : State) (lo hi : Nat) : (s.loseOut lo hi).outLen = s.outLen := rfl
@[simp] theorem loseOut_phase (s : State) (lo hi : Nat) : (s.loseOut lo hi).phase = s.phase := rfl
@[simp] theorem loseOut_it (s : State) (lo hi : Nat) : (s.loseOut lo hi).it = s.it := rfl
@[simp] theorem loseOut_ip (s : State) (lo hi : Nat) : (s.loseOut lo hi).ip = s.ip := rfl
@[simp] theorem loseOut_n (s : State) (lo hi : Nat) : (s.loseOut lo hi).n = s.n := rfl
@[simp] theorem loseOut_dst (s : State) (lo hi : Nat) : (s.loseOut lo hi).dst = s.dst := rfl
@[simp] theorem loseOut_zc (s : State) (lo hi : Nat) : (s.loseOut lo hi).zc = s.zc := rfl
@[simp] theorem loseOut_uc (s : State) (lo hi : Nat) : (s.loseOut lo hi).uc = s.uc := rfl
@[simp] theorem loseOut_uPtr (s : State) (lo hi : Nat) : (s.loseOut lo hi).uPtr = s.uPtr := rfl
@[simp] theorem loseOut_hN (s : State) (lo hi : Nat) : (s.loseOut lo hi).hN = s.hN := rfl
@[simp] theorem loseOut_hflag (s : State) (lo hi : Nat) : (s.loseOut lo hi).hflag = s.hflag := rfl
@[simp] theorem loseOut_op (s : State) (lo hi : Nat) : (s.loseOut lo hi).op = s.op := rfl
@[simp] theorem loseOut_w (s : State) (lo hi : Nat) : (s.loseOut lo hi).w = s.w := rfl
@[simp] theorem loseOut_m (s : State) (lo hi : Nat) : (s.loseOut lo hi).m = s.m := rfl
@[simp] theorem loseOut_l (s : State) (lo hi : Nat) : (s.loseOut lo hi).l = s.l := rfl
@[simp] theorem loseOut_k (s : State) (lo hi : Nat) : (s.loseOut lo hi).k = s.k := rfl
@[simp] theorem loseOut_r (s : State) (lo hi : Nat) : (s.loseOut lo hi).r = s.r := rfl
@[simp] theorem loseOut_inMem (s : State) (lo hi : Nat) : (s.loseOut lo hi).inMem = s.inMem := rfl
@[simp] theorem loseOut_outMem (s : State) (lo hi : Nat) : (s.loseOut lo hi).outMem = s.outMem.forget lo hi := rfl
@[simp] theorem loseOut_outLost (s : State) (lo hi : Nat) : (s.loseOut lo hi).outLost = (lo, hi) :: s.outLost := rfl
@[simp] theorem loseOut_readData (s : State) (lo hi : Nat) : (s.loseOut lo hi).readData = s.readData := rfl
@[simp] theorem loseOut_before (s : State) (lo hi : Nat) : (s.loseOut lo hi).before = s.before := rfl
@[simp] theorem loseOut_host (s : State) (lo hi : Nat) : (s.loseOut lo hi).host = s.host := rfl

/-! ### restore -/

@[simp] theorem restore_inSize (s : State) : (s.restore).inSize = s.inSize := rfl
@[simp] theorem restore_outSize (s : State) : (s.restore).outSize = s.outSize := rfl
@[simp] theorem restore_inLen (s : State) : (s.restore).inLen = s.inLen := rfl
@[simp] theorem restore_status (s : State) : (s.restore).status = s.status := rfl
@[simp] theorem restore_outLen (s : State) : (s.restore).outLen = s.outLen := rfl
@[simp] theorem restore_phase (s : State) : (s.restore).phase = s.phase := rfl
@[simp] theorem restore_it (s : State) : (s.restore).it = s.it := rfl
@[simp] theorem restore_ip (s : State) : (s.restore).ip = s.before.ip := rfl
@[simp] theorem restore_n (s : State) : (s.restore).n = s.n := rfl
@[simp] theorem restore_dst (s : State) : (s.restore).dst = s.dst := rfl
@[simp] theorem restore_zc (s : State) : (s.restore).zc = s.zc := rfl
@[simp] theorem restore_uc (s : State) : (s.restore).uc = s.uc := rfl
@[simp] theorem restore_uPtr (s : State) : (s.restore).uPtr = s.uPtr := rfl
@[simp] theorem restore_hN (s : State) : (s.restore).hN = s.before.hN := rfl
@[simp] theorem restore_hflag (s : State) : (s.restore).hflag = s.before.hflag := rfl
@[simp] theorem restore_op (s : State) : (s.restore).op = s.before.op := rfl
@[simp] theorem restore_w (s : State) : (s.restore).w = s.w := rfl
@[simp] theorem restore_m (s : State) : (s.restore).m = s.m := rfl
@[simp] theorem restore_l (s : State) : (s.restore).l = s.l := rfl
@[simp] theorem restore_k (s : State) : (s.restore).k = s.k := rfl
@[simp] theorem restore_r (s : State) : (s.restore).r = s.r := rfl
@[simp] theorem restore_inMem (s : State) : (s.restore).inMem = s.inMem := rfl
@[simp] theorem restore_outMem (s : State) : (s.restore).outMem = s.outMem := rfl
@[simp] theorem restore_outLost (s : State) : (s.restore).outLost = s.outLost := rfl
@[simp] theorem restore_readData (s : State) : (s.restore).readData = s.readData := rfl
@[simp] theorem restore_before (s : State) : (s.restore).before = s.before := rfl
@[simp] theorem restore_host (s : State) : (s.restore).host = s.host := rfl

/-- An error right at the acceptance of a command finds the four registers as they were. -/
@[simp] theorem restore_accept (s : State) : s.accept.restore = s.accept := rfl

/-- An error forgets what the decode wrote to the four registers. -/
@[simp] theorem restore_restore (s : State) : s.restore.restore = s.restore := rfl

/-! ### decoding -/

@[simp] theorem decoding_inSize (s : State) (p : Phase) (len : Nat) : (s.decoding p len).inSize = s.inSize := rfl
@[simp] theorem decoding_outSize (s : State) (p : Phase) (len : Nat) : (s.decoding p len).outSize = s.outSize := rfl
@[simp] theorem decoding_inLen (s : State) (p : Phase) (len : Nat) : (s.decoding p len).inLen = BitVec.ofNat 64 len := rfl
@[simp] theorem decoding_status (s : State) (p : Phase) (len : Nat) : (s.decoding p len).status = { busy := true, done := false, err := .none, verb := false } := rfl
@[simp] theorem decoding_outLen (s : State) (p : Phase) (len : Nat) : (s.decoding p len).outLen = 0 := rfl
@[simp] theorem decoding_phase (s : State) (p : Phase) (len : Nat) : (s.decoding p len).phase = p := rfl
@[simp] theorem decoding_it (s : State) (p : Phase) (len : Nat) : (s.decoding p len).it = s.it := rfl
@[simp] theorem decoding_ip (s : State) (p : Phase) (len : Nat) : (s.decoding p len).ip = s.ip := rfl
@[simp] theorem decoding_n (s : State) (p : Phase) (len : Nat) : (s.decoding p len).n = s.n := rfl
@[simp] theorem decoding_dst (s : State) (p : Phase) (len : Nat) : (s.decoding p len).dst = s.dst := rfl
@[simp] theorem decoding_zc (s : State) (p : Phase) (len : Nat) : (s.decoding p len).zc = s.zc := rfl
@[simp] theorem decoding_uc (s : State) (p : Phase) (len : Nat) : (s.decoding p len).uc = s.uc := rfl
@[simp] theorem decoding_uPtr (s : State) (p : Phase) (len : Nat) : (s.decoding p len).uPtr = s.uPtr := rfl
@[simp] theorem decoding_hN (s : State) (p : Phase) (len : Nat) : (s.decoding p len).hN = s.hN := rfl
@[simp] theorem decoding_hflag (s : State) (p : Phase) (len : Nat) : (s.decoding p len).hflag = s.hflag := rfl
@[simp] theorem decoding_op (s : State) (p : Phase) (len : Nat) : (s.decoding p len).op = s.op := rfl
@[simp] theorem decoding_w (s : State) (p : Phase) (len : Nat) : (s.decoding p len).w = s.w := rfl
@[simp] theorem decoding_m (s : State) (p : Phase) (len : Nat) : (s.decoding p len).m = s.m := rfl
@[simp] theorem decoding_l (s : State) (p : Phase) (len : Nat) : (s.decoding p len).l = s.l := rfl
@[simp] theorem decoding_k (s : State) (p : Phase) (len : Nat) : (s.decoding p len).k = s.k := rfl
@[simp] theorem decoding_r (s : State) (p : Phase) (len : Nat) : (s.decoding p len).r = s.r := rfl
@[simp] theorem decoding_inMem (s : State) (p : Phase) (len : Nat) : (s.decoding p len).inMem = s.inMem := rfl
@[simp] theorem decoding_outMem (s : State) (p : Phase) (len : Nat) : (s.decoding p len).outMem = s.outMem := rfl
@[simp] theorem decoding_outLost (s : State) (p : Phase) (len : Nat) : (s.decoding p len).outLost = s.outLost := rfl
@[simp] theorem decoding_readData (s : State) (p : Phase) (len : Nat) : (s.decoding p len).readData = s.readData := rfl
@[simp] theorem decoding_before (s : State) (p : Phase) (len : Nat) : (s.decoding p len).before = s.decodeRegs := rfl
@[simp] theorem decoding_host (s : State) (p : Phase) (len : Nat) : (s.decoding p len).host = .pass :: s.host := rfl

end Sys2Proof.Machine.State

namespace Sys2Proof.Machine

/-! ### addZeros -/

@[simp] theorem addZeros_inSize (c : Word) (s : State) : (addZeros c s).inSize = s.inSize := rfl
@[simp] theorem addZeros_outSize (c : Word) (s : State) : (addZeros c s).outSize = s.outSize := rfl
@[simp] theorem addZeros_inLen (c : Word) (s : State) : (addZeros c s).inLen = s.inLen := rfl
@[simp] theorem addZeros_status (c : Word) (s : State) : (addZeros c s).status = s.status := rfl
@[simp] theorem addZeros_outLen (c : Word) (s : State) : (addZeros c s).outLen = s.outLen := rfl
@[simp] theorem addZeros_phase (c : Word) (s : State) : (addZeros c s).phase = s.phase := rfl
@[simp] theorem addZeros_it (c : Word) (s : State) : (addZeros c s).it = s.it + c := rfl
@[simp] theorem addZeros_ip (c : Word) (s : State) : (addZeros c s).ip = s.ip := rfl
@[simp] theorem addZeros_n (c : Word) (s : State) : (addZeros c s).n = s.n := rfl
@[simp] theorem addZeros_dst (c : Word) (s : State) : (addZeros c s).dst = s.dst := rfl
@[simp] theorem addZeros_zc (c : Word) (s : State) : (addZeros c s).zc = s.zc + c := rfl
@[simp] theorem addZeros_uc (c : Word) (s : State) : (addZeros c s).uc = s.uc := rfl
@[simp] theorem addZeros_uPtr (c : Word) (s : State) : (addZeros c s).uPtr = s.uPtr := rfl
@[simp] theorem addZeros_hN (c : Word) (s : State) : (addZeros c s).hN = s.hN := rfl
@[simp] theorem addZeros_hflag (c : Word) (s : State) : (addZeros c s).hflag = s.hflag := rfl
@[simp] theorem addZeros_op (c : Word) (s : State) : (addZeros c s).op = s.op := rfl
@[simp] theorem addZeros_w (c : Word) (s : State) : (addZeros c s).w = s.w := rfl
@[simp] theorem addZeros_m (c : Word) (s : State) : (addZeros c s).m = s.m := rfl
@[simp] theorem addZeros_l (c : Word) (s : State) : (addZeros c s).l = s.l := rfl
@[simp] theorem addZeros_k (c : Word) (s : State) : (addZeros c s).k = s.k := rfl
@[simp] theorem addZeros_r (c : Word) (s : State) : (addZeros c s).r = s.r := rfl
@[simp] theorem addZeros_inMem (c : Word) (s : State) : (addZeros c s).inMem = s.inMem := rfl
@[simp] theorem addZeros_outMem (c : Word) (s : State) : (addZeros c s).outMem = s.outMem := rfl
@[simp] theorem addZeros_outLost (c : Word) (s : State) : (addZeros c s).outLost = s.outLost := rfl
@[simp] theorem addZeros_readData (c : Word) (s : State) : (addZeros c s).readData = s.readData := rfl
@[simp] theorem addZeros_before (c : Word) (s : State) : (addZeros c s).before = s.before := rfl
@[simp] theorem addZeros_host (c : Word) (s : State) : (addZeros c s).host = s.host := rfl

/-! ### addLiterals -/

@[simp] theorem addLiterals_inSize (c : Word) (s : State) : (addLiterals c s).inSize = s.inSize := rfl
@[simp] theorem addLiterals_outSize (c : Word) (s : State) : (addLiterals c s).outSize = s.outSize := rfl
@[simp] theorem addLiterals_inLen (c : Word) (s : State) : (addLiterals c s).inLen = s.inLen := rfl
@[simp] theorem addLiterals_status (c : Word) (s : State) : (addLiterals c s).status = s.status := rfl
@[simp] theorem addLiterals_outLen (c : Word) (s : State) : (addLiterals c s).outLen = s.outLen := rfl
@[simp] theorem addLiterals_phase (c : Word) (s : State) : (addLiterals c s).phase = s.phase := rfl
@[simp] theorem addLiterals_it (c : Word) (s : State) : (addLiterals c s).it = s.it + c := rfl
@[simp] theorem addLiterals_ip (c : Word) (s : State) : (addLiterals c s).ip = s.ip := rfl
@[simp] theorem addLiterals_n (c : Word) (s : State) : (addLiterals c s).n = s.n := rfl
@[simp] theorem addLiterals_dst (c : Word) (s : State) : (addLiterals c s).dst = s.dst := rfl
@[simp] theorem addLiterals_zc (c : Word) (s : State) : (addLiterals c s).zc = s.zc := rfl
@[simp] theorem addLiterals_uc (c : Word) (s : State) : (addLiterals c s).uc = s.uc + c := rfl
@[simp] theorem addLiterals_uPtr (c : Word) (s : State) : (addLiterals c s).uPtr = if s.uc.toNat = 0 then s.it else s.uPtr := rfl
@[simp] theorem addLiterals_hN (c : Word) (s : State) : (addLiterals c s).hN = s.hN := rfl
@[simp] theorem addLiterals_hflag (c : Word) (s : State) : (addLiterals c s).hflag = s.hflag := rfl
@[simp] theorem addLiterals_op (c : Word) (s : State) : (addLiterals c s).op = s.op := rfl
@[simp] theorem addLiterals_w (c : Word) (s : State) : (addLiterals c s).w = s.w := rfl
@[simp] theorem addLiterals_m (c : Word) (s : State) : (addLiterals c s).m = s.m := rfl
@[simp] theorem addLiterals_l (c : Word) (s : State) : (addLiterals c s).l = s.l := rfl
@[simp] theorem addLiterals_k (c : Word) (s : State) : (addLiterals c s).k = s.k := rfl
@[simp] theorem addLiterals_r (c : Word) (s : State) : (addLiterals c s).r = s.r := rfl
@[simp] theorem addLiterals_inMem (c : Word) (s : State) : (addLiterals c s).inMem = s.inMem := rfl
@[simp] theorem addLiterals_outMem (c : Word) (s : State) : (addLiterals c s).outMem = s.outMem := rfl
@[simp] theorem addLiterals_outLost (c : Word) (s : State) : (addLiterals c s).outLost = s.outLost := rfl
@[simp] theorem addLiterals_readData (c : Word) (s : State) : (addLiterals c s).readData = s.readData := rfl
@[simp] theorem addLiterals_before (c : Word) (s : State) : (addLiterals c s).before = s.before := rfl
@[simp] theorem addLiterals_host (c : Word) (s : State) : (addLiterals c s).host = s.host := rfl

/-! ### resetCore -/

/-- A reset, field by field (70_reset_and_hazards.md R270, R271). -/
theorem State.resetCore_eq (s : State) : s.resetCore = { State.powerOn s.inSize s.outSize with
    inMem := s.inMem
    outMem := if s.status.busy then s.outMem.forget 0 (max (8 + 2 * s.n.toNat) s.hN.toNat) else s.outMem
    outLost := if s.status.busy then (0, max (8 + 2 * s.n.toNat) s.hN.toNat) :: s.outLost else s.outLost
    readData := s.readData
    host := s.host } := by
  cases h : s.status.busy <;> simp [State.resetCore, h]

end Sys2Proof.Machine
end

