-- ==== Sys2Proof/Laws/Ops.lean ====
section
/-! SUPPORT. One lemma for each shared operation: everything it can do when it answers a next state, and when it does answer
one. Cite these instead of unfolding the operations. -/

namespace Sys2Proof

/-! ### Byte order -/

@[simp] theorem bytesLE_length (v len : Nat) : (bytesLE v len).length = len := by
  induction len generalizing v with
  | zero => rfl
  | succ len ih => simp [bytesLE, ih]

theorem leNat_bytesLE (v len : Nat) : leNat (bytesLE v len) = v % 256 ^ len := by
  induction len generalizing v with
  | zero => simp [bytesLE, leNat, Nat.mod_one]
  | succ len ih =>
    simp only [bytesLE, leNat, ih, BitVec.toNat_ofNat]
    conv_rhs => rw [Nat.pow_succ', Nat.mod_mul]

theorem leNat_lt (bs : List Byte) : leNat bs < 256 ^ bs.length := by
  induction bs with
  | nil => simp [leNat]
  | cons b bs ih =>
    have hb := b.isLt
    simp only [leNat, List.length_cons, Nat.pow_succ]
    omega

theorem bytesLE_leNat (bs : List Byte) : bytesLE (leNat bs) bs.length = bs := by
  induction bs with
  | nil => rfl
  | cons b bs ih =>
    have hb := b.isLt
    have hdiv : (b.toNat + 256 * leNat bs) / 256 = leNat bs := by omega
    simp only [leNat, List.length_cons, bytesLE, hdiv, ih, List.cons.injEq, and_true]
    apply BitVec.eq_of_toNat_eq
    simp only [BitVec.toNat_ofNat]
    omega

namespace Machine

/-! ### Sequencing -/

@[simp] theorem andThen_next (s : State) (f : State → Result) : andThen (.next s) f = f s := rfl
@[simp] theorem andThen_fault (r : Fault) (f : State → Result) : andThen (.fault r) f = .fault r := rfl
@[simp] theorem andThen_refused (r : Refusal) (f : State → Result) : andThen (.refused r) f = .refused r := rfl

theorem andThen_eq_next_iff {o : Result} {f : State → Result} {t : State} :
    andThen o f = .next t ↔ ∃ s, o = .next s ∧ f s = .next t := by
  cases o <;> simp [andThen]

theorem andThen_assoc (o : Result) (f g : State → Result) :
    andThen (andThen o f) g = andThen o fun s => andThen (f s) g := by
  cases o <;> rfl

/-! ### Reading IN -/

theorem fits_iff {size a len : Nat} : fits size a len = true ↔ len = 0 ∨ a + len ≤ size := by
  simp [fits]

@[simp] theorem inBytes_length (s : State) (a len : Nat) : (s.inBytes a len).length = len := by
  induction len generalizing a with
  | zero => rfl
  | succ len ih => simp [State.inBytes, ih]

theorem inBytes_getElem? (s : State) (a len i : Nat) :
    (s.inBytes a len)[i]? = if i < len then some (s.inByte (a + i)) else none := by
  induction len generalizing a i with
  | zero => simp [State.inBytes]
  | succ len ih =>
    cases i with
    | zero => simp [State.inBytes]
    | succ i => simp [State.inBytes, ih, Nat.add_comm, Nat.add_left_comm]

theorem inBytes_append (s : State) (a len₁ len₂ : Nat) :
    s.inBytes a (len₁ + len₂) = s.inBytes a len₁ ++ s.inBytes (a + len₁) len₂ := by
  induction len₁ generalizing a with
  | zero => simp [State.inBytes]
  | succ len₁ ih => simp [State.inBytes, ih, Nat.add_right_comm, Nat.add_assoc]

/-- Bytes of IN depend on IN alone. -/
theorem inBytes_congr {s t : State} (h : t.inMem = s.inMem) (a len : Nat) : t.inBytes a len = s.inBytes a len := by
  induction len generalizing a with
  | zero => rfl
  | succ len ih => simp [State.inBytes, State.inByte, h, ih]

theorem readIn_eq_some_iff {s : State} {a len : Nat} {bs : List Byte} :
    s.readIn a len = some bs ↔ (len = 0 ∨ a + len ≤ s.inSize.toNat) ∧ bs = s.inBytes a len := by
  rw [← fits_iff, State.readIn]
  by_cases h : fits s.inSize.toNat a len = true
  · simp [h, eq_comm]
  · simp [h]

theorem withIn_eq_next_iff {s t : State} {a len : Nat} {f : List Byte → Result} :
    withIn a len s f = .next t ↔ (len = 0 ∨ a + len ≤ s.inSize.toNat) ∧ f (s.inBytes a len) = .next t := by
  rw [← fits_iff, withIn, State.readIn]
  split <;> rename_i h <;> split at h <;> simp_all

theorem withIn_of_fits {s : State} {a len : Nat} (f : List Byte → Result) (h : len = 0 ∨ a + len ≤ s.inSize.toNat) :
    withIn a len s f = f (s.inBytes a len) := by
  simp [withIn, State.readIn, fits_iff.2 h]

/-! ### Writing OUT -/

theorem putOut_eq_next_iff {s t : State} {a : Nat} {bs : List Byte} :
    putOut a bs s = .next t ↔ (bs = [] ∨ a + bs.length ≤ s.outSize.toNat) ∧ t = s.storeOut a bs := by
  have h : (bs = [] ∨ a + bs.length ≤ s.outSize.toNat) ↔ fits s.outSize.toNat a bs.length = true := by
    simp [fits_iff]
  rw [h]
  by_cases hf : fits s.outSize.toNat a bs.length = true
  · simp [putOut, hf, eq_comm]
  · simp [putOut, hf]

theorem putOut_of_fits {s : State} {a : Nat} {bs : List Byte} (h : bs = [] ∨ a + bs.length ≤ s.outSize.toNat) :
    putOut a bs s = .next (s.storeOut a bs) := putOut_eq_next_iff.2 ⟨h, rfl⟩

theorem emit_eq_next_iff {s t : State} {bs : List Byte} :
    emit bs s = .next t ↔ (bs = [] ∨ s.dst.toNat + bs.length ≤ s.outSize.toNat) ∧
      t = { s.storeOut s.dst.toNat bs with dst := s.dst + BitVec.ofNat 64 bs.length } := by
  simp only [emit, andThen_eq_next_iff, putOut_eq_next_iff]
  constructor
  · rintro ⟨u, ⟨hfit, rfl⟩, hu⟩
    exact ⟨hfit, by simpa using hu.symm⟩
  · rintro ⟨hfit, rfl⟩
    exact ⟨_, ⟨hfit, rfl⟩, rfl⟩

/-- What a stored byte string reads as, and that every other byte of OUT reads as before. -/
theorem outByte_storeOut (s : State) (a : Nat) (bs : List Byte) (x : Nat) :
    (s.storeOut a bs).outByte x = if a ≤ x ∧ x < a + bs.length then bs[x - a]?.getD 0 else s.outByte x := by
  simp only [State.outByte, State.outGeneration, State.storeOut_outMem, State.storeOut_outLost, Memory.read_writeBytes]
  split
  · rename_i h
    have hlt : x - a < bs.length := by omega
    simp [hlt]
  · rfl

theorem outByte_storeOut_outside {s : State} {a : Nat} {bs : List Byte} {x : Nat} (h : x < a ∨ a + bs.length ≤ x) :
    (s.storeOut a bs).outByte x = s.outByte x := by
  rw [outByte_storeOut, if_neg (by omega)]

/-- A byte outside a range that became 'any value' reads as before. -/
theorem outByte_loseOut_outside {s : State} {lo hi x : Nat} (h : x < lo ∨ hi ≤ x) :
    (s.loseOut lo hi).outByte x = s.outByte x := by
  have hr : ¬(lo ≤ x ∧ x < hi) := by omega
  have hg : (s.loseOut lo hi).outGeneration x = s.outGeneration x := by
    simp only [State.outGeneration, State.loseOut_outLost, List.filter_cons]
    rw [if_neg (by simpa using hr)]
  simp only [State.outByte, hg, State.loseOut_outMem, Memory.read_forget, if_neg hr]

/-- Bytes of OUT depend on OUT alone. -/
theorem outByte_congr {s t : State} (hm : t.outMem = s.outMem) (hl : t.outLost = s.outLost) (x : Nat) :
    t.outByte x = s.outByte x := by
  simp [State.outByte, State.outGeneration, hm, hl]

@[simp] theorem outBytes_length (s : State) (a len : Nat) : (s.outBytes a len).length = len := by
  induction len generalizing a with
  | zero => rfl
  | succ len ih => simp [State.outBytes, ih]

theorem outBytes_getElem? (s : State) (a len i : Nat) :
    (s.outBytes a len)[i]? = if i < len then some (s.outByte (a + i)) else none := by
  induction len generalizing a i with
  | zero => simp [State.outBytes]
  | succ len ih =>
    cases i with
    | zero => simp [State.outBytes]
    | succ i => simp [State.outBytes, ih, Nat.add_comm, Nat.add_left_comm]

/-! ### Ending an operation -/

theorem raise_eq_next (e : ErrCode) (s : State) : raise e s = .next (s.restore.close e false 0) := rfl

/-- An error of a decode whose header is read always ends the operation; OUT at or beyond N reads as before, and all of OUT
does when nothing was written. -/
theorem raiseInBody_cases (e : ErrCode) (s : State) :
    (s.op.toNat = 0 ∧ raiseInBody e s = .next (s.restore.close e false 0)) ∨
    (s.op.toNat ≠ 0 ∧ raiseInBody e s = .next ((s.loseOut 0 s.hN.toNat).restore.close e false 0)) := by
  unfold raiseInBody
  split <;> rename_i h
  · exact Or.inl ⟨h, rfl⟩
  · exact Or.inr ⟨h, rfl⟩

/-- Everything `takeHeader` does. -/
theorem takeHeader_cases (flag : Bool) (len : BitVec 63) (s : State) :
    (s.outSize.toNat < len.toNat ∧
      takeHeader flag len s = .next (s.restore.close .capacity false 0)) ∨
    (len.toNat ≤ s.outSize.toNat ∧
      takeHeader flag len s = .next { s with
        hflag := flag, hN := len.setWidth 64, ip := 8, op := 0,
        phase := if flag then .decVerbatim else .decBody }) := by
  have hlen : (len.setWidth 64).toNat = len.toNat := by
    have := len.isLt
    simp only [BitVec.toNat_setWidth]
    omega
  simp only [takeHeader, hlen]
  split <;> rename_i h
  · exact Or.inl ⟨h, rfl⟩
  · exact Or.inr ⟨by omega, rfl⟩

/-! ### The emission writer -/

/-- The pieces of a count hold exactly its items. -/
theorem piecesFrom_items {fuel c : Nat} (h : c ≤ fuel) : ((piecesFrom fuel c).map Piece.items).sum = c := by
  induction fuel generalizing c with
  | zero => simp [piecesFrom]; omega
  | succ fuel ih =>
    simp only [piecesFrom]
    split
    · rw [List.map_cons, List.sum_cons, ih (by omega)]; simp only [Piece.items]; omega
    · split
      · simp [Piece.items]
      · split
        · rw [List.map_cons, List.sum_cons, ih (by omega)]; simp only [Piece.items]; omega
        · split
          · simp [Piece.items]
          · simp; omega

theorem pieces_items (c : Nat) : ((pieces c).map Piece.items).sum = c := piecesFrom_items (Nat.le_refl c)

theorem flushZeros_eq_next_iff {s t : State} :
    flushZeros s = .next t ↔
      (encodeBody (writeZeros s.zc.toNat) = [] ∨
        s.dst.toNat + (encodeBody (writeZeros s.zc.toNat)).length ≤ s.outSize.toNat) ∧
      t = { s.storeOut s.dst.toNat (encodeBody (writeZeros s.zc.toNat)) with
        dst := s.dst + BitVec.ofNat 64 (encodeBody (writeZeros s.zc.toNat)).length, zc := 0 } := by
  simp only [flushZeros, andThen_eq_next_iff, emit_eq_next_iff]
  constructor
  · rintro ⟨u, ⟨hfit, rfl⟩, hu⟩
    exact ⟨hfit, by simpa using hu.symm⟩
  · rintro ⟨hfit, rfl⟩
    exact ⟨_, ⟨hfit, rfl⟩, rfl⟩

theorem flushLiterals_eq_next_iff {s t : State} :
    flushLiterals s = .next t ↔
      (s.uc.toNat = 0 ∨ s.uPtr.toNat + s.uc.toNat ≤ s.inSize.toNat) ∧
      (encodeBody (writeLiterals (s.inBytes s.uPtr.toNat s.uc.toNat)) = [] ∨
        s.dst.toNat + (encodeBody (writeLiterals (s.inBytes s.uPtr.toNat s.uc.toNat))).length ≤ s.outSize.toNat) ∧
      t = { s.storeOut s.dst.toNat (encodeBody (writeLiterals (s.inBytes s.uPtr.toNat s.uc.toNat))) with
        dst := s.dst + BitVec.ofNat 64 (encodeBody (writeLiterals (s.inBytes s.uPtr.toNat s.uc.toNat))).length,
        uPtr := s.uPtr + BitVec.ofNat 64 (literalAdvance s.uc.toNat), uc := 0 } := by
  simp only [flushLiterals, withIn_eq_next_iff, andThen_eq_next_iff, emit_eq_next_iff]
  constructor
  · rintro ⟨hin, u, ⟨hfit, rfl⟩, hu⟩
    exact ⟨hin, hfit, by simpa using hu.symm⟩
  · rintro ⟨hin, hfit, rfl⟩
    exact ⟨hin, _, ⟨hfit, rfl⟩, rfl⟩

theorem flushPendingZeros_cases {s t : State} (h : flushPendingZeros s = .next t) :
    (s.zc = 0 ∧ t = s) ∨ (s.zc ≠ 0 ∧ flushZeros s = .next t) := by
  unfold flushPendingZeros at h
  split at h <;> rename_i hz
  · refine Or.inr ⟨?_, h⟩
    intro h0
    rw [h0] at hz
    exact absurd hz (by decide)
  · refine Or.inl ⟨BitVec.eq_of_toNat_eq ?_, by simpa using h.symm⟩
    simpa using hz

theorem flushPendingLiterals_cases {s t : State} (h : flushPendingLiterals s = .next t) :
    (s.uc = 0 ∧ t = s) ∨ (s.uc ≠ 0 ∧ flushLiterals s = .next t) := by
  unfold flushPendingLiterals at h
  split at h <;> rename_i hz
  · refine Or.inr ⟨?_, h⟩
    intro h0
    rw [h0] at hz
    exact absurd hz (by decide)
  · refine Or.inl ⟨BitVec.eq_of_toNat_eq ?_, by simpa using h.symm⟩
    simpa using hz

/-! ### Commands and moves -/

theorem unlessBusy_cases (s : State) (act : State → Result) :
    (s.status.busy = true ∧ unlessBusy s act = .next s) ∨ (s.status.busy = false ∧ unlessBusy s act = act s) := by
  cases h : s.status.busy <;> simp [unlessBusy, h]

theorem whileNotBusy_eq_next_iff {s t : State} {f : Result} :
    whileNotBusy s f = .next t ↔ s.status.busy = false ∧ f = .next t := by
  cases h : s.status.busy <;> simp [whileNotBusy, h]

end Machine

end Sys2Proof
end

