-- ==== Sys2Proof/Laws/Encoder.lean ====
section
/-! SUPPORT. The guarded flushes of 41_encoder.md as total updates of the state, in the words of Safety.lean. -/

namespace Sys2Proof.Machine

/-- A count is zero as a number exactly when it is zero as a word. -/
theorem toNat_eq_zero_iff {width : Nat} (x : BitVec width) : x.toNat = 0 ↔ x = 0 :=
  ⟨fun h => BitVec.eq_of_toNat_eq (by simpa using h), fun h => by simp [h]⟩

theorem zeroBytes_of_zc_eq_zero {s : State} (h : s.zc = 0) : s.zeroBytes = [] := by
  simp [State.zeroBytes, h, writeZeros, pieces, piecesFrom, encodeBody]

theorem literalBytes_of_uc_eq_zero {s : State} (h : s.uc = 0) : s.literalBytes = [] := by
  simp [State.literalBytes, h, State.inBytes, writeLiterals, pieces, piecesFrom, cutLiterals, encodeBody]

/-- With no zeros pending a zero flush changes nothing. -/
theorem afterZeros_of_zc_eq_zero {s : State} (h : s.zc = 0) : s.afterZeros = s := by
  rw [State.afterZeros, zeroBytes_of_zc_eq_zero h]
  cases s
  simp_all [Memory.writeBytes]

/-- With no literals pending a literal flush changes nothing. -/
theorem afterLiterals_of_uc_eq_zero {s : State} (h : s.uc = 0) : s.afterLiterals = s := by
  rw [State.afterLiterals, literalBytes_of_uc_eq_zero h]
  cases s
  simp_all [Memory.writeBytes, literalAdvance, pieces, piecesFrom]

/-- "if zc > 0 : FLUSH_ZEROS", where OUT has room. -/
theorem flushPendingZeros_eq_next {s : State} (h : CanFlushZeros s) : flushPendingZeros s = .next s.afterZeros := by
  unfold flushPendingZeros
  split <;> rename_i hz
  · refine flushZeros_eq_next_iff.2 ⟨?_, rfl⟩
    rcases h with h | h
    · exact .inl (zeroBytes_of_zc_eq_zero h)
    · exact .inr h
  · rw [afterZeros_of_zc_eq_zero ((toNat_eq_zero_iff _).1 (Nat.eq_zero_of_not_pos hz))]

/-- "if uc > 0 : FLUSH_LITERALS", where IN has the literals and OUT has room. -/
theorem flushPendingLiterals_eq_next {s : State} (h : CanFlushLiterals s) :
    flushPendingLiterals s = .next s.afterLiterals := by
  unfold flushPendingLiterals
  split <;> rename_i hz
  · refine flushLiterals_eq_next_iff.2 ⟨?_, ?_, rfl⟩
    · exact h.imp (fun h => by rw [h]; rfl) fun h => h.1
    · exact h.imp (fun h => literalBytes_of_uc_eq_zero h) fun h => h.2
  · rw [afterLiterals_of_uc_eq_zero ((toNat_eq_zero_iff _).1 (Nat.eq_zero_of_not_pos hz))]

end Sys2Proof.Machine
end

