-- ==== Sys2Proof/Laws/Errors.lean ====
section
/-! SUPPORT. What raising an error does, in the words of Safety.lean (60_exceptions.md R245; 20_memory.md R59). -/

namespace Sys2Proof.Machine

/-- Before the first write of OUT. -/
theorem raise_eq_failed (e : ErrCode) (s : State) : raise e s = .next (s.failed e) := rfl

/-- What the steps before the error wrote to the four registers of a decode does not show in the state after it. -/
theorem failed_of_decode_writes (s : State) (e : ErrCode) (ip hN op : Word) (hflag : Bool) :
    ({ s with ip := ip, hN := hN, op := op, hflag := hflag } : State).failed e = s.failed e := rfl

/-- An error right at the acceptance of a command changes phase, STATUS and OUT_LEN only. -/
theorem failed_accept (s : State) (e : ErrCode) : s.accept.failed e = { s with
    phase := .done, status := { busy := false, done := true, err := e, verb := false }, outLen := 0,
    before := s.decodeRegs } := rfl

/-- Everything an error in a decode's body does: only OUT may differ besides, and there only what `loseOut` forgets. -/
theorem raiseInBody_eq_failed (e : ErrCode) (s : State) :
    raiseInBody e s = .next (if s.op.toNat = 0 then s.failed e else (s.loseOut 0 s.hN.toNat).failed e) := by
  unfold raiseInBody
  split <;> rfl

end Sys2Proof.Machine
end

