-- ==== Sys2Proof/Laws/PerInstr.lean ====
section
/-! SUPPORT. Statements made of every instruction as syntax, one lemma for each constructor. -/

namespace Sys2Proof.Laws.EncodingLength

/-- How many bytes an encoding has, by its space: a control byte with or without two length bytes, a header, a register
write, a register read (30_encoding.md R60, R61, R63; 10_state.md R11). -/
def Allowed : Space → Nat → Prop
  | .body, len => len = 1 ∨ len = 3
  | .header, len => len = 8
  | .regWrite, len => len = 16
  | .regRead, len => len = 8

/-- Every encoding of the instruction has a length its space allows. -/
def Statement (i : Instr) : Prop :=
  ∀ (sp : Space) (bs : List Byte), encode i = some (sp, bs) → Allowed sp bs.length

/-- What the statement comes to for an instruction that has an encoding. -/
theorem of_encode {i : Instr} {sp : Space} {bs : List Byte} (h : encode i = some (sp, bs)) (hl : Allowed sp bs.length) :
    Statement i := by
  intro sp' bs' h'
  rw [h] at h'
  cases h'
  exact hl

/-- What the statement comes to for an instruction that has none. -/
theorem of_none {i : Instr} (h : encode i = none) : Statement i := by
  intro sp bs h'
  rw [h] at h'
  cases h'

theorem zrunLong (s : BitVec 16) : Statement (.zrunLong s) := of_encode rfl (by simp [Allowed])
theorem zrunShort (v : BitVec 7) : Statement (.zrunShort v) := of_encode rfl (by simp [Allowed])
theorem litLong (s : BitVec 16) : Statement (.litLong s) := of_encode rfl (by simp [Allowed])
theorem litShort (n : BitVec 7) : Statement (.litShort n) := of_encode rfl (by simp [Allowed])
theorem hdrCompressed (n : BitVec 63) : Statement (.hdrCompressed n) := of_encode rfl (by simp [Allowed])
theorem hdrVerbatim (n : BitVec 63) : Statement (.hdrVerbatim n) := of_encode rfl (by simp [Allowed])
theorem cmdNop (ign : BitVec 56) : Statement (.cmdNop ign) := of_encode rfl (by simp [Allowed, regWriteBytes])
theorem cmdCompress (ign : BitVec 56) : Statement (.cmdCompress ign) := of_encode rfl (by simp [Allowed, regWriteBytes])
theorem cmdDecompress (ign : BitVec 56) : Statement (.cmdDecompress ign) :=
  of_encode rfl (by simp [Allowed, regWriteBytes])
theorem cmdReserved (c : Byte) (ign : BitVec 56) : Statement (.cmdReserved c ign) :=
  of_encode rfl (by simp [Allowed, regWriteBytes])
theorem writeInLen (v : Word) : Statement (.writeInLen v) := of_encode rfl (by simp [Allowed, regWriteBytes])
theorem readRegister (i : Word) : Statement (.readRegister i) := of_encode rfl (by simp [Allowed])
theorem writeIgnored (i v : Word) : Statement (.writeIgnored i v) := of_encode rfl (by simp [Allowed, regWriteBytes])
theorem markZeros : Statement .markZeros := of_none rfl
theorem extractMsbs : Statement .extractMsbs := of_none rfl
theorem classify : Statement .classify := of_none rfl
theorem encStart : Statement .encStart := of_none rfl
theorem encWord : Statement .encWord := of_none rfl
theorem encCaseA : Statement .encCaseA := of_none rfl
theorem encCaseB : Statement .encCaseB := of_none rfl
theorem encCaseC : Statement .encCaseC := of_none rfl
theorem encTailZero : Statement .encTailZero := of_none rfl
theorem encTailNonzero : Statement .encTailNonzero := of_none rfl
theorem encFinal : Statement .encFinal := of_none rfl
theorem encFallback : Statement .encFallback := of_none rfl
theorem encNoFallback : Statement .encNoFallback := of_none rfl
theorem encDone : Statement .encDone := of_none rfl
theorem flushZeros : Statement .flushZeros := of_none rfl
theorem flushLiterals : Statement .flushLiterals := of_none rfl
theorem decHeader : Statement .decHeader := of_none rfl
theorem decCheck : Statement .decCheck := of_none rfl
theorem decDone : Statement .decDone := of_none rfl

end Sys2Proof.Laws.EncodingLength
end

