-- ==== Sys2Proof/Tests/Slice0.lean ====
section
/-! SUPPORT. The model's own tests, with expected results from spec/95_test_vectors.md and the examples of the rules, and one witness
for each statement that has hypotheses. -/

namespace Sys2Proof.Tests

open Sys2Proof Sys2Proof.Machine

/-! ## Helpers -/

/-- What is seen of the next state, if there is one. -/
def see {α : Type} (f : State → α) : Result → Option α
  | .next t => some (f t)
  | .fault _ => none
  | .refused _ => none

/-- An idle machine with these bytes in IN, as many offsets in IN, and IN_LEN set to that number. -/
def machine (input : List Byte) (outSize : Nat) : State :=
  { (State.powerOn (BitVec.ofNat 64 input.length) (BitVec.ofNat 64 outSize)).storeIn 0 input with
    inLen := BitVec.ofNat 64 input.length }

/-- The machine of an encode of these bytes after ENC_START, but for the header in OUT. -/
def encoding (input : List Byte) : State :=
  { (machine input (8 + 2 * input.length)).accept with
    n := BitVec.ofNat 64 input.length, dst := 8, phase := .encMain }

/-- The machine of a decode of this frame in DEC_BODY, with its length N. -/
def body (frame : List Byte) (len : Nat) : State :=
  { (machine frame 64).accept with hN := BitVec.ofNat 64 len, ip := 8, phase := .decBody }

/-- zc, uc, u_ptr, it, dst. -/
def counts (t : State) : List Nat := [t.zc.toNat, t.uc.toNat, t.uPtr.toNat, t.it.toNat, t.dst.toNat]

/-- Phase, STATUS as the host reads it, OUT_LEN. -/
def ending (t : State) : Phase × Nat × Nat := (t.phase, (t.readReg 2).toNat, t.outLen.toNat)

/-- The decoded instruction and how many bytes are left. -/
def decoded (sp : Space) (bs : List Byte) : Option (Instr × Nat) :=
  match decode sp bs with
  | .ok (i, rest) => some (i, rest.length)
  | .error _ => none

/-- Trace T1 of 95_test_vectors.md section 3.1. -/
def t1 : List Byte :=
  [0, 0, 0, 1, 2, 0, 0, 0, 0, 0, 0, 0, 0, 0, 0, 0, 0, 0, 0, 0, 3, 4, 5, 6, 7, 8, 9, 10, 11, 0, 12]

/-! ## WellFormed refuses each kind of ill-formed term (30_encoding.md R62, R66, R71; 44_commands.md R218) -/

theorem test_wf_zrunShort_refuses_zero : (Instr.zrunShort 0).wf = false := by decide
theorem test_wf_litShort_refuses_zero : (Instr.litShort 0).wf = false := by decide
theorem test_wf_cmdReserved_refuses_command : (Instr.cmdReserved 2 0).wf = false := by decide
theorem test_wf_writeIgnored_refuses_inLen : (Instr.writeIgnored 1 7).wf = false := by decide
theorem test_wf_segment_refuses_counts :
    [Segment.zs 0, .zs 128, .zl 65536, .ls []].all (fun g => !g.wf) = true := by decide
theorem test_wf_segment_refuses_long_payloads (p : List Byte) :
    (p.length = 128 → (Segment.ls p).wf = false) ∧ (p.length = 65536 → (Segment.ll p).wf = false) := by
  constructor <;> intro h <;> simp [Segment.wf, h]
theorem test_canonical_refuses_short_long_forms :
    [Segment.zl 0, .zl 254, .ll [], .ll [1, 2]].all (fun g => g.wf && !g.canonical) = true := by decide

/-! ## Decoding words written out from 30_encoding.md R60 to R63, R71 and 10_state.md R11 -/

theorem test_decode_zrunLong : decoded .body [0b00000000, 0xFF, 0x01] = some (.zrunLong 511, 0) := by decide
theorem test_decode_zrunShort : decoded .body [0b01111111, 1] = some (.zrunShort 127, 1) := by decide
theorem test_decode_litLong : decoded .body [0b10000000, 0x03, 0x00, 0xAA] = some (.litLong 3, 1) := by decide
theorem test_decode_litShort : decoded .body [0b11111111] = some (.litShort 127, 0) := by decide
theorem test_decode_hdrCompressed :
    decoded .header [0x00, 0x00, 0x01, 0, 0, 0, 0, 0b00000000] = some (.hdrCompressed 65536, 0) := by decide
theorem test_decode_hdrVerbatim :
    decoded .header [0xFF, 0xFF, 0x01, 0, 0, 0, 0, 0b10000000] = some (.hdrVerbatim 131071, 0) := by decide
theorem test_decode_cmdNop :
    decoded .regWrite [0, 0, 0, 0, 0, 0, 0, 0, 0x00, 0x01, 0, 0, 0, 0, 0, 0] = some (.cmdNop 1, 0) := by decide
theorem test_decode_cmdCompress :
    decoded .regWrite [0, 0, 0, 0, 0, 0, 0, 0, 0x01, 0x01, 0, 0, 0, 0, 0, 0] = some (.cmdCompress 1, 0) := by decide
theorem test_decode_cmdDecompress :
    decoded .regWrite [0, 0, 0, 0, 0, 0, 0, 0, 0x02, 0, 0, 0, 0, 0, 0, 0] = some (.cmdDecompress 0, 0) := by decide
theorem test_decode_cmdReserved :
    decoded .regWrite [0, 0, 0, 0, 0, 0, 0, 0, 0xFF, 0, 0, 0, 0, 0, 0, 0] = some (.cmdReserved 0xFF 0, 0) := by decide
theorem test_decode_writeInLen :
    decoded .regWrite [1, 0, 0, 0, 0, 0, 0, 0, 0x1F, 0, 0, 0, 0, 0, 0, 0x80] =
      some (.writeInLen 0x800000000000001F, 0) := by decide
theorem test_decode_writeIgnored :
    decoded .regWrite [5, 0, 0, 0, 0, 0, 0, 0, 7, 0, 0, 0, 0, 0, 0, 0] = some (.writeIgnored 5 7, 0) := by decide
theorem test_decode_readRegister : decoded .regRead [2, 0, 0, 0, 0, 0, 0, 0] = some (.readRegister 2, 0) := by decide
theorem test_decode_rejects_by_name :
    decode .body [] = .error .noControlByte ∧ decode .body [0x80, 1] = .error .lengthTruncated ∧
    parseSegment [0x82, 1] = .error .payloadTruncated ∧ decode .header [0] = .error .headerTruncated ∧
    decode .regRead [0] = .error .accessTruncated := ⟨rfl, rfl, rfl, rfl, rfl⟩

/-- The notation example of 95_test_vectors.md P2. -/
theorem test_parse_body :
    parseBody [0x00, 3, 0, 0x02, 0x82, 0xAA, 0xBB, 0x80, 0, 0, 0x80, 3, 0, 0xCC, 0xDD, 0xEE] =
      .ok [.zl 3, .zs 2, .ls [0xAA, 0xBB], .ll [], .ll [0xCC, 0xDD, 0xEE]] := rfl

/-! ## The step runs a placed word first after reset -/

theorem test_tableWord_zrunShort : decodeTableWord 8 0x7F = some (.zrunShort 127) := by decide
theorem test_tableWord_litShort : decodeTableWord 8 0x85 = some (.litShort 5) := by decide
theorem test_tableWord_hdrVerbatim : decodeTableWord 64 0x8000000000000003 = some (.hdrVerbatim 3) := by decide
theorem test_step_runs_placed_zrunShort :
    see (fun t => (t.op.toNat, t.outMem)) (step (State.reset.withFetchWord 8 0x03)) =
      some (3, [(0, 0), (1, 0), (2, 0)]) := by decide
theorem test_step_runs_placed_hdrVerbatim :
    see ending (step (State.reset.withFetchWord 64 0x8000000000000000)) = some (.done, 0x22, 0) := by decide
theorem test_step_runs_placed_command :
    see ending (step (State.reset.withFetchWord 72 0x07)) = some (.done, 0x12, 0) := by decide

/-! ## Control bytes (43_decoder.md R185 to R188, their examples; 95_test_vectors.md section 4) -/

theorem test_litLong_copies :
    see (fun t => (t.ip.toNat, t.op.toNat, t.outMem))
      (exec (.litLong 3) { body (List.replicate 8 0 ++ [0x80, 3, 0, 0xAA, 0xBB, 0xCC]) 3 with ip := 11 }) =
      some (14, 3, [(0, 0xAA), (1, 0xBB), (2, 0xCC)]) := by decide
theorem test_litLong_truncated :
    see ending (exec (.litLong 3) { body (List.replicate 8 0 ++ [0x80, 3, 0, 0xAA, 0xBB]) 3 with ip := 11 }) =
      some (.done, 0x06, 0) := by decide
theorem test_litShort_copies :
    see (fun t => (t.ip.toNat, t.op.toNat, t.outMem))
      (exec (.litShort 1) { body (List.replicate 8 0 ++ [0x81, 0xAA]) 4 with ip := 9, op := 3 }) =
      some (10, 4, [(3, 0xAA)]) := by decide
theorem test_litShort_overflows :
    see ending (exec (.litShort 2) { body (List.replicate 8 0 ++ [0x82, 0xAA, 0xBB]) 1 with ip := 9 }) =
      some (.done, 0x06, 0) := by decide
theorem test_zrunLong_writes_zeros :
    see (fun t => (t.ip.toNat, t.op.toNat, t.outMem))
      (exec (.zrunLong 3) { body (List.replicate 8 0 ++ [0, 3, 0]) 3 with ip := 11 }) =
      some (11, 3, [(0, 0), (1, 0), (2, 0)]) := by decide
theorem test_zrunLong_of_zero_is_accepted :
    see (fun t => (t.op.toNat, t.outMem, t.phase)) (exec (.zrunLong 0) { body [] 0 with op := 0 }) =
      some (0, [], .decBody) := by decide
theorem test_zrunShort_writes_zeros :
    see (fun t => (t.op.toNat, t.outMem)) (exec (.zrunShort 2) { body [] 5 with op := 3 }) =
      some (5, [(3, 0), (4, 0)]) := by decide
theorem test_zrunShort_overflow_loses_out :
    see (fun t => (ending t, t.outMem, t.outLost)) (exec (.zrunShort 2) { body [] 4 with op := 3, outMem := [(0, 7), (9, 8)] }) =
      some ((.done, 0x06, 0), [(9, 8)], [(0, 4)]) := by decide
/-- The fetch: `80` with one length byte left (43_decoder.md R185). -/
theorem test_body_step_length_truncated :
    see ending (step (body (List.replicate 8 0 ++ [0x80, 3]) 3)) = some (.done, 0x06, 0) := by decide

/-! ## Frame headers and the decoder (43_decoder.md R180 to R191) -/

theorem test_hdrCompressed_enters_body :
    see (fun t => (t.phase, t.hflag, t.hN.toNat, t.ip.toNat, t.op.toNat)) (exec (.hdrCompressed 5) (machine [] 5)) =
      some (.decBody, false, 5, 8, 0) := by decide
theorem test_hdrVerbatim_copies :
    see (fun t => (ending t, t.outMem)) (exec (.hdrVerbatim 3) (machine [3, 0, 0, 0, 0, 0, 0, 0x80, 0xAA, 0xBB, 0xCC, 0xDD] 3)) =
      some ((.done, 0x22, 3), [(0, 0xAA), (1, 0xBB), (2, 0xCC)]) := by decide
theorem test_hdrVerbatim_truncated :
    see (fun t => (ending t, t.outMem)) (exec (.hdrVerbatim 4) (machine [4, 0, 0, 0, 0, 0, 0, 0x80, 0xAA, 0xBB, 0xCC] 64)) =
      some ((.done, 0x06, 0), []) := by decide
theorem test_decHeader_reads_flag_and_length :
    see (fun t => (t.phase, t.hflag, t.hN.toNat)) (exec .decHeader (machine [3, 1, 0, 0, 0, 0, 0, 0x80] 300)) =
      some (.decVerbatim, true, 259) := by decide
/-- CAPACITY, and no register but phase, STATUS and OUT_LEN differs from before the command (60_exceptions.md R245). -/
theorem test_decHeader_capacity :
    see (fun t => (ending t, t.hflag, [t.ip, t.hN, t.op].map BitVec.toNat))
      (exec .decHeader { machine [0xFF, 0xFF, 0xFF, 0xFF, 0xFF, 0xFF, 0xFF, 0xFF] 100 with ip := 11, hN := 3, op := 2 }.accept) =
      some ((.done, 0x0A, 0), false, [11, 3, 2]) := by decide
theorem test_decCheck_accepts : see ending (exec .decCheck { body [] 3 with op := 3 }) = some (.done, 0x02, 3) := by decide
theorem test_decCheck_rejects_short_body :
    see ending (exec .decCheck { body [] 2 with op := 1 }) = some (.done, 0x06, 0) := by decide
theorem test_decDone_shows_flag :
    see ending (exec .decDone { body [] 7 with hflag := true }) = some (.done, 0x22, 7) := by decide

/-! ## Commands and registers (95_test_vectors.md section 5) -/

theorem test_cmdNop_keeps_status :
    see ending (exec (.cmdNop 1) ((machine [] 8).close .badCommand false 3)) = some (.done, 0x12, 3) := by decide
theorem test_cmdCompress_starts :
    see (fun t => (t.status.busy, counts t, t.phase, t.outMem)) (exec (.cmdCompress 1) (machine [1] 10)) =
      some (true, [0, 0, 0, 0, 8], .encMain,
        [(0, 1), (1, 0), (2, 0), (3, 0), (4, 0), (5, 0), (6, 0), (7, 0)]) := by decide
/-- V6: LENGTH is checked before CAPACITY. -/
theorem test_cmdCompress_length :
    see ending (exec (.cmdCompress 0) { machine [] 8 with inLen := 0x8000000000000000 }) = some (.done, 0x0E, 0) := by decide
theorem test_cmdDecompress_starts :
    see (fun t => (t.status.busy, t.phase, t.outLen.toNat)) (exec (.cmdDecompress 0) { machine [1] 8 with outLen := 9 }) =
      some (true, .decHeader, 0) := by decide
theorem test_cmdDecompress_capacity :
    see ending (exec (.cmdDecompress 0) { machine [1] 8 with inLen := 2 }) = some (.done, 0x0A, 0) := by decide
theorem test_cmdReserved_reports :
    see ending (exec (.cmdReserved 3 0) { machine [1] 8 with outLen := 9 }) = some (.done, 0x12, 9) := by decide
theorem test_writeInLen_sets : see (fun t => t.inLen.toNat) (exec (.writeInLen 31) (machine [] 8)) = some 31 := by decide
theorem test_writeInLen_ignored_while_busy :
    see (fun t => t.inLen.toNat) (exec (.writeInLen 31) (encoding [1, 2])) = some 2 := by decide
theorem test_readRegister_status :
    see (fun t => t.readData.toNat) (exec (.readRegister 2) ((machine [] 8).close .none true 8)) = some 0x22 := by decide
theorem test_readRegister_above_three :
    see (fun t => t.readData.toNat) (exec (.readRegister 5) ((machine [] 8).close .none true 8)) = some 0 := by decide
theorem test_writeIgnored_keeps : see ending (exec (.writeIgnored 3 7) (machine [] 8)) = some (.idle, 0, 0) := by decide

/-! ## Detector, extractor, classifier (95_test_vectors.md sections 2.1 to 2.3) -/

theorem test_markZeros_borrow_case :
    see (fun t => t.m) (exec .markZeros { machine [] 8 with w := 0x0505050505050100 }) = some 0x80 := by decide
theorem test_markZeros_high_bytes :
    see (fun t => t.m) (exec .markZeros { machine [] 8 with w := 0x00FF00FF00FF00FF }) = some 0x8000800080008000 := by decide
theorem test_extractMsbs_legal_mask :
    see (fun t => t.l) (exec .extractMsbs { machine [] 8 with m := 0x8080808080800080 }) = some 0xFD := by decide
theorem test_extractMsbs_other_mask :
    see (fun t => t.l) (exec .extractMsbs { machine [] 8 with m := 0x0101010101010101 }) = some 0xFF := by decide
theorem test_classify_mixed :
    see (fun t => (t.k, t.r)) (exec .classify { machine [] 8 with l := 0x10 }) = some (0, 4) := by decide
theorem test_classify_all_zero :
    see (fun t => (t.k, t.r)) (exec .classify { machine [] 8 with l := 0xFF }) = some (8, 0) := by decide

/-! ## Emission writer (95_test_vectors.md section 2.4) -/

theorem test_flushZeros_two_short :
    see (fun t => (t.zc.toNat, t.dst.toNat, t.outMem)) (exec .flushZeros { encoding t1 with zc := 254 }) =
      some (0, 10, [(8, 0x7F), (9, 0x7F)]) := by decide
theorem test_flushZeros_long :
    see (fun t => (t.zc.toNat, t.dst.toNat, t.outMem)) (exec .flushZeros { encoding t1 with zc := 382 }) =
      some (0, 11, [(8, 0x00), (9, 0x7E), (10, 0x01)]) := by decide
theorem test_writeZeros_thresholds :
    [127, 128, 253, 255].map (fun z => encodeBody (writeZeros z)) =
      [[0x7F], [0x7F, 0x01], [0x7F, 0x7E], [0x00, 0xFF, 0x00]] := by decide
theorem test_flushLiterals_one_short :
    see (fun t => (counts t, t.outMem)) (exec .flushLiterals { encoding t1 with uc := 2, uPtr := 3 }) =
      some ([0, 0, 3, 0, 11], [(8, 0x82), (9, 1), (10, 2)]) := by decide
theorem test_writeLiterals_two_short :
    (encodeBody (writeLiterals (List.replicate 128 9))).drop 127 = [9, 0x81, 9] := by decide +kernel

/-! ## Encoder (95_test_vectors.md section 3.1, trace T1; 41_encoder.md examples) -/

theorem test_encStart_writes_header :
    see (fun t => (counts t, t.n.toNat, t.outMem.take 2)) (exec .encStart (machine t1 70)) =
      some ([0, 0, 0, 0, 8], 31, [(0, 31), (1, 0)]) := by decide
theorem test_encWord_case_b :
    see (fun t => (counts t, [t.l, t.k, t.r], t.outMem)) (exec .encWord (encoding t1)) =
      some ([0, 2, 3, 5, 9], [0xE7, 3, 2], [(8, 3)]) := by decide
theorem test_encWord_case_c :
    see counts (exec .encWord { encoding t1 with it := 21, dst := 13, uc := 1, uPtr := 20 }) =
      some [0, 9, 20, 29, 13] := by decide
theorem test_encCaseA_flushes_literals :
    see (fun t => (counts t, t.outMem)) (exec .encCaseA { encoding t1 with it := 5, dst := 9, uc := 2, uPtr := 3 }) =
      some ([8, 0, 3, 13, 12], [(9, 0x82), (10, 1), (11, 2)]) := by decide
theorem test_encCaseB_flushes_pending_zeros :
    see (fun t => (counts t, t.outMem)) (exec .encCaseB
      { encoding t1 with it := 13, dst := 12, zc := 8, m := 0x0080808080808080 }) =
      some ([0, 1, 20, 21, 13], [(12, 0x0F)]) := by decide
theorem test_encCaseB_extends_literals :
    see counts (exec .encCaseB { encoding t1 with it := 4, uc := 1, uPtr := 3, m := 0x8080808080808000 }) =
      some [0, 2, 3, 5, 8] := by decide
theorem test_encCaseC_flushes_zeros :
    see (fun t => (counts t, t.outMem)) (exec .encCaseC { encoding t1 with it := 21, dst := 12, zc := 8 }) =
      some ([0, 8, 21, 29, 13], [(12, 8)]) := by decide
theorem test_encTailZero_flushes_literals :
    see (fun t => (counts t, t.outMem.length)) (exec .encTailZero { encoding t1 with it := 29, dst := 13, uc := 9, uPtr := 20 }) =
      some ([1, 0, 20, 30, 23], 10) := by decide
theorem test_encTailNonzero_flushes_zeros :
    see (fun t => (counts t, t.outMem)) (exec .encTailNonzero { encoding t1 with it := 30, dst := 23, zc := 1 }) =
      some ([0, 1, 30, 31, 24], [(23, 1)]) := by decide
theorem test_encFinal_flushes :
    see (fun t => (counts t, t.phase, t.outMem)) (exec .encFinal { encoding t1 with it := 31, dst := 24, uc := 1, uPtr := 30 }) =
      some ([0, 0, 30, 31, 26], .encFallback, [(24, 0x81), (25, 0x0C)]) := by decide
theorem test_encFallback_writes_verbatim_frame :
    see (fun t => (ending t, t.outMem.map Prod.snd)) (exec .encFallback { encoding [1, 2, 3] with dst := 12, outMem := [(11, 9)] }) =
      some ((.done, 0x22, 11), [3, 0, 0, 0, 0, 0, 0, 0x80, 1, 2, 3]) := by decide
theorem test_encNoFallback_keeps_frame :
    see (fun t => (ending t, t.outMem)) (exec .encNoFallback { encoding t1 with dst := 26, outMem := [(25, 0x0C), (30, 9)] }) =
      some ((.done, 0x02, 26), [(25, 0x0C)]) := by decide
theorem test_encDone_ends : see ending (exec .encDone { encoding t1 with outLen := 26 }) = some (.done, 0x02, 26) := by decide
/-- The fallback decision counts the header: 9 > 8 (90_conflicts.md C2, C3). -/
theorem test_fallback_step :
    see (fun t => t.status.verb) (step { encoding (List.replicate 8 0) with phase := .encFallback, it := 8, dst := 9 }) =
      some true := by decide

/-! ## The host -/

theorem test_host_writes_in :
    see (fun t => (t.inMem, t.host)) (step { machine [1] 8 with host := [.writeIn 0 [5], .pass] }) =
      some ([(0, 5)], [.pass]) := by decide
theorem test_host_memory_move_refused_while_busy :
    step { encoding [1] with host := [.readOut 0] } = .refused .hostMemoryWhileBusy := rfl
/-- V14. -/
theorem test_host_reset_while_busy :
    see (fun t => (ending t, counts t, [t.outMem, t.inMem]))
      (step { encoding [1] with host := [.reset], outMem := [(9, 1), (10, 2)] }) =
      some ((.idle, 0, 0), [0, 0, 0, 0, 0], [[(10, 2)], [(0, 1)]]) := by decide

/-! ## Witnesses: for each statement with hypotheses, states and operands that meet them, each clause at the ends of its range -/

/-- 2^63 - 1, the greatest length an encode takes. -/
def maxLength : Word := 0x7FFFFFFFFFFFFFFF

theorem witness_EveryControlByteIsAnOpcode :
    (0x00 : Byte).toNat = 0x00 ∧ (0x01 ≤ (0x01 : Byte).toNat ∧ (0x01 : Byte).toNat ≤ 0x7F) ∧
    (0x01 ≤ (0x7F : Byte).toNat ∧ (0x7F : Byte).toNat ≤ 0x7F) ∧ (0x80 : Byte).toNat = 0x80 ∧ 0x81 ≤ (0x81 : Byte).toNat ∧
    0x81 ≤ (0xFF : Byte).toNat := by decide
theorem witness_LongFormLengthIsLittleEndian : ([] : List Byte).length < 2 ∧ [(0 : Byte)].length < 2 := by decide
theorem witness_ControlWriteSelectsCommand :
    (0x100 : Word).toNat % 256 = 0x00 ∧ (0x101 : Word).toNat % 256 = 0x01 ∧ (0x02 : Word).toNat % 256 = 0x02 ∧
    3 ≤ (0x03 : Word).toNat % 256 ∧ 3 ≤ (0xFFFF : Word).toNat % 256 ∧
    (0xAB03 : Word).toNat % 256 = (0x03 : Word).toNat % 256 := by decide
theorem witness_DecodeOfEncodeGivesInstructionBack :
    (Instr.litShort 127).wf = true ∧ encode (.litShort 127) = some (.body, [0xFF]) ∧
    (Instr.hdrVerbatim 0).wf = true ∧ encode (.hdrVerbatim 0) = some (.header, [0, 0, 0, 0, 0, 0, 0, 0x80]) ∧
    (Instr.readRegister 3).wf = true ∧ encode (.readRegister 3) = some (.regRead, [3, 0, 0, 0, 0, 0, 0, 0]) := by decide
theorem witness_EncodeOfDecodeGivesBytesBack :
    decode .body [0x80, 0xFF, 0x01, 7] = .ok (.litLong 511, [7]) ∧
    decode .header [1, 0, 0, 0, 0, 0, 0, 0] = .ok (.hdrCompressed 1, []) := ⟨rfl, rfl⟩
theorem witness_BodiesSplitUniquelyIntoSegments :
    parseBody [0x7F, 0x01] = .ok [.zs 127, .zs 1] ∧ encodeBody [.zs 127, .zs 1] = [0x7F, 0x01] := ⟨rfl, rfl⟩

theorem witness_BusyCoreIgnoresCommandAndLengthWrites : (encoding [1]).status.busy = true := by decide
theorem witness_CompressChecksInOrder_length :
    let s := { machine [] 8 with inLen := maxLength + 1 }
    s.status.busy = false ∧ 2 ^ 63 ≤ s.inLen.toNat := by decide
theorem witness_CompressChecksInOrder_inSize :
    let s := { machine [1] 64 with inLen := 2 }
    s.status.busy = false ∧ s.inLen.toNat < 2 ^ 63 ∧ s.inSize.toNat < s.inLen.toNat := by decide
theorem witness_CompressChecksInOrder_outSize :
    let s := machine [1] 9
    s.status.busy = false ∧ s.inLen.toNat < 2 ^ 63 ∧ s.inLen.toNat ≤ s.inSize.toNat ∧
    s.outSize.toNat < 8 + 2 * s.inLen.toNat := by decide
theorem witness_CompressStartsEncode :
    let s := machine [1] 10
    s.status.busy = false ∧ s.inLen.toNat < 2 ^ 63 ∧ s.inLen.toNat ≤ s.inSize.toNat ∧
    8 + 2 * s.inLen.toNat ≤ s.outSize.toNat := by decide
theorem witness_DecompressStartsDecode :
    (machine [1] 8).status.busy = false ∧ { machine [1] 8 with inLen := 2 }.inLen.toNat > (machine [1] 8).inSize.toNat ∧
    (machine [1] 8).inLen.toNat ≤ (machine [1] 8).inSize.toNat := by decide
theorem witness_ReservedCommandReportsBadCommand :
    3 ≤ (3 : Byte).toNat ∧ 3 ≤ (0xFF : Byte).toNat ∧ (machine [] 8).status.busy = false := by decide
theorem witness_InLenWriteTakesValue : (machine [] 8).status.busy = false := by decide
theorem witness_RegisterReadsReturnTheirFields :
    (0 : Word).toNat = 0 ∧ (1 : Word).toNat = 1 ∧ (2 : Word).toNat = 2 ∧ (3 : Word).toNat = 3 ∧ 4 ≤ (4 : Word).toNat ∧
    4 ≤ (0xFFFFFFFFFFFFFFFF : Word).toNat := by decide
theorem witness_RegisterReadsReturnTheirFields_busy : StatusInv (encoding [7]) ∧ (encoding [7]).status.busy = true := by
  unfold StatusInv; decide
theorem witness_OtherRegisterWritesAreIgnored : 2 ≤ (2 : Word).toNat ∧ 2 ≤ (0xFFFFFFFFFFFFFFFF : Word).toNat := by decide

theorem witness_ExtractMsbsGathersTheLaneMsbs :
    ∀ i < 8, ∀ j < 7, { machine [] 8 with m := 0x8080808080808080 }.m.getLsbD (8 * i + j) = false := by decide
theorem witness_ClassifyCountsLeadingZerosAndRun :
    entryZeros (classEntry 0x7F) = 7 ∧ entryRun (classEntry 0x7F) = 1 ∧
    entryZeros (classEntry 0x10) = 0 ∧ entryRun (classEntry 0x10) = 4 := by decide

theorem witness_FlushZerosAppendsTheRun :
    CanFlushZeros { encoding [1, 2] with zc := 4, dst := 11 } ∧ CanFlushZeros { encoding [] with zc := 0, dst := 20 } := by
  unfold CanFlushZeros; decide
theorem witness_ZeroSegmentsHaveTheirClosedForm : 1 ≤ 1 ∧ 1 ≤ 65536 := by decide
theorem witness_FlushLiteralsAppendsTheRun :
    CanFlushLiterals { encoding [1, 2] with uc := 2, uPtr := 0, dst := 9 } ∧
    CanFlushLiterals { encoding [] with uc := 0, uPtr := 9, dst := 20 } := by
  unfold CanFlushLiterals; decide
theorem witness_LiteralBytesFollowTheThresholds (bs : Nat → List Byte) (h : ∀ len, (bs len).length = len) :
    (bs 0).length = 0 ∧ (1 ≤ (bs 1).length ∧ (bs 127).length ≤ 127) ∧ (128 ≤ (bs 128).length ∧ (bs 254).length ≤ 254) ∧
    (255 ≤ (bs 255).length ∧ (bs 65535).length ≤ 65535) ∧ 65535 < (bs 65536).length := by
  simp [h]
theorem witness_byte_strings_of_every_length : ∀ len, (List.replicate len (1 : Byte)).length = len :=
  fun _ => List.length_replicate
theorem witness_EmittedSegmentsAreCanonical :
    (128 ≤ 128 ∧ 128 ≤ 254) ∧ (128 ≤ 254 ∧ 254 ≤ 254) ∧
    (128 ≤ (List.replicate 128 (1 : Byte)).length ∧ (List.replicate 254 (1 : Byte)).length ≤ 254) := by
  refine ⟨by decide, by decide, ?_⟩
  rw [List.length_replicate, List.length_replicate]
  decide

theorem witness_EncStartPreparesTheFrame : 8 ≤ (machine [] 8).outSize.toNat := by decide
theorem witness_EncWordTakesTheSelectedCase_a :
    let s := { encoding t1 with it := 5, dst := 9, uc := 2, uPtr := 3 }
    s.it.toNat + 8 ≤ s.inSize.toNat ∧ s.wordLoaded.w = 0 ∧ CanFlushLiterals s.wordLoaded := by
  unfold CanFlushLiterals; decide
theorem witness_EncWordTakesTheSelectedCase_b :
    let s := encoding t1
    s.it.toNat + 8 ≤ s.inSize.toNat ∧ s.wordLoaded.w ≠ 0 ∧ s.wordLoaded.m ≠ 0 ∧ CanCaseB s.wordLoaded := by
  unfold CanCaseB CanFlushZeros CanFlushLiterals; decide
theorem witness_EncWordTakesTheSelectedCase_c :
    let s := { encoding t1 with it := 21, dst := 13, uc := 1, uPtr := 20 }
    s.it.toNat + 8 ≤ s.inSize.toNat ∧ s.wordLoaded.m = 0 ∧ CanFlushZeros s.wordLoaded := by
  unfold CanFlushZeros; decide
theorem witness_CaseAFlushesLiteralsAndCountsZeros :
    CanFlushLiterals { encoding t1 with it := 5, dst := 9, uc := 2, uPtr := 3 } := by
  unfold CanFlushLiterals; decide
theorem witness_CaseBFlushesAndStartsLiterals :
    CanCaseB { encoding t1 with it := 13, dst := 12, zc := 8, m := 0x0080808080808080 } ∧
    CanCaseB { encoding t1 with it := 4, uc := 1, uPtr := 3, m := 0x8080808080808000 } := by
  unfold CanCaseB CanFlushZeros CanFlushLiterals; decide
theorem witness_CaseCFlushesZerosAndExtendsLiterals :
    CanFlushZeros { encoding t1 with it := 21, dst := 12, zc := 8 } := by
  unfold CanFlushZeros; decide
theorem witness_TailStepsCountOneByte :
    CanFlushLiterals { encoding t1 with it := 29, dst := 13, uc := 9, uPtr := 20 } ∧
    CanFlushZeros { encoding t1 with it := 30, dst := 23, zc := 1 } := by
  unfold CanFlushLiterals CanFlushZeros; decide
theorem witness_EncFinalFlushesWhatIsPending :
    let s := { encoding t1 with it := 31, dst := 24, uc := 1, uPtr := 30 }
    CanFlushLiterals s ∧ CanFlushZeros s.afterLiterals := by
  unfold CanFlushLiterals CanFlushZeros; decide
theorem witness_FallbackWritesTheVerbatimFrame :
    let s := { encoding [1, 2, 3] with outSize := 11 }
    s.n.toNat < 2 ^ 63 ∧ s.n.toNat ≤ s.inSize.toNat ∧ 8 + s.n.toNat ≤ s.outSize.toNat := by decide
theorem witness_EncodeEndsKeepTheResult :
    25 < { encoding t1 with dst := 26 }.dst.toNat ∧ 25 < { encoding t1 with outLen := 26 }.outLen.toNat := by decide
theorem witness_EncoderStepsStoreOnlyAtDst :
    let s := { encoding t1 with it := 5, dst := 12, uc := 2, uPtr := 3, m := 0x8080808080808000 }
    (see (fun _ => ()) (exec .flushZeros { s with zc := 3 })).isSome ∧
    ([Instr.flushLiterals, .encCaseA, .encCaseB, .encCaseC, .encTailZero, .encTailNonzero, .encWord, .encFinal].all
      fun i => (see (fun _ => ()) (exec i s)).isSome) ∧
    11 < s.dst.toNat := by decide

theorem witness_DecHeaderTakesFlagAndLength_short :
    (machine [0, 0, 0, 0, 0, 0, 0] 8).inLen.toNat < 8 := by decide
theorem witness_DecHeaderTakesFlagAndLength_capacity :
    let s := machine [101, 0, 0, 0, 0, 0, 0, 0] 100
    8 ≤ s.inLen.toNat ∧ 8 ≤ s.inSize.toNat ∧ s.outSize.toNat < leNat (s.inBytes 0 8) % 2 ^ 63 := by decide
theorem witness_DecHeaderTakesFlagAndLength_taken :
    let s := machine [100, 0, 0, 0, 0, 0, 0, 0x80] 100
    8 ≤ s.inLen.toNat ∧ 8 ≤ s.inSize.toNat ∧ leNat (s.inBytes 0 8) % 2 ^ 63 ≤ s.outSize.toNat := by decide
theorem witness_CompressedHeaderEntersTheBody :
    (100 : BitVec 63).toNat ≤ (machine [] 100).outSize.toNat ∧ (machine [] 100).outSize.toNat < (101 : BitVec 63).toNat := by
  decide
theorem witness_VerbatimHeaderCopiesTheBody :
    let s := machine [2, 0, 0, 0, 0, 0, 0, 0x80, 0xAA, 0xBB] 2
    (2 : BitVec 63).toNat ≤ s.outSize.toNat ∧ 8 + (2 : BitVec 63).toNat ≤ s.inLen.toNat ∧
    8 + (2 : BitVec 63).toNat ≤ s.inSize.toNat := by decide
theorem witness_VerbatimHeaderCopiesTheBody_truncated :
    let s := machine [2, 0, 0, 0, 0, 0, 0, 0x80, 0xAA] 2
    (2 : BitVec 63).toNat ≤ s.outSize.toNat ∧ s.inLen.toNat < 8 + (2 : BitVec 63).toNat := by decide
theorem witness_VerbatimHeaderCopiesTheBody_capacity :
    (machine [] 2).outSize.toNat < (3 : BitVec 63).toNat := by decide
theorem witness_LiteralSegmentsCopyTheirPayload :
    let s := { body (List.replicate 8 0 ++ [0x82, 0xAA, 0xBB]) 2 with ip := 9 }
    (∃ x : BitVec 7, Instr.litShort 2 = .litShort x ∧ 2 = x.toNat) ∧
    s.ip.toNat + 2 ≤ s.inLen.toNat ∧ s.op.toNat + 2 ≤ s.hN.toNat ∧ s.inLen.toNat ≤ s.inSize.toNat ∧
    s.hN.toNat ≤ s.outSize.toNat := ⟨⟨2, by decide⟩, by decide⟩
theorem witness_LiteralSegmentsCopyTheirPayload_rejected :
    let s := { body (List.replicate 8 0 ++ [0x80, 2, 0, 0xAA, 0xBB]) 1 with ip := 11 }
    let u := { body (List.replicate 8 0 ++ [0x80, 2, 0, 0xAA]) 9 with ip := 11 }
    (∃ x : BitVec 16, Instr.litLong 2 = .litLong x ∧ 2 = x.toNat) ∧ s.hN.toNat < s.op.toNat + 2 ∧
    u.inLen.toNat < u.ip.toNat + 2 := ⟨⟨2, by decide⟩, by decide⟩
theorem witness_ZeroSegmentsWriteZeroBytes :
    let s := { body [] 4 with op := 3 }
    (∃ x : BitVec 7, Instr.zrunShort 1 = .zrunShort x ∧ 1 = x.toNat) ∧
    (∃ x : BitVec 16, Instr.zrunLong 2 = .zrunLong x ∧ 2 = x.toNat) ∧ s.op.toNat + 1 ≤ s.hN.toNat ∧
    s.hN.toNat ≤ s.outSize.toNat ∧ s.hN.toNat < s.op.toNat + 2 := ⟨⟨1, by decide⟩, ⟨2, by decide⟩, by decide⟩
theorem witness_DecCheckAcceptsExactlyN :
    { body [] 2 with op := 2 }.op = (body [] 2).hN ∧ { body [] 2 with op := 1 }.op ≠ (body [] 2).hN := by decide
theorem witness_ErrorEndsTheOperation :
    (body [] 2).op = 0 ∧ { body [] 2 with op := 1 }.hN.toNat ≤ 2 := by decide
/-- A header whose N exceeds OUT_SIZE (95_test_vectors.md section 4.3): CAPACITY after one step. -/
theorem witness_ErrorEndsTheOperation_capacity :
    let s := machine [101, 0, 0, 0, 0, 0, 0, 0] 100
    s.host = [] ∧ s.status.busy = false ∧ ∃ s₁ t, exec (.cmdDecompress 0) s = .next s₁ ∧
      Sys2Proof.core.run 1 s₁ = .next t ∧ t.status.done = true ∧ t.status.err ≠ .none ∧ t.status.err ≠ .invalidFrame :=
  ⟨rfl, rfl, _, _, rfl, rfl, rfl, by decide, by decide⟩
/-- The frame of 95_test_vectors.md section 4.2 whose body is one byte short: INVALID_FRAME after four steps. -/
theorem witness_ErrorEndsTheOperation_invalid :
    let s := machine [2, 0, 0, 0, 0, 0, 0, 0, 0x01] 2
    s.host = [] ∧ s.status.busy = false ∧ ∃ s₁ t, exec (.cmdDecompress 0) s = .next s₁ ∧
      Sys2Proof.core.run 4 s₁ = .next t ∧ t.status.done = true ∧ t.status.err ≠ .none :=
  ⟨rfl, rfl, _, _, rfl, rfl, rfl, by decide⟩
/-- V6: an encode too long ends at once. -/
theorem witness_ErrorEndsTheOperation_length :
    let s := { machine [] 8 with inLen := maxLength + 1 }
    s.host = [] ∧ s.status.busy = false ∧ ∃ s₁, exec (.cmdCompress 0) s = .next s₁ ∧
      Sys2Proof.core.run 0 s₁ = .next s₁ ∧ s₁.status.done = true ∧ s₁.status.err ≠ .none ∧ s₁.status.err ≠ .invalidFrame :=
  ⟨rfl, rfl, _, rfl, rfl, rfl, by decide, by decide⟩
theorem witness_DecoderWritesOnlyItsOutput_segment :
    let s := { body (List.replicate 8 0 ++ [0x81, 0xAA]) 4 with ip := 9, op := 3 }
    (∃ x : BitVec 7, (Instr.litShort 1 = .litShort x ∨ Instr.litShort 1 = .zrunShort x) ∧ 1 = x.toNat) ∧
    (∃ t, exec (.litShort 1) s = .next t) ∧ 2 < s.op.toNat := ⟨⟨1, by decide⟩, ⟨_, rfl⟩, by decide⟩
theorem witness_DecoderWritesOnlyItsOutput_step :
    let s := body (List.replicate 8 0 ++ [0x7F]) 4
    DecodeInv s ∧ s.host = [] ∧ (s.phase = .decVerbatim ∨ s.phase = .decBody ∨ s.phase = .decCheck) ∧
    (∃ t, step s = .next t) ∧ s.hN.toNat ≤ 4 := by
  refine ⟨?_, rfl, by decide, ⟨_, rfl⟩, by decide⟩
  unfold DecodeInv; decide

theorem witness_StepRunsTheDecodedControlByte :
    let s := body (List.replicate 8 0 ++ [0x81, 0xAA]) 4
    s.host = [] ∧ s.phase = .decBody ∧ s.inLen.toNat ≤ s.inSize.toNat ∧ s.ip.toNat < s.inLen.toNat ∧
    decode .body (s.inBytes s.ip.toNat (s.inLen.toNat - s.ip.toNat)) = .ok (.litShort 1, [0xAA]) :=
  ⟨rfl, rfl, by decide, by decide, rfl⟩
theorem witness_StepRunsTheDecodedControlByte_truncated :
    let s := body (List.replicate 8 0 ++ [0x00, 0x03]) 4
    s.host = [] ∧ s.phase = .decBody ∧ s.inLen.toNat ≤ s.inSize.toNat ∧
    decode .body (s.inBytes s.ip.toNat (s.inLen.toNat - s.ip.toNat)) = .error .lengthTruncated :=
  ⟨rfl, rfl, by decide, rfl⟩
theorem witness_StepRunsTheDecodedControlByte_exhausted :
    let s := body (List.replicate 8 0) 4
    s.host = [] ∧ s.phase = .decBody ∧ s.inLen.toNat ≤ s.inSize.toNat ∧ s.inLen.toNat ≤ s.ip.toNat := by decide
theorem witness_StepRunsThePhaseOperation :
    let s := encoding t1
    s.host = [] ∧ s.phase = .encMain ∧ { s with it := 23 }.it.toNat + 8 ≤ s.n.toNat ∧
    s.n.toNat < { s with it := 24 }.it.toNat + 8 ∧ { s with it := 30 }.it.toNat < s.n.toNat ∧
    { s with it := 30 }.it.toNat < s.inSize.toNat ∧ s.n.toNat ≤ { s with it := 31 }.it.toNat ∧
    s.n.toNat < { s with dst := 32 }.dst.toNat ∧ { s with dst := 31 }.dst.toNat ≤ s.n.toNat ∧
    (∀ p, { s with phase := p }.phase = p) := ⟨rfl, rfl, by decide, by decide, by decide, by decide, by decide,
      by decide, by decide, fun _ => rfl⟩
theorem witness_StepMakesTheHostMove :
    { encoding [1] with host := [.wait, .pass] }.host = .wait :: [.pass] ∧ (encoding [1]).status.busy = true ∧
    { machine [1] 8 with host := [.wait] }.host = .wait :: [] ∧ (machine [1] 8).status.busy = false := by decide
theorem witness_HostMemoryMovesNeedAnIdleCore :
    let s := machine [1, 2] 8
    s.status.busy = false ∧ (encoding [1]).status.busy = true ∧ (1 : Word).toNat + [(5 : Byte)].length ≤ s.inSize.toNat ∧
    (7 : Word).toNat + [(5 : Byte)].length ≤ s.outSize.toNat ∧ (1 : Word).toNat < s.inSize.toNat ∧
    (7 : Word).toNat < s.outSize.toNat := by decide
theorem witness_ResetClearsRegistersAndKeepsMemories :
    { encoding [1] with host := [.reset] }.host = .reset :: [] ∧ (machine [1] 8).status.busy = false ∧
    max (8 + 2 * (encoding [1]).n.toNat) (encoding [1]).hN.toNat ≤ 10 := by decide
theorem witness_RegisterOnlyInstructionsKeepMemories :
    [Instr.cmdNop 0, .cmdDecompress 0, .cmdReserved 3 0, .writeInLen 1, .readRegister 2, .writeIgnored 2 0, .markZeros,
      .extractMsbs, .classify, .hdrCompressed 1, .decHeader, .decDone].all
      (fun i => (see (fun _ => ()) (exec i (machine [1, 0, 0, 0, 0, 0, 0, 0] 8))).isSome) = true := by decide
theorem witness_CoreNeverWritesInNorReadsOut : (encoding t1).host = [] ∧ (see (fun _ => ()) (step (encoding t1))).isSome := by
  decide
theorem invariant_encoding : Invariant (encoding [7]) := by
  refine ⟨?_, ?_, ?_⟩
  · unfold MemInv; decide
  · unfold StatusInv; decide
  · show EncodeInv _
    unfold EncodeInv; decide
theorem witness_EveryStepKeepsTheInvariant :
    Invariant (encoding [7]) ∧ ∃ t, step (encoding [7]) = .next t := ⟨invariant_encoding, _, rfl⟩
theorem witness_CoreReadsOnlyItsInput :
    let s := encoding [7]
    Invariant s ∧ s.host = [] ∧ (∀ a, a < s.inLen.toNat → { s with inMem := [(0, 7), (1, 9)] }.inByte a = s.inByte a) ∧
    ∃ t, step s = .next t := by
  refine ⟨invariant_encoding, rfl, ?_, _, rfl⟩
  intro a ha
  have h : a = 0 := by
    have hl : (encoding [7]).inLen.toNat = 1 := by decide
    omega
  subst h
  rfl
theorem witness_InvariantStatesAlwaysStep :
    let s := { State.powerOn 8 8 with host := [.writeIn 7 [5]] }
    Invariant s ∧ HostAllowed s ∧ HostAllowed { s with host := [.readIn 7] } ∧ HostAllowed { s with host := [.writeOut 7 [5]] } ∧
    HostAllowed { s with host := [.readOut 7] } ∧ HostAllowed { s with host := [] } := by
  refine ⟨⟨?_, ?_, trivial⟩, ?_, ?_, ?_, ?_, trivial⟩
  · unfold MemInv; decide
  · unfold StatusInv; decide
  · show _ ∧ _; decide
  · show _ ∧ _; decide
  · show _ ∧ _; decide
  · show _ ∧ _; decide
theorem witness_EncodeProducesTheFrame :
    let s := machine t1 70
    s.host = [] ∧ s.status.busy = false ∧ s.inLen.toNat < 2 ^ 63 ∧ s.inLen.toNat ≤ s.inSize.toNat ∧
    8 + 2 * s.inLen.toNat ≤ s.outSize.toNat := by decide
/-- The frame of trace T1, as 95_test_vectors.md section 3.1 prints it. -/
theorem witness_EncodeProducesTheFrame_t1 :
    frameOf t1 = [0x1F, 0, 0, 0, 0, 0, 0, 0, 0x03, 0x82, 0x01, 0x02, 0x0F, 0x89, 0x03, 0x04, 0x05, 0x06, 0x07, 0x08, 0x09,
      0x0A, 0x0B, 0x01, 0x81, 0x0C] := by decide
theorem witness_DecodeProducesTheContent :
    let s := machine [2, 0, 0, 0, 0, 0, 0, 0, 0x02] 2
    let frame := s.inBytes 0 s.inLen.toNat
    s.host = [] ∧ s.status.busy = false ∧ s.inLen.toNat ≤ s.inSize.toNat ∧ frameLength frame ≤ s.outSize.toNat ∧
    contentOf frame = some [0, 0] ∧ 8 ≤ frame.length := by decide
theorem witness_DecodeProducesTheContent_capacity :
    let s := machine [3, 0, 0, 0, 0, 0, 0, 0, 0x03] 2
    let frame := s.inBytes 0 s.inLen.toNat
    s.host = [] ∧ s.status.busy = false ∧ s.inLen.toNat ≤ s.inSize.toNat ∧ 8 ≤ frame.length ∧
    s.outSize.toNat < frameLength frame := by decide
theorem witness_DecodeProducesTheContent_invalid :
    let s := machine [2, 0, 0, 0, 0, 0, 0, 0, 0x01] 2
    let frame := s.inBytes 0 s.inLen.toNat
    s.host = [] ∧ s.status.busy = false ∧ s.inLen.toNat ≤ s.inSize.toNat ∧ frameLength frame ≤ s.outSize.toNat ∧
    contentOf frame = none := by decide
theorem witness_DecompressOfCompressIsTheInput :
    let s := machine [] 8
    let u := machine [0, 0, 0, 0, 0, 0, 0, 0x80] 0
    (s.host = [] ∧ s.status.busy = false ∧ s.inLen.toNat < 2 ^ 63 ∧ s.inLen.toNat ≤ s.inSize.toNat ∧
    8 + 2 * s.inLen.toNat ≤ s.outSize.toNat ∧ u.host = [] ∧ u.status.busy = false ∧
    u.inLen.toNat ≤ u.inSize.toNat ∧ s.inLen.toNat ≤ u.outSize.toNat) ∧
    ∃ s₁ t, exec (.cmdCompress 0) s = .next s₁ ∧ EndsIn s₁ t ∧ u.inLen = t.outLen ∧
      u.inBytes 0 u.inLen.toNat = t.outBytes 0 t.outLen.toNat :=
  ⟨by decide, _, _, rfl, ⟨rfl, 4, rfl⟩, by decide, by decide⟩

end Sys2Proof.Tests
end

section
/-! PROOFS. Which operation a step runs (10_state.md R10, R17), and the state after reset (R24): one rule for each phase and for
each move of the host, and the obligations assembled from them. -/

namespace Sys2Proof.Machine

/-! ### A step of the core, by phase -/

/-- With no host move pending the core steps alone (log 4). -/
theorem step_of_host_nil {s : State} (h : s.host = []) : step s = coreStep s := by
  simp only [step, advance, h]

theorem coreStep_of_not_running {s : State} (h : s.phase = .idle ∨ s.phase = .done) : coreStep s = .next s := by
  rcases h with h | h <;> simp only [coreStep, h]

theorem coreStep_encMain {s : State} (h : s.phase = .encMain) : coreStep s = stepMain s := by
  simp only [coreStep, h]

theorem coreStep_encTail {s : State} (h : s.phase = .encTail) : coreStep s = stepTail s := by
  simp only [coreStep, h]

theorem coreStep_encFinal {s : State} (h : s.phase = .encFinal) : coreStep s = exec .encFinal s := by
  simp only [coreStep, h]

theorem coreStep_encFallback {s : State} (h : s.phase = .encFallback) : coreStep s = stepFallback s := by
  simp only [coreStep, h]

theorem coreStep_decHeader {s : State} (h : s.phase = .decHeader) : coreStep s = exec .decHeader s := by
  simp only [coreStep, h]

theorem coreStep_decVerbatim {s : State} (h : s.phase = .decVerbatim) :
    coreStep s = exec (.hdrVerbatim (s.hN.extractLsb' 0 63)) s := by
  simp only [coreStep, h]

theorem coreStep_decCheck {s : State} (h : s.phase = .decCheck) : coreStep s = exec .decCheck s := by
  simp only [coreStep, h]

/-! ### The guards of the encoder's phases (41_encoder.md R121, R126, R131) -/

theorem stepMain_of_word_left {s : State} (h : s.it.toNat + 8 ≤ s.n.toNat) : stepMain s = exec .encWord s := if_pos h

theorem stepMain_of_no_word_left {s : State} (h : s.n.toNat < s.it.toNat + 8) :
    stepMain s = .next { s with phase := .encTail } := if_neg (Nat.not_le.2 h)

/-- The tail byte is the one at `it`, which IN has. -/
theorem stepTail_of_byte_left {s : State} (h : s.it.toNat < s.n.toNat) (hin : s.it.toNat < s.inSize.toNat) :
    stepTail s = if s.inByte s.it.toNat = 0 then exec .encTailZero s else exec .encTailNonzero s := by
  rw [stepTail, if_pos h, withIn_of_fits _ (Or.inr hin)]
  simp only [State.inBytes, List.cons.injEq, and_true]

theorem stepTail_of_no_byte_left {s : State} (h : s.n.toNat ≤ s.it.toNat) :
    stepTail s = .next { s with phase := .encFinal } := if_neg (Nat.not_lt.2 h)

theorem stepFallback_of_longer {s : State} (h : s.n.toNat < s.dst.toNat) : stepFallback s = exec .encFallback s := if_pos h

theorem stepFallback_of_not_longer {s : State} (h : s.dst.toNat ≤ s.n.toNat) : stepFallback s = exec .encNoFallback s :=
  if_neg (Nat.not_lt.2 h)

/-- Settles O47: the step is the core's, the phase selects the operation, and the encoder's guards select the row. -/
theorem stepRunsThePhaseOperation : Obligations.StepRunsThePhaseOperation := by
  intro s hhost
  rw [step_of_host_nil hhost]
  refine ⟨coreStep_of_not_running, fun h => ?_, fun h => ?_, fun h => ?_, fun h => ?_, coreStep_encFinal, fun h => ?_,
    fun h => ?_, coreStep_decHeader, coreStep_decVerbatim, coreStep_decCheck⟩
  · rw [coreStep_encMain h]
    exact stepMain_of_word_left
  · rw [coreStep_encMain h]
    exact stepMain_of_no_word_left
  · rw [coreStep_encTail h]
    exact stepTail_of_byte_left
  · rw [coreStep_encTail h]
    exact stepTail_of_no_byte_left
  · rw [coreStep_encFallback h]
    exact stepFallback_of_longer
  · rw [coreStep_encFallback h]
    exact stepFallback_of_not_longer

/-! ### A step with a host move pending -/

theorem step_writeReg {s : State} {rest : List HostMove} {i v : Word} (h : s.host = .writeReg i v :: rest) :
    step s = exec (decodeRegWrite i v) { s with host := rest } := by
  simp only [step, advance, h]

theorem step_readReg {s : State} {rest : List HostMove} {i : Word} (h : s.host = .readReg i :: rest) :
    step s = exec (.readRegister i) { s with host := rest } := by
  simp only [step, advance, h]

theorem step_pass {s : State} {rest : List HostMove} (h : s.host = .pass :: rest) :
    step s = coreStep { s with host := rest } := by
  simp only [step, advance, h]

/-- A waiting host stays at its move until BUSY = 0 (70_reset_and_hazards.md R272). -/
theorem step_wait {s : State} {rest : List HostMove} (h : s.host = .wait :: rest) :
    step s = if s.status.busy then coreStep s else .next { s with host := rest } := by
  simp only [step, advance, h]

/-- Settles O48: one rule for each move; a wait is split by BUSY. -/
theorem stepMakesTheHostMove : Obligations.StepMakesTheHostMove := by
  intro s rest i v
  refine ⟨step_writeReg, step_readReg, step_pass, fun h hbusy => ?_, fun h hbusy => ?_⟩
  · rw [step_wait h, hbusy, if_pos rfl]
  · rw [step_wait h, hbusy, if_neg Bool.false_ne_true]

/-! ### The state after reset -/

/-- Every register index reads 0 after power-on, STATUS as the word of its four cleared fields (10_state.md R14, R24). -/
theorem readReg_powerOn (inSize outSize i : Word) : (State.powerOn inSize outSize).readReg i = 0 := by
  have hstatus : (State.powerOn inSize outSize).status.toWord = 0 := rfl
  unfold State.readReg
  split
  · rfl
  · split
    · exact hstatus
    · exact ite_self (0 : Word)

/-- Settles O50: power-on clears every register, and both memories start with no known byte. -/
theorem powerOnStateHoldsTheResetValues : Obligations.PowerOnStateHoldsTheResetValues := by
  intro inSize outSize
  exact ⟨⟨rfl, rfl⟩, readReg_powerOn inSize outSize, rfl, rfl, rfl, rfl, rfl, rfl, rfl, rfl, rfl, rfl, rfl,
    fun _ => ⟨rfl, rfl⟩⟩

/-- Empty memories are in the canonical form and inside any size. -/
theorem memInv_powerOn (inSize outSize : Word) : MemInv (State.powerOn inSize outSize) := ⟨rfl, rfl, rfl, rfl⟩

/-- In IDLE nothing runs and nothing is reported: BUSY, DONE, ERR and VERB are all clear. -/
theorem statusInv_powerOn (inSize outSize : Word) : StatusInv (State.powerOn inSize outSize) :=
  ⟨rfl, rfl, fun hverb => absurd hverb Bool.false_ne_true, fun _ => rfl, fun _ => rfl⟩

theorem invariant_powerOn (inSize outSize : Word) : Invariant (State.powerOn inSize outSize) :=
  ⟨memInv_powerOn inSize outSize, statusInv_powerOn inSize outSize, trivial⟩

/-- Settles O55: the state after reset is the power-on of two sizes, and IDLE asks nothing of the datapath. -/
theorem resetStateMeetsTheInvariant : Obligations.ResetStateMeetsTheInvariant :=
  ⟨invariant_powerOn Config.inSize Config.outSize, invariant_powerOn⟩

end Sys2Proof.Machine
end

section
/-! PROOFS. What the emission writer costs (42_emission.md R165): a zero run is written in no more bytes than it has items, a
literal run in no more than twice as many. -/

namespace Sys2Proof.Machine

/-- A long form has a control byte and two length bytes, a short form its control byte alone (30_encoding.md R61, R63). -/
theorem length_zeroSegment_long (c : Nat) : (Piece.long c).zeroSegment.encode.length = 3 := by
  simp only [Piece.zeroSegment, Segment.encode, List.length_cons, bytesLE_length]

theorem length_zeroSegment_short (c : Nat) : (Piece.short c).zeroSegment.encode.length = 1 := rfl

/-- The control and length bytes of a piece are no more than its items: a long form has at least 255 items, a short form 1. -/
theorem length_zeroSegment_le_of_mem_piecesFrom {fuel c : Nat} :
    ∀ p ∈ piecesFrom fuel c, p.zeroSegment.encode.length ≤ p.items := by
  have hlong {c : Nat} (h : 254 < c) : (Piece.long c).zeroSegment.encode.length ≤ (Piece.long c).items := by
    rw [length_zeroSegment_long]
    exact Nat.le_of_lt (Nat.lt_trans (by decide) h)
  induction fuel generalizing c with
  | zero => exact List.forall_mem_nil _
  | succ fuel ih =>
    unfold piecesFrom
    split
    · exact List.forall_mem_cons.2 ⟨hlong (by decide), ih⟩
    split
    · next h => exact List.forall_mem_singleton.2 (hlong h)
    split
    · exact List.forall_mem_cons.2 ⟨by decide, ih⟩
    split
    · next h => exact List.forall_mem_singleton.2 h
    · exact List.forall_mem_nil _

/-- A literal piece is written as its control and length bytes and its payload. -/
theorem length_encode_literalSegment (p : Piece) (payload : List Byte) :
    (p.literalSegment payload).encode.length = p.zeroSegment.encode.length + payload.length := by
  cases p with
  | long c =>
    rw [length_zeroSegment_long]
    simp only [Piece.literalSegment, Segment.encode, List.length_cons, List.length_append, bytesLE_length]
    omega
  | short c => exact Nat.add_comm ..

theorem length_encodeBody_zeroSegments_le {ps : List Piece} (h : ∀ p ∈ ps, p.zeroSegment.encode.length ≤ p.items) :
    (encodeBody (ps.map Piece.zeroSegment)).length ≤ (ps.map Piece.items).sum := by
  induction ps with
  | nil => simp [encodeBody]
  | cons p ps ih =>
    obtain ⟨hp, hps⟩ := List.forall_mem_cons.1 h
    simpa [encodeBody] using Nat.add_le_add hp (ih hps)

theorem length_encodeBody_cutLiterals_le {ps : List Piece} (h : ∀ p ∈ ps, p.zeroSegment.encode.length ≤ p.items)
    (bs : List Byte) : (encodeBody (cutLiterals ps bs)).length ≤ (ps.map Piece.items).sum + bs.length := by
  induction ps generalizing bs with
  | nil => simp [cutLiterals, encodeBody]
  | cons p ps ih =>
    obtain ⟨hp, hps⟩ := List.forall_mem_cons.1 h
    have hrest := ih hps (bs.drop p.items)
    have hcut : (bs.take p.items).length + (bs.drop p.items).length = bs.length := by simp; omega
    simp only [cutLiterals, encodeBody, List.flatMap_cons, List.length_append, length_encode_literalSegment, List.map_cons,
      List.sum_cons] at hrest ⊢
    omega

theorem length_encodeBody_writeZeros_le (z : Nat) : (encodeBody (writeZeros z)).length ≤ z := by
  have h := length_encodeBody_zeroSegments_le (length_zeroSegment_le_of_mem_piecesFrom (fuel := z) (c := z))
  rwa [piecesFrom_items (Nat.le_refl z)] at h

theorem length_encodeBody_writeLiterals_le (bs : List Byte) : (encodeBody (writeLiterals bs)).length ≤ 2 * bs.length := by
  have h := length_encodeBody_cutLiterals_le
    (length_zeroSegment_le_of_mem_piecesFrom (fuel := bs.length) (c := bs.length)) bs
  rwa [piecesFrom_items (Nat.le_refl bs.length), ← Nat.two_mul] at h

theorem length_zeroBytes_le (s : State) : s.zeroBytes.length ≤ s.zc.toNat := length_encodeBody_writeZeros_le _

theorem length_literalBytes_le (s : State) : s.literalBytes.length ≤ 2 * s.uc.toNat := by
  have h := length_encodeBody_writeLiterals_le (s.inBytes s.uPtr.toNat s.uc.toNat)
  rwa [inBytes_length] at h

/-! ### The classifier's counts -/

/-- Leading zeros and run of an entry lie within the eight bytes of a word (40_swar_classifier.md R109). -/
theorem classRom_entry_le : ∀ e ∈ classRom, e.1 + e.2 ≤ 8 := by
  simp only [classRom, List.forall_mem_append]
  decide

/-- The two fields of a ROM entry as it is held hold the two numbers of the table. -/
theorem classEntry_fields_le (l : Byte) : (entryZeros (classEntry l)).toNat + (entryRun (classEntry l)).toNat ≤ 8 := by
  have he : (classRom.getD l.toNat (0, 0)).1 + (classRom.getD l.toNat (0, 0)).2 ≤ 8 := by
    rw [List.getD_eq_getElem?_getD]
    cases h : classRom[l.toNat]? with
    | none => simp
    | some e => exact classRom_entry_le e (List.mem_of_getElem? h)
  simp only [classEntry, entryZeros, entryRun, BitVec.extractLsb'_toNat, BitVec.toNat_ofNat, Nat.shiftRight_eq_div_pow]
  omega

end Sys2Proof.Machine
end

section
/-! PROOFS. What the invariant asks, by component and by phase, and which updates of the state keep it. -/

namespace Sys2Proof.Machine

/-! ### The memories -/

theorem MemInv.storeOut {s : State} (h : MemInv s) {a : Nat} {bs : List Byte}
    (hfit : bs = [] ∨ a + bs.length ≤ s.outSize.toNat) : MemInv (s.storeOut a bs) := by
  obtain ⟨hinWf, houtWf, hinSize, houtSize⟩ := h
  exact ⟨hinWf, Memory.writeBytes_wf a bs houtWf, hinSize, Memory.writeBytes_within houtSize hfit⟩

theorem MemInv.storeIn {s : State} (h : MemInv s) {a : Nat} {bs : List Byte}
    (hfit : bs = [] ∨ a + bs.length ≤ s.inSize.toNat) : MemInv (s.storeIn a bs) := by
  obtain ⟨hinWf, houtWf, hinSize, houtSize⟩ := h
  exact ⟨Memory.writeBytes_wf a bs hinWf, houtWf, Memory.writeBytes_within hinSize hfit, houtSize⟩

theorem MemInv.loseOut {s : State} (h : MemInv s) (lo hi : Nat) : MemInv (s.loseOut lo hi) := by
  obtain ⟨hinWf, houtWf, hinSize, houtSize⟩ := h
  exact ⟨hinWf, Memory.forget_wf lo hi houtWf, hinSize, Memory.forget_within lo hi houtSize⟩

/-! ### STATUS -/

/-- While an operation runs STATUS is what its acceptance made it, and OUT_LEN is 0 (44_commands.md R212, R213). -/
theorem statusInv_iff_of_running {s : State} (h : s.phase.running = true) :
    StatusInv s ↔ s.status = { busy := true, done := false, err := .none, verb := false } ∧ s.outLen = 0 := by
  have hphase : s.phase ≠ .done := by rintro hd; rw [hd] at h; cases h
  constructor
  · rintro ⟨hbusy, hdone, hverb, herr, hlen⟩
    rw [h] at hbusy
    rw [decide_eq_false hphase] at hdone
    have hverb' : s.status.verb = false :=
      Bool.eq_false_iff.2 fun hv => Bool.false_ne_true (hdone.symm.trans (hverb hv).1)
    refine ⟨?_, hlen h⟩
    calc s.status = ⟨s.status.busy, s.status.done, s.status.err, s.status.verb⟩ := rfl
      _ = ⟨true, false, .none, false⟩ := by rw [hbusy, hdone, herr hdone, hverb']
  · rintro ⟨hstatus, hlen⟩
    rw [StatusInv, hstatus, h, decide_eq_false hphase]
    exact ⟨rfl, rfl, fun hverb => absurd hverb Bool.false_ne_true, fun _ => rfl, fun _ => hlen⟩

/-- A core that is not BUSY is in IDLE or DONE. -/
theorem StatusInv.not_running {s : State} (h : StatusInv s) (hbusy : s.status.busy = false) : s.phase.running = false :=
  h.1.symm.trans hbusy

/-- An operation that ends reports an error or VERB, not both (10_state.md R14). -/
theorem invariant_close {s : State} (h : MemInv s) {e : ErrCode} {v : Bool} (hv : v = true → e = .none) (len : Word) :
    Invariant (s.close e v len) :=
  ⟨h, ⟨rfl, rfl, fun hverb => ⟨rfl, hv hverb⟩, nofun, nofun⟩, trivial⟩

/-- An error leaves VERB 0. -/
theorem invariant_close_error {s : State} (h : MemInv s) (e : ErrCode) (len : Word) : Invariant (s.close e false len) :=
  invariant_close h (fun hverb => absurd hverb Bool.false_ne_true) len

/-! ### The phases -/

theorem PhaseInv.of_not_running {s : State} (h : s.phase.running = false) : PhaseInv s := by
  unfold PhaseInv
  cases hp : s.phase
  case idle | done => trivial
  all_goals rw [hp] at h; cases h

theorem phaseInv_encMain {s : State} (h : s.phase = .encMain) : PhaseInv s ↔ EncodeInv s := by simp only [PhaseInv, h]

theorem phaseInv_encTail {s : State} (h : s.phase = .encTail) : PhaseInv s ↔ EncodeInv s ∧ s.n.toNat - s.it.toNat < 8 := by
  simp only [PhaseInv, h]

theorem phaseInv_encFinal {s : State} (h : s.phase = .encFinal) : PhaseInv s ↔ EncodeInv s ∧ s.it = s.n := by
  simp only [PhaseInv, h]

theorem phaseInv_encFallback {s : State} (h : s.phase = .encFallback) :
    PhaseInv s ↔ EncodeInv s ∧ s.it = s.n ∧ s.zc = 0 ∧ s.uc = 0 := by
  simp only [PhaseInv, h]

theorem phaseInv_decHeader {s : State} (h : s.phase = .decHeader) : PhaseInv s ↔ s.inLen.toNat ≤ s.inSize.toNat := by
  simp only [PhaseInv, h]

theorem phaseInv_decVerbatim {s : State} (h : s.phase = .decVerbatim) :
    PhaseInv s ↔ DecodeInv s ∧ s.hflag = true ∧ s.ip = 8 ∧ s.op = 0 := by
  simp only [PhaseInv, h]

theorem phaseInv_decBody {s : State} (h : s.phase = .decBody) : PhaseInv s ↔ DecodeInv s ∧ s.hflag = false := by
  simp only [PhaseInv, h]

theorem phaseInv_decCheck {s : State} (h : s.phase = .decCheck) :
    PhaseInv s ↔ DecodeInv s ∧ s.hflag = false ∧ s.ip = s.inLen := by
  simp only [PhaseInv, h]

/-- The next moves of the host are no part of the invariant. -/
theorem Invariant.withHost {s : State} (h : Invariant s) (rest : List HostMove) : Invariant { s with host := rest } := h

/-- Nor is what the host has read. -/
theorem Invariant.withReadData {s : State} (h : Invariant s) (v : Word) : Invariant { s with readData := v } := h

/-! ### The pending counts of an encode (41_encoder.md R135, R136, R139) -/

namespace EncodeInv

variable {s : State}

/-- OUT has room for the pending zeros: they cost no more than the bytes of IN they stand for. -/
theorem canFlushZeros (h : EncodeInv s) : CanFlushZeros s := by
  obtain ⟨hn, hlt, hin, hout, hit, hone, hptr, hdst, hroom⟩ := h
  have hlen := length_zeroBytes_le s
  exact .inr (by omega)

/-- OUT has room for the pending literals too, and they lie below `it`, so below `n`. -/
theorem canFlushLiterals (h : EncodeInv s) : CanFlushLiterals s := by
  obtain ⟨hn, hlt, hin, hout, hit, hone, hptr, hdst, hroom⟩ := h
  have hlen := length_literalBytes_le s
  by_cases huc : s.uc = 0
  · exact .inl huc
  · have hend := hptr huc
    exact .inr ⟨by omega, by omega⟩

theorem afterZeros (h : EncodeInv s) : EncodeInv s.afterZeros := by
  obtain ⟨hn, hlt, hin, hout, hit, hone, hptr, hdst, hroom⟩ := h
  have hlen := length_zeroBytes_le s
  have hmoved : s.afterZeros.dst.toNat = s.dst.toNat + s.zeroBytes.length := by
    simp only [State.afterZeros, BitVec.toNat_add, BitVec.toNat_ofNat]
    omega
  refine ⟨hn, hlt, hin, hout, hit, .inl rfl, hptr, by omega, ?_⟩
  show s.afterZeros.dst.toNat + 0 + 2 * s.uc.toNat ≤ 8 + 2 * s.it.toNat
  omega

theorem afterLiterals (h : EncodeInv s) : EncodeInv s.afterLiterals := by
  obtain ⟨hn, hlt, hin, hout, hit, hone, hptr, hdst, hroom⟩ := h
  have hlen := length_literalBytes_le s
  have hmoved : s.afterLiterals.dst.toNat = s.dst.toNat + s.literalBytes.length := by
    simp only [State.afterLiterals, BitVec.toNat_add, BitVec.toNat_ofNat]
    omega
  refine ⟨hn, hlt, hin, hout, hit, .inr rfl, fun hne => absurd rfl hne, by omega, ?_⟩
  show s.afterLiterals.dst.toNat + s.zc.toNat + 2 * 0 ≤ 8 + 2 * s.it.toNat
  omega

/-- Zeros may be counted when no literals are pending. -/
theorem addZeros (h : EncodeInv s) {c : Word} (hleft : s.it.toNat + c.toNat ≤ s.n.toNat) (huc : c = 0 ∨ s.uc = 0) :
    EncodeInv (addZeros c s) := by
  obtain ⟨hn, hlt, hin, hout, hit, hone, hptr, hdst, hroom⟩ := h
  have hit' : (s.it + c).toNat = s.it.toNat + c.toNat := BitVec.toNat_add_of_lt (by omega)
  have hzc' : (s.zc + c).toNat = s.zc.toNat + c.toNat := BitVec.toNat_add_of_lt (by omega)
  simp only [EncodeInv, addZeros_n, addZeros_inLen, addZeros_inSize, addZeros_outSize, addZeros_it, addZeros_zc, addZeros_uc,
    addZeros_uPtr, addZeros_dst, hit', hzc']
  refine ⟨hn, hlt, hin, hout, hleft, ?_, fun hne => ?_, hdst, by omega⟩
  · rcases huc with rfl | huc
    · simpa using hone
    · exact .inr huc
  · rcases huc with rfl | huc
    · simpa using hptr hne
    · exact absurd huc hne

/-- Literals may be counted when no zeros are pending; the first of them is at `it`. -/
theorem addLiterals (h : EncodeInv s) {c : Word} (hleft : s.it.toNat + c.toNat ≤ s.n.toNat) (hzc : s.zc = 0) :
    EncodeInv (addLiterals c s) := by
  obtain ⟨hn, hlt, hin, hout, hit, hone, hptr, hdst, hroom⟩ := h
  have hit' : (s.it + c).toNat = s.it.toNat + c.toNat := BitVec.toNat_add_of_lt (by omega)
  have huc' : (s.uc + c).toNat = s.uc.toNat + c.toNat := BitVec.toNat_add_of_lt (by omega)
  simp only [EncodeInv, addLiterals_n, addLiterals_inLen, addLiterals_inSize, addLiterals_outSize, addLiterals_it,
    addLiterals_zc, addLiterals_uc, addLiterals_uPtr, addLiterals_dst, hit', huc']
  refine ⟨hn, hlt, hin, hout, hleft, .inl hzc, fun _ => ?_, hdst, by omega⟩
  split <;> rename_i huc
  · omega
  · have hend := hptr fun h0 => huc ((toNat_eq_zero_iff _).2 h0)
    omega

end EncodeInv

/-- A zero flush stores inside OUT. -/
theorem MemInv.afterZeros {s : State} (h : MemInv s) (hroom : CanFlushZeros s) : MemInv s.afterZeros :=
  h.storeOut (hroom.imp_left zeroBytes_of_zc_eq_zero)

/-- A literal flush stores inside OUT. -/
theorem MemInv.afterLiterals {s : State} (h : MemInv s) (hroom : CanFlushLiterals s) : MemInv s.afterLiterals :=
  h.storeOut (hroom.imp literalBytes_of_uc_eq_zero And.right)

end Sys2Proof.Machine
end

section
/-! PROOFS. The encoder's steps as updates of the state (41_encoder.md), in the words of Safety.lean, and what they keep. -/

namespace Sys2Proof.Machine

/-! ### The steps as updates -/

/-- The state after ENC_START (41_encoder.md R120). -/
def State.started (s : State) : State :=
  { s.storeOut 0 (bytesLE (headerWord false s.inLen).toNat 8) with
    n := s.inLen, dst := 8, zc := 0, uc := 0, uPtr := 0, it := 0, phase := .encMain }

theorem execEncStart_eq {s : State} (hout : 8 ≤ s.outSize.toNat) : execEncStart s = .next s.started := by
  rw [execEncStart, putOut_of_fits (.inr (by simpa using hout))]
  rfl

theorem execEncCaseA_eq {s : State} (h : CanFlushLiterals s) : execEncCaseA s = .next (addZeros 8 s.afterLiterals) := by
  rw [execEncCaseA, flushPendingLiterals_eq_next h, andThen_next]

theorem execEncCaseC_eq {s : State} (h : CanFlushZeros s) : execEncCaseC s = .next (addLiterals 8 s.afterZeros) := by
  rw [execEncCaseC, flushPendingZeros_eq_next h, andThen_next]

theorem execEncTailZero_eq {s : State} (h : CanFlushLiterals s) : execEncTailZero s = .next (addZeros 1 s.afterLiterals) := by
  rw [execEncTailZero, flushPendingLiterals_eq_next h, andThen_next]

theorem execEncTailNonzero_eq {s : State} (h : CanFlushZeros s) :
    execEncTailNonzero s = .next (addLiterals 1 s.afterZeros) := by
  rw [execEncTailNonzero, flushPendingZeros_eq_next h, andThen_next]

theorem execEncFinal_eq {s : State} (hl : CanFlushLiterals s) (hz : CanFlushZeros s.afterLiterals) :
    execEncFinal s = .next (s.afterLiterals.afterZeros.enter .encFallback) := by
  rw [execEncFinal, flushPendingLiterals_eq_next hl, andThen_next, flushPendingZeros_eq_next hz, andThen_next]

/-- CASE_B from its literal flush on, the word's class being known (41_encoder.md R124). -/
def flushAndCount (c : State) : Result :=
  andThen (if c.zc.toNat > 0 ∨ c.k.toNat > 0 then flushPendingLiterals c else .next c) fun s =>
  andThen (flushPendingZeros { s with zc := s.zc + s.k.setWidth 64 }) fun s =>
  .next (addLiterals (s.r.setWidth 64) { s with it := s.it + s.k.setWidth 64 })

theorem execEncCaseB_eq_flushAndCount (s : State) : execEncCaseB s = flushAndCount s.classified := by
  have hrest : execEncCaseB s = andThen (execExtractMsbs s) fun s => andThen (execClassify s) flushAndCount := rfl
  rw [hrest, execExtractMsbs, andThen_next, execClassify, andThen_next]
  rfl

/-- CASE_B once its literal flush is made, or is not due. -/
def State.settled (c : State) : State := if c.zc = 0 ∧ c.k = 0 then c else c.afterLiterals

theorem settleLiterals_eq {c : State} (h : (c.zc = 0 ∧ c.k = 0) ∨ CanFlushLiterals c) :
    (if c.zc.toNat > 0 ∨ c.k.toNat > 0 then flushPendingLiterals c else .next c) = .next c.settled := by
  have hdue : (c.zc.toNat > 0 ∨ c.k.toNat > 0) ↔ ¬(c.zc = 0 ∧ c.k = 0) := by
    simp only [← toNat_eq_zero_iff]
    omega
  unfold State.settled
  by_cases hskip : c.zc = 0 ∧ c.k = 0
  · rw [if_neg (not_not_intro hskip ∘ hdue.1), if_pos hskip]
  · rw [if_pos (hdue.2 hskip), if_neg hskip, flushPendingLiterals_eq_next (h.resolve_left hskip)]

theorem zerosCounted_eq (s : State) : s.zerosCounted =
    { s.classified.settled with zc := s.classified.settled.zc + s.classified.settled.k.setWidth 64 } := rfl

/-- CASE_B counts and flushes the word's zeros, then its run is pending. It moves `it` over the zeros after their flush, which does
not look at `it`. -/
theorem afterCaseB_eq (s : State) : s.afterCaseB =
    addLiterals (s.classified.settled.r.setWidth 64)
      (addZeros (s.classified.settled.k.setWidth 64) s.classified.settled).afterZeros := by
  rw [State.afterCaseB, zerosCounted_eq]
  generalize s.classified.settled = t
  simp only [addLiterals, toNat_eq_zero_iff]
  rfl

theorem execEncCaseB_eq {s : State} (h : CanCaseB s) : execEncCaseB s = .next s.afterCaseB := by
  obtain ⟨hl, hz⟩ := h
  rw [execEncCaseB_eq_flushAndCount, flushAndCount, settleLiterals_eq hl, andThen_next, afterCaseB_eq]
  rw [zerosCounted_eq] at hz
  rw [flushPendingZeros_eq_next hz, andThen_next]
  rfl

/-- ENC_WORD loads the word at `it`, which IN has, and its zero bytes select the case (41_encoder.md R122). -/
theorem execEncWord_eq {s : State} (h : s.it.toNat + 8 ≤ s.inSize.toNat) : execEncWord s =
    if s.wordLoaded.w = 0 then execEncCaseA s.wordLoaded
    else if s.wordLoaded.m ≠ 0 then execEncCaseB s.wordLoaded
    else execEncCaseC s.wordLoaded := by
  have hload : s.loadWord s.it.toNat = some (BitVec.ofNat 64 (leNat (s.inBytes s.it.toNat 8))) := by
    rw [State.loadWord, readIn_eq_some_iff.2 ⟨.inr h, rfl⟩, Option.map_some]
  simp only [execEncWord, hload]
  rw [execMarkZeros, andThen_next]
  rfl

/-- What ENC_FALLBACK leaves before ENC_DONE (41_encoder.md R132). -/
def State.fallenBack (s : State) : State :=
  { (s.storeOut 0 (bytesLE (headerWord true s.n).toNat 8)).storeOut 8 (s.inBytes 0 s.n.toNat) with
    outLen := 8 + s.n, status := { s.status with verb := true } }

theorem execEncFallback_eq {s : State} (hin : s.n.toNat ≤ s.inSize.toNat) (hout : 8 + s.n.toNat ≤ s.outSize.toNat) :
    execEncFallback s = execEncDone s.fallenBack := by
  rw [execEncFallback, putOut_of_fits (.inr (by simp; omega)), andThen_next, withIn_of_fits _ (.inr (by simpa using hin)),
    putOut_of_fits (.inr (by simpa using hout)), andThen_next]
  rw [State.fallenBack, inBytes_congr (s := s) (State.storeOut_inMem ..)]
  rfl

/-! ### The datapath formats -/

/-- The datapath formats (30_encoding.md R73) set, and nothing else. -/
def State.withFormats (s : State) (w m : Word) (l k r : Byte) : State := { s with w := w, m := m, l := l, k := k, r := r }

theorem classified_eq (s : State) : s.classified = s.withFormats s.w s.m (layoutOf s.m)
    (entryZeros (classEntry (layoutOf s.m))) (entryRun (classEntry (layoutOf s.m))) := rfl

theorem wordLoaded_eq (s : State) : s.wordLoaded = s.withFormats (BitVec.ofNat 64 (leNat (s.inBytes s.it.toNat 8)))
    (zeroMask (BitVec.ofNat 64 (leNat (s.inBytes s.it.toNat 8)))) s.l s.k s.r := rfl

@[simp] theorem withFormats_it (s : State) (w m : Word) (l k r : Byte) : (s.withFormats w m l k r).it = s.it := rfl
@[simp] theorem withFormats_n (s : State) (w m : Word) (l k r : Byte) : (s.withFormats w m l k r).n = s.n := rfl
@[simp] theorem withFormats_k (s : State) (w m : Word) (l k r : Byte) : (s.withFormats w m l k r).k = k := rfl
@[simp] theorem withFormats_r (s : State) (w m : Word) (l k r : Byte) : (s.withFormats w m l k r).r = r := rfl

/-- The word's zeros and run lie within the word. -/
theorem classified_k_add_r_le (s : State) : s.classified.k.toNat + s.classified.r.toNat ≤ 8 := by
  simpa only [classified_eq, withFormats_k, withFormats_r] using classEntry_fields_le (layoutOf s.m)

/-- Where a whole word is left, the classified word's zeros and run are left too. -/
theorem classified_word_left {s : State} (hleft : s.it.toNat + 8 ≤ s.n.toNat) :
    s.classified.it.toNat + (s.classified.k.toNat + s.classified.r.toNat) ≤ s.classified.n.toNat := by
  have hword := classified_k_add_r_le s
  have hit : s.classified.it = s.it := by rw [classified_eq, withFormats_it]
  have hn : s.classified.n = s.n := by rw [classified_eq, withFormats_n]
  rw [hit, hn]
  omega

/-! ### What the steps keep -/

/-- An encode runs in phase `p`: both memories and STATUS are in order, and what is emitted and pending is within its bounds. -/
structure Encoding (p : Phase) (s : State) : Prop where
  mem : MemInv s
  status : StatusInv s
  phase : s.phase = p
  counts : EncodeInv s

namespace Encoding

variable {p : Phase} {s : State}

theorem withFormats (h : Encoding p s) (w m : Word) (l k r : Byte) : Encoding p (s.withFormats w m l k r) :=
  ⟨h.mem, h.status, h.phase, h.counts⟩

theorem wordLoaded (h : Encoding p s) : Encoding p s.wordLoaded := wordLoaded_eq s ▸ h.withFormats ..

theorem classified (h : Encoding p s) : Encoding p s.classified := classified_eq s ▸ h.withFormats ..

theorem afterZeros (h : Encoding p s) : Encoding p s.afterZeros :=
  ⟨h.mem.afterZeros h.counts.canFlushZeros, h.status, h.phase, h.counts.afterZeros⟩

theorem afterLiterals (h : Encoding p s) : Encoding p s.afterLiterals :=
  ⟨h.mem.afterLiterals h.counts.canFlushLiterals, h.status, h.phase, h.counts.afterLiterals⟩

theorem countZeros (h : Encoding p s) {c : Word} (hleft : s.it.toNat + c.toNat ≤ s.n.toNat) (huc : c = 0 ∨ s.uc = 0) :
    Encoding p (addZeros c s) :=
  ⟨h.mem, h.status, h.phase, h.counts.addZeros hleft huc⟩

theorem countLiterals (h : Encoding p s) {c : Word} (hleft : s.it.toNat + c.toNat ≤ s.n.toNat) (hzc : s.zc = 0) :
    Encoding p (addLiterals c s) :=
  ⟨h.mem, h.status, h.phase, h.counts.addLiterals hleft hzc⟩

/-- In CASE_B, once the literals are settled, the word's zeros can be counted: where there are any, no literals are pending. -/
theorem countWordZeros (h : Encoding p s) (hk : s.it.toNat + s.k.toNat ≤ s.n.toNat) :
    Encoding p (addZeros (s.settled.k.setWidth 64) s.settled) := by
  have hk' : s.it.toNat + (s.k.setWidth 64).toNat ≤ s.n.toNat := by
    rw [BitVec.toNat_setWidth]
    omega
  unfold State.settled
  split
  · next hskip => exact h.countZeros hk' (.inl (by rw [hskip.2]; rfl))
  · exact h.afterLiterals.countZeros hk' (.inr rfl)

/-- Then the zeros are flushed and the word's run can be counted. -/
theorem countWordRun (h : Encoding p s) (hkr : s.it.toNat + (s.k.toNat + s.r.toNat) ≤ s.n.toNat) :
    Encoding p (addLiterals (s.settled.r.setWidth 64) (addZeros (s.settled.k.setWidth 64) s.settled).afterZeros) := by
  have hfields : s.settled.it = s.it ∧ s.settled.n = s.n ∧ s.settled.k = s.k ∧ s.settled.r = s.r := by
    unfold State.settled
    split <;> exact ⟨rfl, rfl, rfl, rfl⟩
  obtain ⟨hit, hn, hk, hr⟩ := hfields
  refine (h.countWordZeros (by omega)).afterZeros.countLiterals ?_ rfl
  show (s.settled.it + s.settled.k.setWidth 64).toNat + (s.settled.r.setWidth 64).toNat ≤ s.settled.n.toNat
  rw [hit, hn, hk, hr, BitVec.toNat_add, BitVec.toNat_setWidth, BitVec.toNat_setWidth]
  omega

section
variable (h : Encoding p s) (hleft : s.it.toNat + 8 ≤ s.n.toNat)
include h hleft

theorem canCaseB : CanCaseB s := by
  refine ⟨.inr h.classified.counts.canFlushLiterals, ?_⟩
  have hword := classified_word_left hleft
  rw [zerosCounted_eq]
  exact (h.classified.countWordZeros (by omega)).counts.canFlushZeros

theorem afterCaseB : Encoding p s.afterCaseB := by
  rw [afterCaseB_eq]
  exact h.classified.countWordRun (classified_word_left hleft)

/-- A word is encoded within the bounds, whichever case it selects. -/
theorem execEncWord_keeps : ∃ t, execEncWord s = .next t ∧ Encoding p t := by
  have hw := h.wordLoaded
  have hleft' : s.wordLoaded.it.toNat + 8 ≤ s.wordLoaded.n.toNat := by
    rwa [wordLoaded_eq, withFormats_it, withFormats_n]
  obtain ⟨-, -, hin, -⟩ := h.counts
  rw [execEncWord_eq (by omega)]
  generalize s.wordLoaded = u at hw hleft'
  split
  · exact ⟨_, execEncCaseA_eq hw.counts.canFlushLiterals, hw.afterLiterals.countZeros hleft' (.inr rfl)⟩
  split
  · exact ⟨_, execEncCaseB_eq (hw.canCaseB hleft'), hw.afterCaseB hleft'⟩
  · exact ⟨_, execEncCaseC_eq hw.counts.canFlushZeros, hw.afterZeros.countLiterals hleft' rfl⟩

end

end Encoding

end Sys2Proof.Machine
end

section
/-! PROOFS. From a state that meets the invariant each operation of the core, by phase, answers a next state that meets it again. -/

namespace Sys2Proof.Machine

/-- The operation answers a next state, and that state meets the invariant. -/
def Safe (o : Result) : Prop := ∃ t, o = .next t ∧ Invariant t

theorem Safe.next {t : State} (h : Invariant t) : Safe (.next t) := ⟨t, rfl, h⟩

/-! ### The end of an operation -/

theorem safe_raise {s : State} (h : MemInv s) (e : ErrCode) : Safe (raise e s) :=
  .next (invariant_close_error (s := s.restore) h e 0)

theorem safe_raiseInBody {s : State} (h : MemInv s) (e : ErrCode) : Safe (raiseInBody e s) := by
  unfold raiseInBody
  split
  · exact safe_raise h e
  · exact safe_raise (h.loseOut 0 s.hN.toNat) e

theorem safe_execEncDone {s : State} (h : MemInv s) : Safe (execEncDone s) :=
  .next (invariant_close (h.loseOut _ _) (fun _ => rfl) _)

theorem safe_execDecDone {s : State} (h : MemInv s) : Safe (execDecDone s) := .next (invariant_close h (fun _ => rfl) _)

/-! ### The encoder's phases -/

namespace Encoding

variable {s : State}

theorem invariant_encMain (h : Encoding .encMain s) : Invariant s :=
  ⟨h.mem, h.status, (phaseInv_encMain h.phase).2 h.counts⟩

/-- Leaving a phase of the encode for the next one. -/
theorem enter {p q : Phase} (h : Encoding p s) (hp : p.running = true) (hq : q.running = true) : Encoding q (s.enter q) := by
  have hrun := (statusInv_iff_of_running (by rw [h.phase, hp])).1 h.status
  exact ⟨h.mem, (statusInv_iff_of_running hq).2 hrun, rfl, h.counts⟩

theorem safe_stepMain (h : Encoding .encMain s) : Safe (stepMain s) := by
  unfold stepMain
  split
  · next hleft =>
    obtain ⟨t, ht, hkeep⟩ := h.execEncWord_keeps hleft
    exact ⟨t, ht, hkeep.invariant_encMain⟩
  · have ht := h.enter (q := .encTail) rfl rfl
    exact .next ⟨ht.mem, ht.status, (phaseInv_encTail rfl).2 ⟨ht.counts, by rw [State.enter_n, State.enter_it]; omega⟩⟩

/-- One tail byte less is left. -/
theorem safe_tailByte {t : State} (ht : Encoding .encTail t) (hn : t.n = s.n) (hit : t.it = s.it + 1)
    (hleft : s.it.toNat < s.n.toNat) (htail : s.n.toNat - s.it.toNat < 8) : Safe (.next t) := by
  have hmoved : t.it.toNat = s.it.toNat + 1 := by
    rw [hit, BitVec.toNat_add_of_lt (by simp; omega)]
    rfl
  exact .next ⟨ht.mem, ht.status, (phaseInv_encTail ht.phase).2 ⟨ht.counts, by rw [hn]; omega⟩⟩

theorem safe_stepTail (h : Encoding .encTail s) (htail : s.n.toNat - s.it.toNat < 8) : Safe (stepTail s) := by
  obtain ⟨-, -, hin, -, hit, -⟩ := h.counts
  rcases Nat.lt_or_ge s.it.toNat s.n.toNat with hleft | hleft
  · rw [stepTail_of_byte_left hleft (by omega)]
    split
    · rw [show exec .encTailZero s = _ from execEncTailZero_eq h.counts.canFlushLiterals]
      exact safe_tailByte (s := s) (h.afterLiterals.countZeros hleft (.inr rfl)) rfl rfl hleft htail
    · rw [show exec .encTailNonzero s = _ from execEncTailNonzero_eq h.counts.canFlushZeros]
      exact safe_tailByte (s := s) (h.afterZeros.countLiterals hleft rfl) rfl rfl hleft htail
  · rw [stepTail_of_no_byte_left hleft]
    have ht := h.enter (q := .encFinal) rfl rfl
    have hall : s.it = s.n := BitVec.eq_of_toNat_eq (Nat.le_antisymm hit hleft)
    exact .next ⟨ht.mem, ht.status, (phaseInv_encFinal rfl).2 ⟨ht.counts, hall⟩⟩

theorem safe_execEncFinal (h : Encoding .encFinal s) (hit : s.it = s.n) : Safe (execEncFinal s) := by
  rw [execEncFinal_eq h.counts.canFlushLiterals h.afterLiterals.counts.canFlushZeros]
  have ht := h.afterLiterals.afterZeros.enter (q := .encFallback) rfl rfl
  exact .next ⟨ht.mem, ht.status, (phaseInv_encFallback rfl).2 ⟨ht.counts, hit, rfl, rfl⟩⟩

theorem safe_stepFallback {p : Phase} (h : Encoding p s) : Safe (stepFallback s) := by
  obtain ⟨-, -, hin, hout, -⟩ := h.counts
  unfold stepFallback
  split
  · rw [show exec .encFallback s = _ from execEncFallback_eq hin (by omega)]
    have hheader : MemInv (s.storeOut 0 (bytesLE (headerWord true s.n).toNat 8)) := h.mem.storeOut (.inr (by simp; omega))
    have hmem : MemInv s.fallenBack := hheader.storeOut (.inr (by simp; omega))
    exact safe_execEncDone hmem
  · exact safe_execEncDone h.mem

end Encoding

/-! ### The decoder's phases -/

/-- Taking a header whose frame has its 8 bytes enters the phase of its body, or ends the decode. -/
theorem safe_takeHeader {s : State} (hmem : MemInv s) (hstatus : StatusInv s) (hp : s.phase = .decHeader)
    (hin : s.inLen.toNat ≤ s.inSize.toNat) (hlen : 8 ≤ s.inLen.toNat) (flag : Bool) (len : BitVec 63) :
    Safe (takeHeader flag len s) := by
  rcases takeHeader_cases flag len s with ⟨-, ht⟩ | ⟨hout, ht⟩
  · exact ht ▸ safe_raise hmem .capacity
  · have hrun := (statusInv_iff_of_running (by rw [hp]; rfl)).1 hstatus
    have hN : (len.setWidth 64).toNat = len.toNat := by
      have := len.isLt
      rw [BitVec.toNat_setWidth]
      omega
    have hbounds : DecodeInv { s with hflag := flag, hN := len.setWidth 64, ip := 8, op := 0 } :=
      ⟨hin, hN ▸ hout, hN ▸ len.isLt, Nat.le_refl 8, hlen, Nat.zero_le _⟩
    rw [ht]
    cases flag
    · exact .next ⟨hmem, (statusInv_iff_of_running rfl).2 hrun, (phaseInv_decBody rfl).2 ⟨hbounds, rfl⟩⟩
    · exact .next ⟨hmem, (statusInv_iff_of_running rfl).2 hrun, (phaseInv_decVerbatim rfl).2 ⟨hbounds, rfl, rfl, rfl⟩⟩

theorem safe_execDecHeader {s : State} (hmem : MemInv s) (hstatus : StatusInv s) (hp : s.phase = .decHeader)
    (hin : s.inLen.toNat ≤ s.inSize.toNat) : Safe (execDecHeader s) := by
  unfold execDecHeader
  split
  · exact safe_raise hmem .invalidFrame
  · next hlen =>
    rw [State.loadWord, readIn_eq_some_iff.2 ⟨.inr (by omega), rfl⟩]
    exact safe_takeHeader hmem hstatus hp hin (by omega) _ _

/-- In DEC_VERBATIM the header the row takes again is the one the state holds, so that the step only copies the body (log 14). -/
theorem execHdrVerbatim_eq_copyVerbatim {s : State} (hp : s.phase = .decVerbatim) (hbounds : DecodeInv s)
    (hflag : s.hflag = true) (hip : s.ip = 8) (hop : s.op = 0) :
    execHdrVerbatim (s.hN.extractLsb' 0 63) s = copyVerbatim s := by
  obtain ⟨-, hout, hlt, -⟩ := hbounds
  have hlen : (s.hN.extractLsb' 0 63).toNat = s.hN.toNat := by
    simp only [BitVec.extractLsb'_toNat, Nat.shiftRight_zero]
    omega
  have hN : (s.hN.extractLsb' 0 63).setWidth 64 = s.hN := BitVec.eq_of_toNat_eq (by
    rw [BitVec.toNat_setWidth, hlen]
    omega)
  have htake : takeHeader true (s.hN.extractLsb' 0 63) s = .next s := by
    rcases takeHeader_cases true (s.hN.extractLsb' 0 63) s with ⟨hover, -⟩ | ⟨-, ht⟩
    · omega
    · rw [ht, hN, ← hflag, ← hip, ← hop]
      cases s
      simp_all
  rw [execHdrVerbatim, htake, andThen_next, if_pos hp]

theorem safe_copyVerbatim {s : State} (hmem : MemInv s) (hbounds : DecodeInv s) : Safe (copyVerbatim s) := by
  obtain ⟨hin, hout, -⟩ := hbounds
  unfold copyVerbatim
  split
  · exact safe_raise hmem .invalidFrame
  · have hfit : s.inBytes 8 s.hN.toNat = [] ∨ 0 + (s.inBytes 8 s.hN.toNat).length ≤ s.outSize.toNat :=
      .inr (by simpa using hout)
    rw [withIn_of_fits _ (.inr (by omega)), putOut_of_fits hfit, andThen_next]
    exact safe_execDecDone (hmem.storeOut hfit)

/-- A long form decodes to its instruction, with some length. -/
theorem decodeLength_eq_ok {mk : BitVec 16 → Instr} {bs rest : List Byte} {i : Instr}
    (h : decodeLength mk bs = .ok (i, rest)) : ∃ len, i = mk len := by
  unfold decodeLength at h
  split at h
  · cases h
    exact ⟨_, rfl⟩
  · cases h

/-- What a control byte decodes to runs as a literal segment or as a zero segment of some count (30_encoding.md R64). -/
theorem exec_of_decodeBody {bs rest : List Byte} {i : Instr} (h : decodeBody bs = .ok (i, rest)) :
    ∃ c, exec i = copyLiterals c ∨ exec i = fillZeros c := by
  unfold decodeBody at h
  split at h
  · cases h
  split at h
  · obtain ⟨len, rfl⟩ := decodeLength_eq_ok h
    exact ⟨len.toNat, .inl rfl⟩
  split at h
  · cases h
    exact ⟨_, .inl rfl⟩
  split at h
  · obtain ⟨len, rfl⟩ := decodeLength_eq_ok h
    exact ⟨len.toNat, .inr rfl⟩
  · cases h
    exact ⟨_, .inr rfl⟩

/-- A cursor that stays at or below a register's value does not wrap. -/
theorem toNat_add_ofNat_of_le {x y : Word} {c : Nat} (h : x.toNat + c ≤ y.toNat) :
    (x + BitVec.ofNat 64 c).toNat = x.toNat + c := by
  rw [BitVec.toNat_add, BitVec.toNat_ofNat]
  omega

/-- The control-byte loop of a decode. -/
structure InBody (s : State) : Prop where
  mem : MemInv s
  status : StatusInv s
  phase : s.phase = .decBody
  bounds : DecodeInv s
  compressed : s.hflag = false

namespace InBody

variable {s : State}

theorem invariant (h : InBody s) : Invariant s := ⟨h.mem, h.status, (phaseInv_decBody h.phase).2 ⟨h.bounds, h.compressed⟩⟩

theorem safe_copyLiterals (h : InBody s) (c : Nat) : Safe (copyLiterals c s) := by
  obtain ⟨hin, hout, hlt, hhead, hip, hop⟩ := h.bounds
  unfold copyLiterals
  split
  · exact safe_raiseInBody h.mem .invalidFrame
  split
  · exact safe_raiseInBody h.mem .invalidFrame
  · next hleft hroom =>
    have hleft := Nat.le_of_not_gt hleft
    have hroom := Nat.le_of_not_gt hroom
    have hip' := toNat_add_ofNat_of_le hleft
    have hop' := toNat_add_ofNat_of_le hroom
    have hfit : s.inBytes s.ip.toNat c = [] ∨ s.op.toNat + (s.inBytes s.ip.toNat c).length ≤ s.outSize.toNat :=
      .inr (by rw [inBytes_length]; omega)
    rw [withIn_of_fits _ (.inr (by omega)), putOut_of_fits hfit, andThen_next]
    have hbounds : DecodeInv { s with ip := s.ip + BitVec.ofNat 64 c, op := s.op + BitVec.ofNat 64 c } :=
      ⟨hin, hout, hlt, (Nat.le_add_right_of_le hhead).trans hip'.ge, hip'.le.trans hleft, hop'.le.trans hroom⟩
    exact .next (InBody.invariant ⟨h.mem.storeOut hfit, h.status, h.phase, hbounds, h.compressed⟩)

theorem safe_fillZeros (h : InBody s) (c : Nat) : Safe (fillZeros c s) := by
  obtain ⟨hin, hout, hlt, hhead, hip, hop⟩ := h.bounds
  unfold fillZeros
  split
  · exact safe_raiseInBody h.mem .invalidFrame
  · next hroom =>
    have hroom := Nat.le_of_not_gt hroom
    have hop' := toNat_add_ofNat_of_le hroom
    have hfit : List.replicate c (0 : Byte) = [] ∨ s.op.toNat + (List.replicate c (0 : Byte)).length ≤ s.outSize.toNat :=
      .inr (by rw [List.length_replicate]; omega)
    rw [putOut_of_fits hfit, andThen_next]
    have hbounds : DecodeInv { s with op := s.op + BitVec.ofNat 64 c } :=
      ⟨hin, hout, hlt, hhead, hip, hop'.le.trans hroom⟩
    exact .next (InBody.invariant ⟨h.mem.storeOut hfit, h.status, h.phase, hbounds, h.compressed⟩)

/-- Past bytes of the body that lie below IN_LEN. -/
theorem skip (h : InBody s) {c : Nat} (hleft : s.ip.toNat + c ≤ s.inLen.toNat) :
    InBody { s with ip := s.ip + BitVec.ofNat 64 c } := by
  obtain ⟨hin, hout, hlt, hhead, hip, hop⟩ := h.bounds
  have hip' := toNat_add_ofNat_of_le hleft
  have hbounds : DecodeInv { s with ip := s.ip + BitVec.ofNat 64 c } :=
    ⟨hin, hout, hlt, (Nat.le_add_right_of_le hhead).trans hip'.ge, hip'.le.trans hleft, hop⟩
  exact ⟨h.mem, h.status, h.phase, hbounds, h.compressed⟩

theorem safe_stepBody (h : InBody s) : Safe (stepBody s) := by
  obtain ⟨hin, -, -, -, hip, -⟩ := h.bounds
  unfold stepBody
  dsimp only
  split
  · next hend =>
    have hrun := (statusInv_iff_of_running (by rw [h.phase]; rfl)).1 h.status
    have hall : s.ip = s.inLen := BitVec.eq_of_toNat_eq (Nat.le_antisymm hip hend)
    exact .next ⟨h.mem, (statusInv_iff_of_running rfl).2 hrun, (phaseInv_decCheck rfl).2 ⟨h.bounds, h.compressed, hall⟩⟩
  · next hleft =>
    rw [withIn_of_fits _ (.inr (by omega)), withIn_of_fits _ (.inr (by omega))]
    split
    · next i rest hdecode =>
      obtain ⟨c, hexec | hexec⟩ := exec_of_decodeBody hdecode
      · exact hexec ▸ (h.skip (by omega)).safe_copyLiterals c
      · exact hexec ▸ (h.skip (by omega)).safe_fillZeros c
    · exact safe_raiseInBody h.mem .invalidFrame

end InBody

theorem safe_execDecCheck {s : State} (h : MemInv s) : Safe (execDecCheck s) := by
  unfold execDecCheck
  split
  · exact safe_raiseInBody h .invalidFrame
  · exact safe_execDecDone h

end Sys2Proof.Machine
end

section
/-! PROOFS. The host's moves on the memories (10_state.md R23; 20_memory.md R51, R52): when each is answered, and with what. -/

namespace Sys2Proof.Machine

/-! ### The accesses -/

section
variable {s t : State} {a : Word} {bs : List Byte}

/-- An access under a guard answers exactly when the guard holds. -/
theorem guarded_eq_next_iff {c : Prop} [Decidable c] {u : State} {e : Fault} :
    (if c then .next u else .fault e : Result) = .next t ↔ c ∧ t = u := by
  by_cases hc : c <;> simp [hc, eq_comm]

/-- One byte fits exactly below the size. -/
theorem fits_one_iff {size x : Nat} : fits size x 1 = true ↔ x < size := by
  simp only [fits_iff, Nat.one_ne_zero, false_or, Nat.succ_le_iff]

theorem hostWriteIn_eq_next_iff : hostWriteIn a bs s = .next t ↔
    (s.status.busy = false ∧ fits s.inSize.toNat a.toNat bs.length = true) ∧ t = s.storeIn a.toNat bs := by
  rw [hostWriteIn, whileNotBusy_eq_next_iff, guarded_eq_next_iff, and_assoc]

theorem hostReadIn_eq_next_iff : hostReadIn a s = .next t ↔
    (s.status.busy = false ∧ a.toNat < s.inSize.toNat) ∧ t = { s with readData := (s.inByte a.toNat).setWidth 64 } := by
  rw [hostReadIn, whileNotBusy_eq_next_iff, withIn_eq_next_iff, ← fits_iff, fits_one_iff, and_assoc, Host.Outcome.next.injEq,
    eq_comm (b := t)]

theorem hostWriteOut_eq_next_iff : hostWriteOut a bs s = .next t ↔
    (s.status.busy = false ∧ fits s.outSize.toNat a.toNat bs.length = true) ∧ t = s.storeOut a.toNat bs := by
  rw [hostWriteOut, whileNotBusy_eq_next_iff, putOut, guarded_eq_next_iff, and_assoc]

theorem hostReadOut_eq_next_iff : hostReadOut a s = .next t ↔
    (s.status.busy = false ∧ a.toNat < s.outSize.toNat) ∧ t = { s with readData := (s.outByte a.toNat).setWidth 64 } := by
  rw [hostReadOut, whileNotBusy_eq_next_iff, guarded_eq_next_iff, fits_one_iff, and_assoc]

end

/-! ### The moves -/

section
variable {s t : State} {a : Word} {bs : List Byte} {rest : List HostMove}

theorem hostAllowed_writeIn (h : s.host = .writeIn a bs :: rest) :
    HostAllowed s ↔ s.status.busy = false ∧ fits s.inSize.toNat a.toNat bs.length = true := by
  simp only [HostAllowed, h]

theorem hostAllowed_readIn (h : s.host = .readIn a :: rest) :
    HostAllowed s ↔ s.status.busy = false ∧ a.toNat < s.inSize.toNat := by
  simp only [HostAllowed, h]

theorem hostAllowed_writeOut (h : s.host = .writeOut a bs :: rest) :
    HostAllowed s ↔ s.status.busy = false ∧ fits s.outSize.toNat a.toNat bs.length = true := by
  simp only [HostAllowed, h]

theorem hostAllowed_readOut (h : s.host = .readOut a :: rest) :
    HostAllowed s ↔ s.status.busy = false ∧ a.toNat < s.outSize.toNat := by
  simp only [HostAllowed, h]

theorem step_writeIn_eq_next_iff (h : s.host = .writeIn a bs :: rest) :
    step s = .next t ↔ HostAllowed s ∧ t = { s with host := rest }.storeIn a.toNat bs := by
  rw [hostAllowed_writeIn h]
  simp only [step, advance, h]
  exact hostWriteIn_eq_next_iff

theorem step_readIn_eq_next_iff (h : s.host = .readIn a :: rest) :
    step s = .next t ↔ HostAllowed s ∧ t = { s with host := rest, readData := (s.inByte a.toNat).setWidth 64 } := by
  rw [hostAllowed_readIn h]
  simp only [step, advance, h]
  exact hostReadIn_eq_next_iff

theorem step_writeOut_eq_next_iff (h : s.host = .writeOut a bs :: rest) :
    step s = .next t ↔ HostAllowed s ∧ t = { s with host := rest }.storeOut a.toNat bs := by
  rw [hostAllowed_writeOut h]
  simp only [step, advance, h]
  exact hostWriteOut_eq_next_iff

theorem step_readOut_eq_next_iff (h : s.host = .readOut a :: rest) :
    step s = .next t ↔ HostAllowed s ∧ t = { s with host := rest, readData := (s.outByte a.toNat).setWidth 64 } := by
  rw [hostAllowed_readOut h]
  simp only [step, advance, h]
  exact hostReadOut_eq_next_iff

theorem step_reset (h : s.host = .reset :: rest) : step s = .next { s with host := rest }.resetCore := by
  simp only [step, advance, h]

/-- While BUSY none of the four is a move of the model (20_memory.md R52; log 10). -/
theorem step_refused_of_busy {mv : HostMove} (hmv : mv ∈ [HostMove.writeIn a bs, .readIn a, .writeOut a bs, .readOut a])
    (h : s.host = mv :: rest) (hbusy : s.status.busy = true) : step s = .refused .hostMemoryWhileBusy := by
  have hrefused (f : Result) : whileNotBusy { s with host := rest } f = .refused .hostMemoryWhileBusy := if_pos hbusy
  simp only [List.mem_cons, List.not_mem_nil, or_false] at hmv
  rcases hmv with rfl | rfl | rfl | rfl <;> simp only [step, advance, h] <;> exact hrefused _

end

/-! ### What a store reads as -/

/-- What a stored byte string reads as, and that every other byte of IN reads as before. -/
theorem inByte_storeIn (s : State) (a : Nat) (bs : List Byte) (x : Nat) :
    (s.storeIn a bs).inByte x = if a ≤ x ∧ x < a + bs.length then bs[x - a]?.getD 0 else s.inByte x := by
  simp only [State.inByte, State.storeIn_inMem, Memory.read_writeBytes]
  split
  · next h =>
    have hlt : x - a < bs.length := by omega
    simp [hlt]
  · rfl

theorem inBytes_storeIn_same (s : State) (a : Nat) (bs : List Byte) : (s.storeIn a bs).inBytes a bs.length = bs := by
  refine List.ext_getElem? fun i => ?_
  rw [inBytes_getElem?, inByte_storeIn]
  split
  · next hlt => simp [hlt]
  · next hge => simp [List.getElem?_eq_none (Nat.le_of_not_gt hge)]

theorem outBytes_storeOut_same (s : State) (a : Nat) (bs : List Byte) : (s.storeOut a bs).outBytes a bs.length = bs := by
  refine List.ext_getElem? fun i => ?_
  rw [outBytes_getElem?, outByte_storeOut]
  split
  · next hlt => simp [hlt]
  · next hge => simp [List.getElem?_eq_none (Nat.le_of_not_gt hge)]

/-- Settles O49: a move is refused while BUSY, and answered where the memory has its offsets. -/
theorem hostMemoryMovesNeedAnIdleCore : Obligations.HostMemoryMovesNeedAnIdleCore := by
  intro s rest a bs
  refine ⟨fun mv hmv => step_refused_of_busy hmv, fun h hidle hfit => ?_, fun h hidle hfit => ?_, fun h hidle hin => ?_,
    fun h hidle hout => ?_⟩
  · have hallowed := (hostAllowed_writeIn h).2 ⟨hidle, fits_iff.2 (.inr hfit)⟩
    refine ⟨_, (step_writeIn_eq_next_iff h).2 ⟨hallowed, rfl⟩, rfl, inBytes_storeIn_same _ _ _, fun x hx => ?_⟩
    rw [inByte_storeIn, if_neg (by omega)]
    rfl
  · have hallowed := (hostAllowed_writeOut h).2 ⟨hidle, fits_iff.2 (.inr hfit)⟩
    refine ⟨_, (step_writeOut_eq_next_iff h).2 ⟨hallowed, rfl⟩, rfl, outBytes_storeOut_same _ _ _, fun x hx => ?_⟩
    exact outByte_storeOut_outside hx
  · exact (step_readIn_eq_next_iff h).2 ⟨(hostAllowed_readIn h).2 ⟨hidle, hin⟩, rfl⟩
  · exact (step_readOut_eq_next_iff h).2 ⟨(hostAllowed_readOut h).2 ⟨hidle, hout⟩, rfl⟩

end Sys2Proof.Machine
end

section
/-! PROOFS. The commands and the host's moves keep the invariant (44_commands.md; 20_memory.md R52), and so does every step. -/

namespace Sys2Proof.Machine

/-! ### The core -/

/-- A step of the core, in every phase. -/
theorem safe_coreStep {s : State} (h : Invariant s) : Safe (coreStep s) := by
  obtain ⟨hmem, hstatus, hphase⟩ := h
  cases hp : s.phase
  case idle => exact coreStep_of_not_running (.inl hp) ▸ .next ⟨hmem, hstatus, hphase⟩
  case done => exact coreStep_of_not_running (.inr hp) ▸ .next ⟨hmem, hstatus, hphase⟩
  case encMain =>
    rw [coreStep_encMain hp]
    exact Encoding.safe_stepMain ⟨hmem, hstatus, hp, (phaseInv_encMain hp).1 hphase⟩
  case encTail =>
    obtain ⟨hcounts, htail⟩ := (phaseInv_encTail hp).1 hphase
    rw [coreStep_encTail hp]
    exact Encoding.safe_stepTail ⟨hmem, hstatus, hp, hcounts⟩ htail
  case encFinal =>
    obtain ⟨hcounts, hit⟩ := (phaseInv_encFinal hp).1 hphase
    rw [coreStep_encFinal hp]
    exact Encoding.safe_execEncFinal ⟨hmem, hstatus, hp, hcounts⟩ hit
  case encFallback =>
    obtain ⟨hcounts, -⟩ := (phaseInv_encFallback hp).1 hphase
    rw [coreStep_encFallback hp]
    exact Encoding.safe_stepFallback ⟨hmem, hstatus, hp, hcounts⟩
  case decHeader =>
    rw [coreStep_decHeader hp]
    exact safe_execDecHeader hmem hstatus hp ((phaseInv_decHeader hp).1 hphase)
  case decVerbatim =>
    obtain ⟨hbounds, hflag, hip, hop⟩ := (phaseInv_decVerbatim hp).1 hphase
    rw [coreStep_decVerbatim hp,
      show exec (.hdrVerbatim _) s = _ from execHdrVerbatim_eq_copyVerbatim hp hbounds hflag hip hop]
    exact safe_copyVerbatim hmem hbounds
  case decBody =>
    obtain ⟨hbounds, hflag⟩ := (phaseInv_decBody hp).1 hphase
    have hstep : coreStep s = stepBody s := by simp only [coreStep, hp]
    exact hstep ▸ InBody.safe_stepBody ⟨hmem, hstatus, hp, hbounds, hflag⟩
  case decCheck =>
    rw [coreStep_decCheck hp]
    exact safe_execDecCheck hmem

/-! ### Register accesses -/

/-- A write of CTRL or IN_LEN is ignored while BUSY, and meets an idle core otherwise (44_commands.md R210, R215). -/
theorem safe_unlessBusy {s : State} (h : Invariant s) {act : State → Result} (hact : s.status.busy = false → Safe (act s)) :
    Safe (unlessBusy s act) := by
  rcases unlessBusy_cases s act with ⟨-, hskip⟩ | ⟨hidle, hmeet⟩
  · exact hskip ▸ .next h
  · exact hmeet ▸ hact hidle

/-- The start checks give the encode its bounds (60_exceptions.md R246). -/
theorem safe_execCmdCompress {s : State} (h : Invariant s) (ign : BitVec 56) : Safe (execCmdCompress ign s) := by
  refine safe_unlessBusy h fun _ => ?_
  have hmem : MemInv s.accept := h.1
  dsimp only
  split
  · exact safe_raise hmem .length
  split
  · exact safe_raise hmem .capacity
  split
  · exact safe_raise hmem .capacity
  · next hlen hin hout =>
    have hcounts : EncodeInv s.accept.started := ⟨rfl, Nat.lt_of_not_ge hlen, Nat.le_of_not_gt hin, Nat.le_of_not_gt hout,
      Nat.zero_le _, .inl rfl, fun hne => absurd rfl hne, Nat.le_refl 8, Nat.le_refl 8⟩
    have hmem' : MemInv s.accept.started := hmem.storeOut (.inr (by simp at hout ⊢; omega))
    rw [execEncStart_eq (by omega)]
    exact .next ⟨hmem', (statusInv_iff_of_running rfl).2 ⟨rfl, rfl⟩, hcounts⟩

theorem safe_execCmdDecompress {s : State} (h : Invariant s) (ign : BitVec 56) : Safe (execCmdDecompress ign s) := by
  refine safe_unlessBusy h fun _ => ?_
  have hmem : MemInv s.accept := h.1
  dsimp only
  split
  · exact safe_raise hmem .capacity
  · next hin =>
    exact .next ⟨hmem, (statusInv_iff_of_running rfl).2 ⟨rfl, rfl⟩, (phaseInv_decHeader rfl).2 (Nat.le_of_not_gt hin)⟩

/-- No phase of an idle core speaks of IN_LEN. -/
theorem safe_execWriteInLen {s : State} (h : Invariant s) (v : Word) : Safe (execWriteInLen v s) := by
  refine safe_unlessBusy h fun hidle => ?_
  obtain ⟨hmem, hstatus, -⟩ := h
  exact .next ⟨hmem, hstatus, .of_not_running (hstatus.not_running hidle)⟩

/-- A rejected command ends at once and reports BAD_COMMAND (44_commands.md R214). -/
theorem safe_execCmdReserved {s : State} (h : Invariant s) (c : Byte) (ign : BitVec 56) : Safe (execCmdReserved c ign s) :=
  safe_unlessBusy h fun _ => .next (invariant_close_error (s := s) h.1 .badCommand s.outLen)

/-- The instructions a register write decodes to (44_commands.md R210, R216, R218). -/
theorem decodeRegWrite_cases (i v : Word) :
    (∃ ign, decodeRegWrite i v = .cmdNop ign) ∨ (∃ ign, decodeRegWrite i v = .cmdCompress ign) ∨
    (∃ ign, decodeRegWrite i v = .cmdDecompress ign) ∨ (∃ c ign, decodeRegWrite i v = .cmdReserved c ign) ∨
    decodeRegWrite i v = .writeInLen v ∨ decodeRegWrite i v = .writeIgnored i v := by
  unfold decodeRegWrite decodeCommand
  split
  · dsimp only
    split
    · exact .inl ⟨_, rfl⟩
    split
    · exact .inr (.inl ⟨_, rfl⟩)
    split
    · exact .inr (.inr (.inl ⟨_, rfl⟩))
    · exact .inr (.inr (.inr (.inl ⟨_, _, rfl⟩)))
  split
  · exact .inr (.inr (.inr (.inr (.inl rfl))))
  · exact .inr (.inr (.inr (.inr (.inr rfl))))

theorem safe_exec_decodeRegWrite {s : State} (h : Invariant s) (i v : Word) : Safe (exec (decodeRegWrite i v) s) := by
  rcases decodeRegWrite_cases i v with ⟨ign, hi⟩ | ⟨ign, hi⟩ | ⟨ign, hi⟩ | ⟨c, ign, hi⟩ | hi | hi <;> rw [hi]
  · exact safe_unlessBusy h fun _ => .next h
  · exact safe_execCmdCompress h ign
  · exact safe_execCmdDecompress h ign
  · exact safe_execCmdReserved h c ign
  · exact safe_execWriteInLen h v
  · exact .next h

/-! ### The host -/

/-- A reset keeps IN, and of OUT at most forgets (70_reset_and_hazards.md R270, R271). -/
theorem invariant_resetCore {s : State} (h : Invariant s) : Invariant s.resetCore := by
  obtain ⟨hmem, -, -⟩ := h
  obtain ⟨-, hstatus, hphase⟩ := invariant_powerOn s.inSize s.outSize
  unfold State.resetCore
  dsimp only
  split
  · exact ⟨hmem.loseOut _ _, hstatus, hphase⟩
  · exact ⟨hmem, hstatus, hphase⟩

/-- A store changes no register, so it keeps what the invariant says of STATUS and of the phase. -/
theorem Invariant.storeIn {s : State} (h : Invariant s) {a : Nat} {bs : List Byte}
    (hfit : bs = [] ∨ a + bs.length ≤ s.inSize.toNat) : Invariant (s.storeIn a bs) :=
  ⟨h.1.storeIn hfit, h.2⟩

theorem Invariant.storeOut {s : State} (h : Invariant s) {a : Nat} {bs : List Byte}
    (hfit : bs = [] ∨ a + bs.length ≤ s.outSize.toNat) : Invariant (s.storeOut a bs) :=
  ⟨h.1.storeOut hfit, h.2⟩

/-- A byte string that fits lies inside the memory, or is empty. -/
theorem eq_nil_or_le_of_fits {size a : Nat} {bs : List Byte} (h : fits size a bs.length = true) :
    bs = [] ∨ a + bs.length ≤ size :=
  (fits_iff.1 h).imp_left List.eq_nil_of_length_eq_zero

/-- A step with a move of the host that the spec gives it, or with none. -/
theorem safe_step {s : State} (h : Invariant s) (hhost : HostAllowed s) : Safe (step s) := by
  rcases hmoves : s.host with _ | ⟨move, rest⟩
  · exact step_of_host_nil hmoves ▸ safe_coreStep h
  have hrest := h.withHost rest
  cases move with
  | writeReg i v => exact step_writeReg hmoves ▸ safe_exec_decodeRegWrite hrest i v
  | readReg i => exact step_readReg hmoves ▸ .next (hrest.withReadData (s.readReg i))
  | writeIn a bs =>
    have hfit := ((hostAllowed_writeIn hmoves).1 hhost).2
    exact ⟨_, (step_writeIn_eq_next_iff hmoves).2 ⟨hhost, rfl⟩, hrest.storeIn (eq_nil_or_le_of_fits hfit)⟩
  | readIn a => exact ⟨_, (step_readIn_eq_next_iff hmoves).2 ⟨hhost, rfl⟩, hrest.withReadData _⟩
  | writeOut a bs =>
    have hfit := ((hostAllowed_writeOut hmoves).1 hhost).2
    exact ⟨_, (step_writeOut_eq_next_iff hmoves).2 ⟨hhost, rfl⟩, hrest.storeOut (eq_nil_or_le_of_fits hfit)⟩
  | readOut a => exact ⟨_, (step_readOut_eq_next_iff hmoves).2 ⟨hhost, rfl⟩, hrest.withReadData _⟩
  | reset => exact step_reset hmoves ▸ .next (invariant_resetCore hrest)
  | pass => exact step_pass hmoves ▸ safe_coreStep hrest
  | wait =>
    rw [step_wait hmoves]
    split
    · exact safe_coreStep h
    · exact .next hrest

/-- The step answers only where the host's move is one the spec gives it: any other is refused or faults. -/
theorem hostAllowed_of_step_eq_next {s t : State} (h : step s = .next t) : HostAllowed s := by
  rcases hmoves : s.host with _ | ⟨move, rest⟩
  · simp only [HostAllowed, hmoves]
  cases move with
  | writeIn a bs => exact ((step_writeIn_eq_next_iff hmoves).1 h).1
  | readIn a => exact ((step_readIn_eq_next_iff hmoves).1 h).1
  | writeOut a bs => exact ((step_writeOut_eq_next_iff hmoves).1 h).1
  | readOut a => exact ((step_readOut_eq_next_iff hmoves).1 h).1
  | writeReg | readReg | reset | pass | wait => simp only [HostAllowed, hmoves]

/-- Settles O57: with a move the spec gives the host, or none, the step is safe. -/
theorem invariantStatesAlwaysStep : Obligations.InvariantStatesAlwaysStep := by
  intro s h hhost
  obtain ⟨t, ht, -⟩ := safe_step h hhost
  exact ⟨t, ht⟩

/-- Settles O56: a step that answers had an allowed move, so it is safe. -/
theorem everyStepKeepsTheInvariant : Obligations.EveryStepKeepsTheInvariant := by
  intro s t h ht
  obtain ⟨u, hu, hinv⟩ := safe_step h (hostAllowed_of_step_eq_next ht)
  cases ht.symm.trans hu
  exact hinv

end Sys2Proof.Machine
end

section
/-! PROOFS. The core never writes IN and never reads OUT (20_memory.md R49): each operation of the core answers alike from two
states that differ in OUT alone. -/

namespace Sys2Proof.Machine

/-! ### Answers from two states that differ in OUT alone -/

/-- The same state with another OUT. -/
def State.withOut (s : State) (om : Memory) (lost : List (Nat × Nat)) : State := { s with outMem := om, outLost := lost }

/-- The answers to `s` and `s'` are the same but for old bytes of OUT, and IN is as it was. -/
def Alike (s s' : State) (o o' : Result) : Prop := SameButOldOut s s' o o' ∧ ∀ t, o = .next t → t.inMem = s.inMem

/-- An operation that never writes IN and never reads OUT. -/
def Blind (f : State → Result) : Prop := ∀ s om lost, Alike s (s.withOut om lost) (f s) (f (s.withOut om lost))

theorem alike_fault (s s' : State) (e : Fault) : Alike s s' (.fault e) (.fault e) := ⟨rfl, fun _ h => by cases h⟩

/-- Two operations one after the other: a byte of OUT that the second leaves is what the first made of it. -/
theorem Alike.trans {s s' t t' : State} {o o' : Result} (ht : Alike s s' (.next t) (.next t')) (ho : Alike t t' o o') :
    Alike s s' o o' := by
  obtain ⟨⟨-, ⟨lost₁, hl₁, hl₁'⟩, hbyte₁⟩, hin₁⟩ := ht
  obtain ⟨hsame, hin₂⟩ := ho
  refine ⟨?_, fun u hu => (hin₂ u hu).trans (hin₁ t rfl)⟩
  cases o <;> cases o'
  any_goals exact hsame
  obtain ⟨hrest, ⟨lost₂, hl₂, hl₂'⟩, hbyte₂⟩ := hsame
  refine ⟨hrest, ⟨lost₂ ++ lost₁, ?_, ?_⟩, fun a => ?_⟩
  · rw [hl₂, hl₁, List.append_assoc]
  · rw [hl₂', hl₁', List.append_assoc]
  · rcases hbyte₂ a with hsame | ⟨hold, hold'⟩
    · exact .inl hsame
    · rw [hold, hold']
      exact hbyte₁ a

section
variable {s : State} {om : Memory} {lost : List (Nat × Nat)}

/-- An update of the registers alone. -/
theorem alike_registers {t : State} (hin : t.inMem = s.inMem) (hmem : t.outMem = s.outMem) (hlost : t.outLost = s.outLost) :
    Alike s (s.withOut om lost) (.next t) (.next (t.withOut om lost)) := by
  refine ⟨⟨rfl, ⟨[], hlost, rfl⟩, fun a => .inr ⟨by rw [hmem], rfl⟩⟩, fun u hu => ?_⟩
  cases hu
  exact hin

theorem alike_storeOut (a : Nat) (bs : List Byte) :
    Alike s (s.withOut om lost) (.next (s.storeOut a bs)) (.next ((s.withOut om lost).storeOut a bs)) := by
  refine ⟨⟨rfl, ⟨[], rfl, rfl⟩, fun x => ?_⟩, fun u hu => ?_⟩
  · show (s.outMem.writeBytes a bs).read x = (om.writeBytes a bs).read x ∨
      ((s.outMem.writeBytes a bs).read x = s.outMem.read x ∧ (om.writeBytes a bs).read x = om.read x)
    simp only [Memory.read_writeBytes]
    split
    · exact .inl rfl
    · exact .inr ⟨rfl, rfl⟩
  · cases hu
    rfl

theorem alike_loseOut (lo hi : Nat) :
    Alike s (s.withOut om lost) (.next (s.loseOut lo hi)) (.next ((s.withOut om lost).loseOut lo hi)) := by
  refine ⟨⟨rfl, ⟨[(lo, hi)], rfl, rfl⟩, fun x => ?_⟩, fun u hu => ?_⟩
  · show (s.outMem.forget lo hi).read x = (om.forget lo hi).read x ∨
      ((s.outMem.forget lo hi).read x = s.outMem.read x ∧ (om.forget lo hi).read x = om.read x)
    simp only [Memory.read_forget]
    split
    · exact .inl rfl
    · exact .inr ⟨rfl, rfl⟩
  · cases hu
    rfl

end

theorem Alike.andThen {s s' : State} {o o' : Result} {f f' : State → Result} (ho : Alike s s' o o')
    (hf : ∀ t om lost, Alike t (t.withOut om lost) (f t) (f' (t.withOut om lost))) :
    Alike s s' (andThen o f) (andThen o' f') := by
  have hsame := ho.1
  cases o with
  | next t =>
    cases o' with
    | next t' =>
      obtain ⟨hrest, -⟩ := hsame
      have hnext := hf t t'.outMem t'.outLost
      rw [← show t' = t.withOut t'.outMem t'.outLost from hrest] at hnext
      exact ho.trans hnext
    | fault | refused => exact False.elim hsame
  | fault e =>
    cases o' with
    | fault e' => exact ⟨hsame, fun _ h => by cases h⟩
    | next | refused => exact False.elim hsame
  | refused r =>
    cases o' with
    | refused r' => exact ⟨hsame, fun _ h => by cases h⟩
    | next | fault => exact False.elim hsame

theorem alike_ite {s s' : State} {c : Prop} [Decidable c] {o₁ o₂ o₁' o₂' : Result} (h₁ : Alike s s' o₁ o₁')
    (h₂ : Alike s s' o₂ o₂') : Alike s s' (if c then o₁ else o₂) (if c then o₁' else o₂') := by
  split
  · exact h₁
  · exact h₂

section
variable {s : State} {om : Memory} {lost : List (Nat × Nat)}

/-- A blind operation after an update of the registers. -/
theorem Blind.after {f : State → Result} (hf : Blind f) {t : State} (hin : t.inMem = s.inMem) (hmem : t.outMem = s.outMem)
    (hlost : t.outLost = s.outLost) : Alike s (s.withOut om lost) (f t) (f (t.withOut om lost)) :=
  (alike_registers hin hmem hlost).trans (hf t om lost)

theorem readIn_withOut (a len : Nat) : (s.withOut om lost).readIn a len = s.readIn a len := by
  simp only [State.readIn, inBytes_congr (s := s) (t := s.withOut om lost) rfl]
  rfl

theorem loadWord_withOut (a : Nat) : (s.withOut om lost).loadWord a = s.loadWord a := by
  simp only [State.loadWord, readIn_withOut]

theorem alike_withIn {a len : Nat} {f f' : List Byte → Result} (hf : ∀ bs, Alike s (s.withOut om lost) (f bs) (f' bs)) :
    Alike s (s.withOut om lost) (withIn a len s f) (withIn a len (s.withOut om lost) f') := by
  unfold withIn
  rw [readIn_withOut]
  cases s.readIn a len with
  | none => exact alike_fault ..
  | some bs => exact hf bs

theorem alike_putOut (a : Nat) (bs : List Byte) :
    Alike s (s.withOut om lost) (putOut a bs s) (putOut a bs (s.withOut om lost)) :=
  alike_ite (alike_storeOut a bs) (alike_fault ..)

theorem alike_emit (bs : List Byte) : Alike s (s.withOut om lost) (emit bs s) (emit bs (s.withOut om lost)) :=
  (alike_putOut s.dst.toNat bs).andThen fun _ _ _ => alike_registers rfl rfl rfl

end

/-! ### The operations -/

theorem blind_raise (e : ErrCode) : Blind (raise e) := fun _ _ _ => alike_registers rfl rfl rfl

theorem blind_raiseInBody (e : ErrCode) : Blind (raiseInBody e) := fun s om lost =>
  alike_ite (blind_raise e s om lost) ((alike_loseOut 0 s.hN.toNat).trans (alike_registers rfl rfl rfl))

theorem blind_flushPendingZeros : Blind flushPendingZeros := fun _ _ _ =>
  alike_ite ((alike_emit _).andThen fun _ _ _ => alike_registers rfl rfl rfl) (alike_registers rfl rfl rfl)

theorem blind_flushPendingLiterals : Blind flushPendingLiterals := fun _ _ _ =>
  alike_ite (alike_withIn fun _ => (alike_emit _).andThen fun _ _ _ => alike_registers rfl rfl rfl)
    (alike_registers rfl rfl rfl)

theorem blind_execEncDone : Blind execEncDone := fun s _ _ =>
  (alike_loseOut s.outLen.toNat s.outSize.toNat).trans (alike_registers rfl rfl rfl)

theorem blind_execDecDone : Blind execDecDone := fun _ _ _ => alike_registers rfl rfl rfl

/-! ### The encoder -/

theorem blind_execEncCaseA : Blind execEncCaseA := fun s om lost =>
  (blind_flushPendingLiterals s om lost).andThen fun _ _ _ => alike_registers rfl rfl rfl

theorem blind_flushAndCount : Blind flushAndCount := fun s om lost =>
  (alike_ite (blind_flushPendingLiterals s om lost) (alike_registers rfl rfl rfl)).andThen fun t _ _ =>
    (blind_flushPendingZeros.after (t := { t with zc := t.zc + t.k.setWidth 64 }) rfl rfl rfl).andThen
      fun _ _ _ => alike_registers rfl rfl rfl

/-- Setting the datapath formats. -/
theorem alike_withFormats (s : State) (om : Memory) (lost : List (Nat × Nat)) (w m : Word) (l k r : Byte) :
    Alike s (s.withOut om lost) (.next (s.withFormats w m l k r)) (.next ((s.withFormats w m l k r).withOut om lost)) :=
  alike_registers rfl rfl rfl

theorem classified_withOut (s : State) (om : Memory) (lost : List (Nat × Nat)) :
    (s.withOut om lost).classified = s.classified.withOut om lost := rfl

theorem blind_execEncCaseB : Blind execEncCaseB := fun s om lost => by
  have hclass : Alike s (s.withOut om lost) (.next s.classified) (.next (s.classified.withOut om lost)) :=
    classified_eq s ▸ alike_withFormats ..
  rw [execEncCaseB_eq_flushAndCount, execEncCaseB_eq_flushAndCount, classified_withOut]
  exact hclass.trans (blind_flushAndCount s.classified om lost)

theorem blind_execEncCaseC : Blind execEncCaseC := fun s om lost =>
  (blind_flushPendingZeros s om lost).andThen fun _ _ _ => alike_registers rfl rfl rfl

/-- The word is the same, so its zero bytes select the same case. -/
theorem blind_execEncWord : Blind execEncWord := fun s om lost => by
  have hload : (s.withOut om lost).loadWord (s.withOut om lost).it.toNat = s.loadWord s.it.toNat := loadWord_withOut _
  unfold execEncWord
  rw [hload]
  cases s.loadWord s.it.toNat with
  | none => exact alike_fault ..
  | some w =>
    have hmark : Alike s (s.withOut om lost) (execMarkZeros { s with w := w }) (execMarkZeros { s.withOut om lost with w := w }) :=
      alike_withFormats s om lost w (zeroMask w) s.l s.k s.r
    refine hmark.andThen fun t om lost => ?_
    exact alike_ite (blind_execEncCaseA t om lost)
      (alike_ite (blind_execEncCaseB t om lost) (blind_execEncCaseC t om lost))

theorem blind_stepMain : Blind stepMain := fun s om lost =>
  alike_ite (blind_execEncWord s om lost) (alike_registers rfl rfl rfl)

theorem blind_stepTail : Blind stepTail := fun s om lost =>
  alike_ite
    (alike_withIn fun _ => alike_ite
      ((blind_flushPendingLiterals s om lost).andThen fun _ _ _ => alike_registers rfl rfl rfl)
      ((blind_flushPendingZeros s om lost).andThen fun _ _ _ => alike_registers rfl rfl rfl))
    (alike_registers rfl rfl rfl)

theorem blind_execEncFinal : Blind execEncFinal := fun s om lost =>
  (blind_flushPendingLiterals s om lost).andThen fun t om lost =>
    (blind_flushPendingZeros t om lost).andThen fun _ _ _ => alike_registers rfl rfl rfl

theorem blind_execEncFallback : Blind execEncFallback := fun _ _ _ =>
  (alike_putOut 0 _).andThen fun _ _ _ => alike_withIn fun _ => (alike_putOut 8 _).andThen fun _ _ _ =>
    blind_execEncDone.after rfl rfl rfl

theorem blind_stepFallback : Blind stepFallback := fun s om lost =>
  alike_ite (blind_execEncFallback s om lost) (blind_execEncDone.after rfl rfl rfl)

/-! ### The decoder -/

theorem blind_takeHeader (flag : Bool) (len : BitVec 63) : Blind (takeHeader flag len) := fun _ _ _ =>
  alike_ite ((blind_raise .capacity).after rfl rfl rfl) (alike_registers rfl rfl rfl)

theorem blind_execDecHeader : Blind execDecHeader := fun s om lost => by
  refine alike_ite (blind_raise .invalidFrame s om lost) ?_
  rw [loadWord_withOut (s := s)]
  cases s.loadWord 0 with
  | none => exact alike_fault ..
  | some h => exact blind_takeHeader _ _ s om lost

theorem blind_copyVerbatim : Blind copyVerbatim := fun s om lost =>
  alike_ite (blind_raise .invalidFrame s om lost) (alike_withIn fun _ => (alike_putOut 0 _).andThen fun _ _ _ =>
    blind_execDecDone.after rfl rfl rfl)

theorem blind_execHdrVerbatim (len : BitVec 63) : Blind (execHdrVerbatim len) := fun s om lost =>
  (blind_takeHeader true len s om lost).andThen fun t om lost =>
    alike_ite (blind_copyVerbatim t om lost) (alike_registers rfl rfl rfl)

theorem blind_copyLiterals (c : Nat) : Blind (copyLiterals c) := fun s om lost =>
  alike_ite (blind_raiseInBody .invalidFrame s om lost) (alike_ite (blind_raiseInBody .invalidFrame s om lost)
    (alike_withIn fun _ => (alike_putOut _ _).andThen fun _ _ _ => alike_registers rfl rfl rfl))

theorem blind_fillZeros (c : Nat) : Blind (fillZeros c) := fun s om lost =>
  alike_ite (blind_raiseInBody .invalidFrame s om lost)
    ((alike_putOut _ _).andThen fun _ _ _ => alike_registers rfl rfl rfl)

/-- What a control byte decodes to is a segment, so it is blind too. -/
theorem blind_exec_of_decodeBody {bs rest : List Byte} {i : Instr} (h : decodeBody bs = .ok (i, rest)) : Blind (exec i) := by
  obtain ⟨c, hi | hi⟩ := exec_of_decodeBody h
  · exact hi ▸ blind_copyLiterals c
  · exact hi ▸ blind_fillZeros c

theorem blind_stepBody : Blind stepBody := fun s om lost => by
  refine alike_ite (alike_registers rfl rfl rfl) (alike_withIn fun c => alike_withIn fun b => ?_)
  cases hdecode : decodeBody (c ++ b) with
  | ok r => exact (blind_exec_of_decodeBody hdecode).after rfl rfl rfl
  | error e => exact (blind_raiseInBody .invalidFrame).after rfl rfl rfl

theorem blind_execDecCheck : Blind execDecCheck := fun s om lost =>
  alike_ite (blind_raiseInBody .invalidFrame s om lost) (blind_execDecDone s om lost)

/-! ### The core -/

theorem blind_coreStep : Blind coreStep := fun s om lost => by
  cases hp : s.phase <;> have hp' : (s.withOut om lost).phase = _ := hp <;> simp only [coreStep, hp, hp']
  case idle | done => exact alike_registers rfl rfl rfl
  case encMain => exact blind_stepMain s om lost
  case encTail => exact blind_stepTail s om lost
  case encFinal => exact blind_execEncFinal s om lost
  case encFallback => exact blind_stepFallback s om lost
  case decHeader => exact blind_execDecHeader s om lost
  case decVerbatim => exact blind_execHdrVerbatim _ s om lost
  case decBody => exact blind_stepBody s om lost
  case decCheck => exact blind_execDecCheck s om lost

/-- Settles O54: the step is the core's, and each of its operations is blind. -/
theorem coreNeverWritesInNorReadsOut : Obligations.CoreNeverWritesInNorReadsOut := by
  intro s om lost hhost
  obtain ⟨hsame, hin⟩ := blind_coreStep s om lost
  rw [step_of_host_nil hhost, step_of_host_nil (s := { s with outMem := om, outLost := lost }) hhost]
  exact ⟨hin, hsame⟩

end Sys2Proof.Machine
end

section
/-! PROOFS. The core never reads IN at or beyond IN_LEN (20_memory.md R45): from a state that meets the invariant a step commutes
with a change of the bytes there. -/

namespace Sys2Proof.Machine

/-- The same state with another IN. -/
def State.withInMem (s : State) (im : Memory) : State := { s with inMem := im }

/-- The same answer with another IN in its next state. -/
def setIn (im : Memory) : Result → Result
  | .next t => .next (t.withInMem im)
  | .fault e => .fault e
  | .refused r => .refused r

/-- The two INs hold the same bytes below IN_LEN. -/
def AgreeBelowInLen (s : State) (im : Memory) : Prop := ∀ a, a < s.inLen.toNat → (s.withInMem im).inByte a = s.inByte a

/-! ### Operations that do not read IN -/

/-- An operation that does not read IN: it commutes with any change of IN. -/
def InFree (f : State → Result) : Prop := ∀ im s, f (s.withInMem im) = setIn im (f s)

theorem setIn_andThen {im : Memory} {o o' : Result} {f f' : State → Result} (ho : o' = setIn im o)
    (hf : ∀ t, o = .next t → f' (t.withInMem im) = setIn im (f t)) : andThen o' f' = setIn im (andThen o f) := by
  subst ho
  cases o with
  | next t => exact hf t rfl
  | fault | refused => rfl

theorem setIn_ite {im : Memory} {c : Prop} [Decidable c] {o₁ o₂ o₁' o₂' : Result} (h₁ : c → o₁' = setIn im o₁)
    (h₂ : ¬c → o₂' = setIn im o₂) : (if c then o₁' else o₂') = setIn im (if c then o₁ else o₂) := by
  split
  · next hc => exact h₁ hc
  · next hc => exact h₂ hc

theorem InFree.andThen {f g : State → Result} (hf : InFree f) (hg : InFree g) : InFree fun s => andThen (f s) g :=
  fun im s => setIn_andThen (hf im s) fun t _ => hg im t

theorem inFree_raiseInBody (e : ErrCode) : InFree (raiseInBody e) := fun _ _ => setIn_ite (fun _ => rfl) fun _ => rfl

theorem inFree_putOut (a : Nat) (bs : List Byte) : InFree (putOut a bs) := fun _ _ => setIn_ite (fun _ => rfl) fun _ => rfl

theorem inFree_emit (bs : List Byte) : InFree (emit bs) := fun im s =>
  setIn_andThen (inFree_putOut s.dst.toNat bs im s) fun _ _ => rfl

theorem inFree_flushPendingZeros : InFree flushPendingZeros := fun im s =>
  setIn_ite (fun _ => setIn_andThen (inFree_emit _ im s) fun _ _ => rfl) fun _ => rfl

theorem inFree_execEncCaseC : InFree execEncCaseC := inFree_flushPendingZeros.andThen fun _ _ => rfl

theorem inFree_takeHeader (flag : Bool) (len : BitVec 63) : InFree (takeHeader flag len) := fun _ _ =>
  setIn_ite (fun _ => rfl) fun _ => rfl

theorem inFree_fillZeros (c : Nat) : InFree (fillZeros c) := fun im s =>
  setIn_ite (fun _ => inFree_raiseInBody .invalidFrame im s)
    fun _ => setIn_andThen (inFree_putOut _ _ im s) fun _ _ => rfl

theorem inFree_execDecCheck : InFree execDecCheck := fun im s =>
  setIn_ite (fun _ => inFree_raiseInBody .invalidFrame im s) fun _ => rfl

/-! ### Reads below IN_LEN -/

section
variable {s : State} {im : Memory} (h : AgreeBelowInLen s im)
include h

theorem AgreeBelowInLen.inBytes {a len : Nat} (hend : a + len ≤ s.inLen.toNat) :
    (s.withInMem im).inBytes a len = s.inBytes a len := by
  refine List.ext_getElem? fun i => ?_
  rw [inBytes_getElem?, inBytes_getElem?]
  split
  · rw [h _ (by omega)]
  · rfl

theorem AgreeBelowInLen.readIn {a len : Nat} (hend : a + len ≤ s.inLen.toNat) :
    (s.withInMem im).readIn a len = s.readIn a len := by
  rw [State.readIn, State.readIn, h.inBytes hend]
  rfl

theorem AgreeBelowInLen.withIn {a len : Nat} (hend : a + len ≤ s.inLen.toNat) {f f' : List Byte → Result}
    (hf : ∀ bs, f' bs = setIn im (f bs)) : withIn a len (s.withInMem im) f' = setIn im (withIn a len s f) := by
  unfold Machine.withIn
  rw [h.readIn hend]
  cases s.readIn a len with
  | none => rfl
  | some bs => exact hf bs

theorem AgreeBelowInLen.loadWord {a : Nat} (hend : a + 8 ≤ s.inLen.toNat) :
    (s.withInMem im).loadWord a = s.loadWord a := by
  rw [State.loadWord, State.loadWord, h.readIn hend]

end

/-! ### The encoder -/

section
variable {s : State} {im : Memory} (h : AgreeBelowInLen s im)
  (hpending : s.uc ≠ 0 → s.uPtr.toNat + s.uc.toNat ≤ s.inLen.toNat)
include h hpending

/-- The pending literals lie below IN_LEN. -/
theorem flushPendingLiterals_withInMem : flushPendingLiterals (s.withInMem im) = setIn im (flushPendingLiterals s) := by
  refine setIn_ite (fun hdue => h.withIn (hpending fun h0 => ?_) fun _ => ?_) fun _ => rfl
  · exact absurd ((toNat_eq_zero_iff _).2 h0) (Nat.ne_of_gt hdue)
  · exact setIn_andThen (inFree_emit _ im s) fun _ _ => rfl

theorem execEncCaseA_withInMem : execEncCaseA (s.withInMem im) = setIn im (execEncCaseA s) :=
  setIn_andThen (flushPendingLiterals_withInMem h hpending) fun _ _ => rfl

theorem flushAndCount_withInMem : flushAndCount (s.withInMem im) = setIn im (flushAndCount s) :=
  setIn_andThen (setIn_ite (fun _ => flushPendingLiterals_withInMem h hpending) fun _ => rfl) fun t _ =>
    setIn_andThen (inFree_flushPendingZeros im { t with zc := t.zc + t.k.setWidth 64 }) fun _ _ => rfl

/-- The class of the word is no part of what CASE_B reads of IN. -/
theorem flushAndCount_withFormats_withInMem (w m : Word) (l k r : Byte) :
    flushAndCount ((s.withFormats w m l k r).withInMem im) = setIn im (flushAndCount (s.withFormats w m l k r)) :=
  flushAndCount_withInMem (s := s.withFormats w m l k r) h hpending

theorem execEncCaseB_withInMem : execEncCaseB (s.withInMem im) = setIn im (execEncCaseB s) := by
  have hclass : (s.withInMem im).classified = s.classified.withInMem im := rfl
  rw [execEncCaseB_eq_flushAndCount, execEncCaseB_eq_flushAndCount, hclass, classified_eq]
  exact flushAndCount_withFormats_withInMem h hpending _ _ _ _ _

theorem execEncWord_withInMem (hleft : s.it.toNat + 8 ≤ s.inLen.toNat) :
    execEncWord (s.withInMem im) = setIn im (execEncWord s) := by
  have hload : (s.withInMem im).loadWord (s.withInMem im).it.toNat = s.loadWord s.it.toNat := h.loadWord hleft
  unfold execEncWord
  rw [hload]
  cases s.loadWord s.it.toNat with
  | none => rfl
  | some w =>
    have hmark (u : State) : execMarkZeros { u with w := w } = .next (u.withFormats w (zeroMask w) u.l u.k u.r) := rfl
    refine setIn_andThen (hmark _) fun t ht => ?_
    cases (hmark s).symm.trans ht
    exact setIn_ite (fun _ => execEncCaseA_withInMem (s := s.withFormats ..) h hpending) fun _ =>
      setIn_ite (fun _ => execEncCaseB_withInMem (s := s.withFormats ..) h hpending) fun _ => inFree_execEncCaseC im _

theorem execEncFinal_withInMem : execEncFinal (s.withInMem im) = setIn im (execEncFinal s) :=
  setIn_andThen (flushPendingLiterals_withInMem h hpending) fun t _ =>
    setIn_andThen (inFree_flushPendingZeros im t) fun _ _ => rfl

theorem stepMain_withInMem (hn : s.n = s.inLen) : stepMain (s.withInMem im) = setIn im (stepMain s) :=
  setIn_ite (fun hleft => execEncWord_withInMem h hpending (hn ▸ hleft)) fun _ => rfl

theorem stepTail_withInMem (hn : s.n = s.inLen) : stepTail (s.withInMem im) = setIn im (stepTail s) :=
  setIn_ite (fun hleft => h.withIn (hn ▸ hleft) fun _ => setIn_ite
    (fun _ => setIn_andThen (flushPendingLiterals_withInMem h hpending) fun _ _ => rfl)
    fun _ => setIn_andThen (inFree_flushPendingZeros im s) fun _ _ => rfl) fun _ => rfl

end

section
variable {s : State} {im : Memory} (h : AgreeBelowInLen s im)
include h

/-- The fallback copies the whole input, and nothing beyond it. -/
theorem stepFallback_withInMem (hn : s.n = s.inLen) : stepFallback (s.withInMem im) = setIn im (stepFallback s) := by
  refine setIn_ite (fun _ => setIn_andThen (inFree_putOut 0 _ im s) fun t ht => ?_) fun _ => rfl
  obtain ⟨-, rfl⟩ := putOut_eq_next_iff.1 ht
  have hcopied : AgreeBelowInLen (s.storeOut 0 (bytesLE (headerWord true s.n).toNat 8)) im := h
  refine hcopied.withIn (hn ▸ Nat.le_of_eq (Nat.zero_add _) : 0 + s.n.toNat ≤ s.inLen.toNat) fun bs => ?_
  exact setIn_andThen (inFree_putOut 8 bs im _) fun _ _ => rfl

/-! ### The decoder -/

theorem execDecHeader_withInMem : execDecHeader (s.withInMem im) = setIn im (execDecHeader s) := by
  refine setIn_ite (fun _ => rfl) fun hlen => ?_
  rw [h.loadWord (Nat.le_of_not_lt hlen)]
  cases s.loadWord 0 with
  | none => rfl
  | some w => exact inFree_takeHeader _ _ im s

theorem copyVerbatim_withInMem : copyVerbatim (s.withInMem im) = setIn im (copyVerbatim s) :=
  setIn_ite (fun _ => rfl) fun hlen => h.withIn (Nat.le_of_not_lt hlen) fun bs =>
    setIn_andThen (inFree_putOut 0 bs im s) fun _ _ => rfl

/-- A payload cut short by IN_LEN is not read (43_decoder.md R185, R186). -/
theorem copyLiterals_withInMem (c : Nat) : copyLiterals c (s.withInMem im) = setIn im (copyLiterals c s) :=
  setIn_ite (fun _ => inFree_raiseInBody .invalidFrame im s) fun hlen =>
    setIn_ite (fun _ => inFree_raiseInBody .invalidFrame im s) fun _ => h.withIn (Nat.le_of_not_gt hlen) fun bs =>
      setIn_andThen (inFree_putOut _ bs im s) fun _ _ => rfl

theorem exec_withInMem_of_decodeBody {bs rest : List Byte} {i : Instr} (hi : decodeBody bs = .ok (i, rest)) (ip : Word) :
    exec i { s.withInMem im with ip := ip } = setIn im (exec i { s with ip := ip }) := by
  obtain ⟨c, hexec | hexec⟩ := exec_of_decodeBody hi <;> rw [hexec]
  · exact copyLiterals_withInMem (s := { s with ip := ip }) h c
  · exact inFree_fillZeros c im { s with ip := ip }

/-- The control byte and those of its length bytes that are read lie below IN_LEN (log 17). -/
theorem stepBody_withInMem : stepBody (s.withInMem im) = setIn im (stepBody s) := by
  refine setIn_ite (fun _ => rfl) fun hleft => h.withIn (Nat.lt_of_not_ge hleft) fun c => h.withIn ?_ fun b => ?_
  · show s.ip.toNat + 1 + min _ (s.inLen.toNat - s.ip.toNat - 1) ≤ s.inLen.toNat
    have hleft : s.ip.toNat < s.inLen.toNat := Nat.lt_of_not_ge hleft
    omega
  · cases hdecode : decodeBody (c ++ b) with
    | ok r => exact exec_withInMem_of_decodeBody h hdecode _
    | error e => exact inFree_raiseInBody .invalidFrame im { s with ip := s.ip + 1 }

end

/-! ### The core -/

theorem coreStep_withInMem {s : State} {im : Memory} (h : AgreeBelowInLen s im) (hinv : PhaseInv s) :
    coreStep (s.withInMem im) = setIn im (coreStep s) := by
  have hpending (hcounts : EncodeInv s) (huc : s.uc ≠ 0) : s.uPtr.toNat + s.uc.toNat ≤ s.inLen.toNat := by
    obtain ⟨hn, -, -, -, hit, -, hptr, -⟩ := hcounts
    rw [hptr huc, ← hn]
    exact hit
  cases hp : s.phase <;> have hp' : (s.withInMem im).phase = _ := hp <;> simp only [coreStep, hp, hp']
  case idle | done => rfl
  case encMain =>
    have hcounts := (phaseInv_encMain hp).1 hinv
    exact stepMain_withInMem h (hpending hcounts) hcounts.1
  case encTail =>
    obtain ⟨hcounts, -⟩ := (phaseInv_encTail hp).1 hinv
    exact stepTail_withInMem h (hpending hcounts) hcounts.1
  case encFinal =>
    obtain ⟨hcounts, -⟩ := (phaseInv_encFinal hp).1 hinv
    exact execEncFinal_withInMem h (hpending hcounts)
  case encFallback =>
    obtain ⟨hcounts, -⟩ := (phaseInv_encFallback hp).1 hinv
    exact stepFallback_withInMem h hcounts.1
  case decHeader => exact execDecHeader_withInMem h
  case decVerbatim =>
    obtain ⟨hbounds, hflag, hip, hop⟩ := (phaseInv_decVerbatim hp).1 hinv
    have hcopy : exec (.hdrVerbatim _) s = _ := execHdrVerbatim_eq_copyVerbatim hp hbounds hflag hip hop
    have hcopy' : exec (.hdrVerbatim _) (s.withInMem im) = _ := execHdrVerbatim_eq_copyVerbatim hp' hbounds hflag hip hop
    exact hcopy'.trans ((copyVerbatim_withInMem h).trans (congrArg _ hcopy.symm))
  case decBody => exact stepBody_withInMem h
  case decCheck => exact inFree_execDecCheck im s

/-- Settles O52: the step is the core's, and every byte it reads lies below IN_LEN. -/
theorem coreReadsOnlyItsInput : Obligations.CoreReadsOnlyItsInput := by
  intro s t im hinv hhost hagree ht
  obtain ⟨-, -, hphase⟩ := hinv
  have hcommute := coreStep_withInMem hagree hphase
  rw [← step_of_host_nil hhost, ht] at hcommute
  exact (step_of_host_nil (s := s.withInMem im) hhost).trans hcommute

end Sys2Proof.Machine
end

section
/-! PROOFS. The decoder and the encoder are inverse to each other (30_encoding.md R60 to R65, R71): first each field and each
space on its own, then all instructions, whatever bytes follow. -/

namespace Sys2Proof

/-! ### Little-endian fields -/

/-- A field takes all its bytes, so its value does not wrap. -/
theorem toNat_ofNat_leNat {w : Nat} {bs : List Byte} (hw : w = 8 * bs.length) :
    (BitVec.ofNat w (leNat bs)).toNat = leNat bs := by
  have hlt := leNat_lt bs
  rw [BitVec.toNat_ofNat, hw, Nat.pow_mul]
  exact Nat.mod_eq_of_lt hlt

theorem ofNat_leNat_bytesLE {w len : Nat} (hw : w = 8 * len) (v : Nat) :
    BitVec.ofNat w (leNat (bytesLE v len)) = BitVec.ofNat w v := by
  apply BitVec.eq_of_toNat_eq
  rw [toNat_ofNat_leNat (by rw [bytesLE_length, hw]), leNat_bytesLE, BitVec.toNat_ofNat, hw, Nat.pow_mul]

/-- The field at the head of a byte string, written out again. -/
theorem bytesLE_field {w : Nat} {bs : List Byte} (hw : w = 8 * bs.length) :
    bytesLE (BitVec.ofNat w (leNat bs)).toNat bs.length = bs := by
  rw [toNat_ofNat_leNat hw, bytesLE_leNat]

theorem bytesLE_word_append_drop {bs : List Byte} (h : 8 ≤ bs.length) :
    bytesLE (BitVec.ofNat 64 (leNat (bs.take 8))).toNat 8 ++ bs.drop 8 = bs := by
  have hlen : (bs.take 8).length = 8 := List.length_take_of_le h
  have hfield : bytesLE (BitVec.ofNat 64 (leNat (bs.take 8))).toNat 8 = bs.take 8 := by
    simpa only [hlen] using bytesLE_field (w := 64) (bs := bs.take 8) (by rw [hlen])
  rw [hfield, List.take_append_drop]

theorem exists_toNat_eq {w k : Nat} (h : k < 2 ^ w) : ∃ v : BitVec w, v.toNat = k := ⟨.ofNatLT k h, rfl⟩

theorem bne_zero_iff {w : Nat} {v : BitVec w} : (v != 0) = true ↔ 1 ≤ v.toNat := by
  rw [bne_iff_ne, ne_eq, ← BitVec.toNat_inj, BitVec.ofNat_eq_ofNat, BitVec.toNat_ofNat, Nat.zero_mod]
  omega

/-! ### The length of a long form (30_encoding.md R63) -/

/-- A length that is not cut short takes its two bytes. -/
theorem decodeLength_cons_cons (mk : BitVec 16 → Instr) (b1 b2 : Byte) (rest : List Byte) :
    ∃ s : BitVec 16, decodeLength mk (b1 :: b2 :: rest) = .ok (mk s, rest) ∧ s.toNat = b1.toNat + 256 * b2.toNat ∧
      bytesLE s.toNat 2 = [b1, b2] := by
  have hvalue := toNat_ofNat_leNat (w := 16) (bs := [b1, b2]) rfl
  exact ⟨_, rfl, hvalue, bytesLE_field (w := 16) (bs := [b1, b2]) rfl⟩

theorem decodeLength_of_length_lt {mk : BitVec 16 → Instr} {bs : List Byte} (h : bs.length < 2) :
    decodeLength mk bs = .error .lengthTruncated := by
  match bs, h with
  | [], _ => rfl
  | [_], _ => rfl

theorem decodeLength_bytesLE (mk : BitVec 16 → Instr) (s : BitVec 16) (rest : List Byte) :
    decodeLength mk (bytesLE s.toNat 2 ++ rest) = .ok (mk s, rest) := by
  have hvalue : BitVec.ofNat 16 (leNat (bytesLE s.toNat 2)) = s := by
    rw [ofNat_leNat_bytesLE (len := 2) rfl, BitVec.ofNat_toNat, BitVec.setWidth_eq]
  conv_rhs => rw [← hvalue]
  rfl

theorem decodeLength_ok_bytes {mk : BitVec 16 → Instr} {bs rest : List Byte} {i : Instr}
    (h : decodeLength mk bs = .ok (i, rest)) : ∃ s : BitVec 16, i = mk s ∧ bs = bytesLE s.toNat 2 ++ rest := by
  match bs with
  | [] | [_] => cases h
  | b1 :: b2 :: tail =>
    obtain ⟨s, hok, -, hbytes⟩ := decodeLength_cons_cons mk b1 b2 tail
    rw [hok] at h
    cases h
    exact ⟨s, rfl, by rw [hbytes]; rfl⟩

/-- Settles O3: two bytes are always a length, fewer are none. -/
theorem longFormLengthIsLittleEndian : Obligations.LongFormLengthIsLittleEndian := by
  refine fun mk => ⟨fun b1 b2 rest => ?_, fun bs => decodeLength_of_length_lt⟩
  obtain ⟨s, hok, hvalue, -⟩ := decodeLength_cons_cons mk b1 b2 rest
  exact ⟨s, hok, hvalue⟩

/-! ### Control bytes (30_encoding.md R61, R62, R65) -/

theorem decodeBody_zrunLong {c : Byte} (h : c.toNat = 0x00) (bs : List Byte) :
    decodeBody (c :: bs) = decodeLength .zrunLong bs := by
  simp [decodeBody, h]

theorem decodeBody_litLong {c : Byte} (h : c.toNat = 0x80) (bs : List Byte) :
    decodeBody (c :: bs) = decodeLength .litLong bs := by
  simp [decodeBody, h]

/-- The low seven bits of a control byte are the count of a short form. -/
theorem extractLsb'_count {c : Byte} {v : BitVec 7} (h : c.toNat % 128 = v.toNat) : c.extractLsb' 0 7 = v := by
  apply BitVec.eq_of_toNat_eq
  rw [BitVec.extractLsb'_toNat, Nat.shiftRight_zero]
  exact h

theorem decodeBody_zrunShort {c : Byte} {v : BitVec 7} (h : c.toNat = v.toNat) (hv : 1 ≤ v.toNat) (rest : List Byte) :
    decodeBody (c :: rest) = .ok (.zrunShort v, rest) := by
  have hlt := v.isLt
  rw [decodeBody, if_neg (by omega), if_neg (by omega), if_neg (by omega),
    extractLsb'_count (v := v) (by omega)]

theorem decodeBody_litShort {c : Byte} {n : BitVec 7} (h : c.toNat = 0x80 + n.toNat) (hn : 1 ≤ n.toNat) (rest : List Byte) :
    decodeBody (c :: rest) = .ok (.litShort n, rest) := by
  have hlt := n.isLt
  rw [decodeBody, if_neg (by omega), if_pos (by omega), extractLsb'_count (v := n) (by omega)]

/-- Every control byte is one of the four forms, a short one with its count. -/
theorem controlByte_cases (c : Byte) :
    c.toNat = 0x00 ∨ (∃ v : BitVec 7, c.toNat = v.toNat ∧ 1 ≤ v.toNat) ∨
    c.toNat = 0x80 ∨ ∃ n : BitVec 7, c.toNat = 0x80 + n.toNat ∧ 1 ≤ n.toNat := by
  have hlt := c.isLt
  obtain ⟨v, hv⟩ : ∃ v : BitVec 7, v.toNat = c.toNat % 128 := exists_toNat_eq (by omega)
  by_cases hlow : c.toNat < 0x80
  · by_cases hzero : c.toNat = 0
    · exact .inl hzero
    · exact .inr (.inl ⟨v, by omega, by omega⟩)
  · by_cases hlong : c.toNat = 0x80
    · exact .inr (.inr (.inl hlong))
    · exact .inr (.inr (.inr ⟨v, by omega, by omega⟩))

/-- Settles O2: the four ranges of the control byte select the four forms. -/
theorem everyControlByteIsAnOpcode : Obligations.EveryControlByteIsAnOpcode := by
  refine fun c b1 b2 rest => ⟨fun hc => ?_, fun ⟨hlow, hhigh⟩ => ?_, fun hc => ?_, fun hlow => ?_⟩
  · obtain ⟨s, hok, hvalue, -⟩ := decodeLength_cons_cons .zrunLong b1 b2 rest
    exact ⟨s, (decodeBody_zrunLong hc _).trans hok, hvalue⟩
  · obtain ⟨v, hv⟩ : ∃ v : BitVec 7, v.toNat = c.toNat := exists_toNat_eq (by omega)
    exact ⟨v, decodeBody_zrunShort hv.symm (by omega) rest, hv, by omega⟩
  · obtain ⟨s, hok, hvalue, -⟩ := decodeLength_cons_cons .litLong b1 b2 rest
    exact ⟨s, (decodeBody_litLong hc _).trans hok, hvalue⟩
  · obtain ⟨n, hn⟩ : ∃ n : BitVec 7, n.toNat = c.toNat - 0x80 := exists_toNat_eq (by have := c.isLt; omega)
    exact ⟨n, decodeBody_litShort (by omega) (by omega) rest, hn, by omega⟩

theorem decodeBody_encodes {bs rest : List Byte} {i : Instr} (h : decodeBody bs = .ok (i, rest)) :
    i.wf = true ∧ ∃ e, encode i = some (.body, e) ∧ bs = e ++ rest := by
  match bs with
  | [] => cases h
  | c :: tail =>
    have hbyte : BitVec.ofNat 8 c.toNat = c := by rw [BitVec.ofNat_toNat, BitVec.setWidth_eq]
    rcases controlByte_cases c with hc | ⟨v, hc, hv⟩ | hc | ⟨n, hc, hn⟩
    · rw [decodeBody_zrunLong hc] at h
      obtain ⟨s, rfl, rfl⟩ := decodeLength_ok_bytes h
      exact ⟨rfl, _, rfl, by rw [← hbyte, hc]; rfl⟩
    · rw [decodeBody_zrunShort hc hv] at h
      cases h
      exact ⟨bne_zero_iff.2 hv, _, rfl, by rw [← hc, hbyte]; rfl⟩
    · rw [decodeBody_litLong hc] at h
      obtain ⟨s, rfl, rfl⟩ := decodeLength_ok_bytes h
      exact ⟨rfl, _, rfl, by rw [← hbyte, hc]; rfl⟩
    · rw [decodeBody_litShort hc hn] at h
      cases h
      exact ⟨bne_zero_iff.2 hn, _, rfl, by rw [← hc, hbyte]; rfl⟩

/-! ### Frame headers (30_encoding.md R60) -/

theorem decode_header_bytes (h : Nat) (rest : List Byte) :
    decode .header (bytesLE h 8 ++ rest) = .ok (decodeHeaderWord (BitVec.ofNat 64 h), rest) := by
  simp [decode, List.take_left', List.drop_left', ofNat_leNat_bytesLE (w := 64) (len := 8) rfl]

/-- The top bit of a word is set from the middle of its range on. -/
theorem getLsbD_last {w : Nat} (x : BitVec (w + 1)) : x.getLsbD w = decide (2 ^ w ≤ x.toNat) :=
  (BitVec.msb_eq_getLsbD_last x).symm.trans (BitVec.msb_eq_decide x)

/-- The flag is the upper half of the header's values, and N is the rest of it. -/
theorem decodeHeaderWord_eq (h : Word) :
    decodeHeaderWord h = if 2 ^ 63 ≤ h.toNat then .hdrVerbatim (BitVec.ofNat 63 h.toNat)
      else .hdrCompressed (BitVec.ofNat 63 h.toNat) := by
  have hlength : h.extractLsb' 0 63 = BitVec.ofNat 63 h.toNat := by
    apply BitVec.eq_of_toNat_eq
    rw [BitVec.extractLsb'_toNat, Nat.shiftRight_zero, BitVec.toNat_ofNat]
  have hflag : h.getLsbD 63 = decide (2 ^ 63 ≤ h.toNat) := getLsbD_last h
  simp only [decodeHeaderWord, hlength, hflag, decide_eq_true_eq]

theorem decodeHeaderWord_compressed (n : BitVec 63) : decodeHeaderWord (BitVec.ofNat 64 n.toNat) = .hdrCompressed n := by
  have hlt := n.isLt
  have hvalue : (BitVec.ofNat 64 n.toNat).toNat = n.toNat := Nat.mod_eq_of_lt (by omega)
  rw [decodeHeaderWord_eq, hvalue, if_neg (by omega), BitVec.ofNat_toNat, BitVec.setWidth_eq]

theorem decodeHeaderWord_verbatim (n : BitVec 63) :
    decodeHeaderWord (BitVec.ofNat 64 (n.toNat + 2 ^ 63)) = .hdrVerbatim n := by
  have hlt := n.isLt
  have hvalue : (BitVec.ofNat 64 (n.toNat + 2 ^ 63)).toNat = n.toNat + 2 ^ 63 := by
    rw [BitVec.toNat_ofNat]
    omega
  have hlength : BitVec.ofNat 63 (n.toNat + 2 ^ 63) = n := by
    apply BitVec.eq_of_toNat_eq
    rw [BitVec.toNat_ofNat]
    omega
  rw [decodeHeaderWord_eq, hvalue, if_pos (by omega), hlength]

theorem decodeHeaderWord_encodes (h : Word) :
    (decodeHeaderWord h).wf = true ∧ encode (decodeHeaderWord h) = some (.header, bytesLE h.toNat 8) := by
  have hlt := h.isLt
  rw [decodeHeaderWord_eq]
  split
  · have hvalue : (BitVec.ofNat 63 h.toNat).toNat + 2 ^ 63 = h.toNat := by
      rw [BitVec.toNat_ofNat]
      omega
    exact ⟨rfl, by rw [encode, hvalue]⟩
  · have hvalue : (BitVec.ofNat 63 h.toNat).toNat = h.toNat := Nat.mod_eq_of_lt (by omega)
    exact ⟨rfl, by rw [encode, hvalue]⟩

/-- Settles O4: the flag is the top bit of the last header byte, which is the top bit of the little-endian value. -/
theorem headerSplitsIntoFlagAndLength : Obligations.HeaderSplitsIntoFlagAndLength := by
  intro b0 b1 b2 b3 b4 b5 b6 b7 rest
  have hvalue := toNat_ofNat_leNat (w := 64) (bs := [b0, b1, b2, b3, b4, b5, b6, b7]) rfl
  have hdecode : decode .header (b0 :: b1 :: b2 :: b3 :: b4 :: b5 :: b6 :: b7 :: rest) =
      .ok (decodeHeaderWord (BitVec.ofNat 64 (leNat [b0, b1, b2, b3, b4, b5, b6, b7])), rest) := by
    simp [decode]
  have hflag : b7.getLsbD 7 = decide (2 ^ 63 ≤ leNat [b0, b1, b2, b3, b4, b5, b6, b7]) := by
    rw [getLsbD_last, decide_eq_decide]
    simp only [leNat]
    omega
  refine ⟨BitVec.ofNat 63 (leNat [b0, b1, b2, b3, b4, b5, b6, b7]), ?_, ?_⟩
  · rw [hdecode, decodeHeaderWord_eq, hvalue, hflag]
    simp only [decide_eq_true_eq]
  · rw [BitVec.toNat_ofNat]
    simp only [leNat]
    omega

/-! ### Values written to CTRL (30_encoding.md R71) -/

theorem toNat_commandWord (cmd : Byte) (ign : BitVec 56) :
    (commandWord cmd.toNat ign).toNat = cmd.toNat + 256 * ign.toNat := by
  have hcmd := cmd.isLt
  have hign := ign.isLt
  rw [commandWord, BitVec.toNat_ofNat]
  omega

/-- Every value is its command byte and the 56 bits above it. -/
theorem exists_commandWord (v : Word) : ∃ (cmd : Byte) (ign : BitVec 56), v = commandWord cmd.toNat ign := by
  have hlt := v.isLt
  obtain ⟨cmd, hcmd⟩ : ∃ cmd : Byte, cmd.toNat = v.toNat % 256 := exists_toNat_eq (by omega)
  obtain ⟨ign, hign⟩ : ∃ ign : BitVec 56, ign.toNat = v.toNat / 256 := exists_toNat_eq (by omega)
  refine ⟨cmd, ign, BitVec.eq_of_toNat_eq ?_⟩
  rw [toNat_commandWord]
  omega

theorem decodeCommand_commandWord (cmd : Byte) (ign : BitVec 56) :
    decodeCommand (commandWord cmd.toNat ign) =
      if cmd.toNat = 0x00 then .cmdNop ign
      else if cmd.toNat = 0x01 then .cmdCompress ign
      else if cmd.toNat = 0x02 then .cmdDecompress ign
      else .cmdReserved cmd ign := by
  have hcmd := cmd.isLt
  have hign := ign.isLt
  have hvalue := toNat_commandWord cmd ign
  have hlow : (commandWord cmd.toNat ign).extractLsb' 0 8 = cmd := by
    apply BitVec.eq_of_toNat_eq
    rw [BitVec.extractLsb'_toNat, hvalue, Nat.shiftRight_zero]
    omega
  have hhigh : (commandWord cmd.toNat ign).extractLsb' 8 56 = ign := by
    apply BitVec.eq_of_toNat_eq
    rw [BitVec.extractLsb'_toNat, hvalue, Nat.shiftRight_eq_div_pow]
    omega
  simp only [decodeCommand, hlow, hhigh]

theorem decodeCommand_reserved {cmd : Byte} (h : 3 ≤ cmd.toNat) (ign : BitVec 56) :
    decodeCommand (commandWord cmd.toNat ign) = .cmdReserved cmd ign := by
  rw [decodeCommand_commandWord, if_neg (by omega), if_neg (by omega), if_neg (by omega)]

theorem decodeCommand_encodes (v : Word) :
    (decodeCommand v).wf = true ∧ encode (decodeCommand v) = some (.regWrite, regWriteBytes 0 v.toNat) := by
  obtain ⟨cmd, ign, rfl⟩ := exists_commandWord v
  rw [decodeCommand_commandWord]
  split_ifs with hnop hcompress hdecompress
  · exact ⟨rfl, by rw [hnop]; rfl⟩
  · exact ⟨rfl, by rw [hcompress]; rfl⟩
  · exact ⟨rfl, by rw [hdecompress]; rfl⟩
  · exact ⟨decide_eq_true (by omega), rfl⟩

/-- What a command does does not depend on the ignored bits. -/
theorem exec_decodeCommand_ignored (cmd : Byte) (ign ign' : BitVec 56) (s : Machine.State) :
    Machine.exec (decodeCommand (commandWord cmd.toNat ign)) s =
      Machine.exec (decodeCommand (commandWord cmd.toNat ign')) s := by
  rw [decodeCommand_commandWord, decodeCommand_commandWord]
  split_ifs <;> rfl

/-- Settles O5: a value is its command byte and the ignored bits, and only the command byte selects the meaning. -/
theorem controlWriteSelectsCommand : Obligations.ControlWriteSelectsCommand := by
  intro v
  obtain ⟨cmd, ign, rfl⟩ := exists_commandWord v
  have hcmd := cmd.isLt
  have hvalue := toNat_commandWord cmd ign
  have hlow : (commandWord cmd.toNat ign).toNat % 256 = cmd.toNat := by omega
  have hdecode (w : Word) : decodeRegWrite 0 w = decodeCommand w := rfl
  have hbyte : BitVec.ofNat 8 (commandWord cmd.toNat ign).toNat = cmd := BitVec.eq_of_toNat_eq hlow
  rw [hlow, hbyte]
  simp only [hdecode]
  refine ⟨ign, fun h => ?_, fun h => ?_, fun h => ?_, fun h => decodeCommand_reserved h ign, fun v' s h => ?_⟩
  · rw [decodeCommand_commandWord, if_pos h]
  · rw [decodeCommand_commandWord, if_neg (by omega), if_pos h]
  · rw [decodeCommand_commandWord, if_neg (by omega), if_neg (by omega), if_pos h]
  · obtain ⟨cmd', ign', rfl⟩ := exists_commandWord v'
    have hvalue' := toNat_commandWord cmd' ign'
    have hcmd' := cmd'.isLt
    obtain rfl : cmd' = cmd := BitVec.eq_of_toNat_eq (by omega)
    exact exec_decodeCommand_ignored cmd' ign' ign s

/-! ### Register accesses (10_state.md R11; log 13) -/

theorem decodeRegWrite_encodes (i v : Word) :
    (decodeRegWrite i v).wf = true ∧ encode (decodeRegWrite i v) = some (.regWrite, regWriteBytes i.toNat v.toNat) := by
  unfold decodeRegWrite
  split_ifs with hctrl hinLen
  · rw [hctrl]
    exact decodeCommand_encodes v
  · exact ⟨rfl, by rw [hinLen]; rfl⟩
  · exact ⟨decide_eq_true (by omega), rfl⟩

theorem decodeRegWrite_ignored {i : Word} (h : 2 ≤ i.toNat) (v : Word) : decodeRegWrite i v = .writeIgnored i v := by
  rw [decodeRegWrite, if_neg (by omega), if_neg (by omega)]

theorem decode_regWrite_bytes (i v : Word) (rest : List Byte) :
    decode .regWrite (regWriteBytes i.toNat v.toNat ++ rest) = .ok (decodeRegWrite i v, rest) := by
  have hskip : (bytesLE i.toNat 8 ++ (bytesLE v.toNat 8 ++ rest)).drop 8 = bytesLE v.toNat 8 ++ rest :=
    List.drop_left' (bytesLE_length ..)
  have hrest : (bytesLE i.toNat 8 ++ (bytesLE v.toNat 8 ++ rest)).drop 16 = rest := by
    rw [← List.drop_drop (i := 8) (j := 8), hskip, List.drop_left' (bytesLE_length ..)]
  have hlen : ¬ (bytesLE i.toNat 8 ++ (bytesLE v.toNat 8 ++ rest)).length < 16 := by
    simp only [List.length_append, bytesLE_length]
    omega
  rw [regWriteBytes, List.append_assoc, decode, if_neg hlen, hskip, hrest, List.take_left' (bytesLE_length ..),
    List.take_left' (bytesLE_length ..), ofNat_leNat_bytesLE (len := 8) rfl, ofNat_leNat_bytesLE (len := 8) rfl,
    BitVec.ofNat_toNat, BitVec.setWidth_eq, BitVec.ofNat_toNat, BitVec.setWidth_eq]

/-- A write of register index 0 is a command. -/
theorem decode_command_bytes {v : Word} {i : Instr} (h : decodeCommand v = i) (rest : List Byte) :
    decode .regWrite (regWriteBytes 0 v.toNat ++ rest) = .ok (i, rest) :=
  h ▸ decode_regWrite_bytes 0 v rest

theorem decode_regRead_bytes (i : Word) (rest : List Byte) :
    decode .regRead (bytesLE i.toNat 8 ++ rest) = .ok (.readRegister i, rest) := by
  simp [decode, List.take_left', List.drop_left', ofNat_leNat_bytesLE (w := 64) (len := 8) rfl]

/-! ### All spaces -/

/-- Settles O6: each instruction's bytes are those its space's decoder reads back. -/
theorem decodeOfEncodeGivesInstructionBack : Obligations.DecodeOfEncodeGivesInstructionBack := by
  intro i sp bs rest hwf he
  cases i with
  | zrunLong s =>
    cases he
    exact decodeLength_bytesLE .zrunLong s rest
  | zrunShort v =>
    cases he
    have hlt := v.isLt
    exact decodeBody_zrunShort (Nat.mod_eq_of_lt (by omega)) (bne_zero_iff.1 hwf) rest
  | litLong s =>
    cases he
    exact decodeLength_bytesLE .litLong s rest
  | litShort n =>
    cases he
    have hlt := n.isLt
    exact decodeBody_litShort (Nat.mod_eq_of_lt (by omega)) (bne_zero_iff.1 hwf) rest
  | hdrCompressed n =>
    cases he
    rw [decode_header_bytes, decodeHeaderWord_compressed]
  | hdrVerbatim n =>
    cases he
    rw [decode_header_bytes, decodeHeaderWord_verbatim]
  | cmdNop ign =>
    cases he
    exact decode_command_bytes (decodeCommand_commandWord 0x00 ign) rest
  | cmdCompress ign =>
    cases he
    exact decode_command_bytes (decodeCommand_commandWord 0x01 ign) rest
  | cmdDecompress ign =>
    cases he
    exact decode_command_bytes (decodeCommand_commandWord 0x02 ign) rest
  | cmdReserved cmd ign =>
    cases he
    exact decode_command_bytes (decodeCommand_reserved (of_decide_eq_true hwf) ign) rest
  | writeInLen v =>
    cases he
    exact decode_regWrite_bytes 1 v rest
  | readRegister i =>
    cases he
    exact decode_regRead_bytes i rest
  | writeIgnored i v =>
    cases he
    rw [decode_regWrite_bytes, decodeRegWrite_ignored (of_decide_eq_true hwf)]
  | _ => cases he

/-- Settles O7: each space's decoder takes the bytes of the field it reads. -/
theorem encodeOfDecodeGivesBytesBack : Obligations.EncodeOfDecodeGivesBytesBack := by
  intro i sp bs rest h
  cases sp with
  | body => exact decodeBody_encodes h
  | header =>
    rw [decode] at h
    split at h
    · cases h
    · cases h
      obtain ⟨hwf, he⟩ := decodeHeaderWord_encodes (BitVec.ofNat 64 (leNat (bs.take 8)))
      exact ⟨hwf, _, he, (bytesLE_word_append_drop (by omega)).symm⟩
  | regWrite =>
    rw [decode] at h
    split at h
    · cases h
    · cases h
      obtain ⟨hwf, he⟩ := decodeRegWrite_encodes (BitVec.ofNat 64 (leNat (bs.take 8)))
        (BitVec.ofNat 64 (leNat ((bs.drop 8).take 8)))
      have hvalue := bytesLE_word_append_drop (bs := bs.drop 8) (by rw [List.length_drop]; omega)
      rw [List.drop_drop] at hvalue
      refine ⟨hwf, _, he, ?_⟩
      rw [regWriteBytes, List.append_assoc, hvalue, bytesLE_word_append_drop (by omega)]
  | regRead =>
    rw [decode] at h
    split at h
    · cases h
    · cases h
      exact ⟨rfl, _, rfl, (bytesLE_word_append_drop (by omega)).symm⟩

end Sys2Proof
end

section
/-! PROOFS. Bodies as sequences of segments (30_encoding.md R64, R69, R74): the parser takes exactly the bytes of a well-formed
segment, so a body splits in at most one way. -/

namespace Sys2Proof

/-! ### One segment -/

theorem decodeBody_of_encode {i : Instr} {e : List Byte} (hwf : i.wf = true) (he : encode i = some (.body, e))
    (rest : List Byte) : decodeBody (e ++ rest) = .ok (i, rest) :=
  decodeOfEncodeGivesInstructionBack i .body e rest hwf he

/-- A payload that follows its own count is taken whole. -/
theorem takePayload_append (mk : List Byte → Segment) (p rest : List Byte) :
    takePayload mk p.length (p ++ rest) = .ok (mk p, rest) := by
  rw [takePayload, if_neg (by rw [List.length_append]; omega), List.take_left, List.drop_left]

theorem takePayload_ok_bytes {mk : List Byte → Segment} {len : Nat} {bs rest : List Byte} {g : Segment}
    (h : takePayload mk len bs = .ok (g, rest)) : ∃ p, g = mk p ∧ p.length = len ∧ bs = p ++ rest := by
  unfold takePayload at h
  split at h
  · cases h
  · cases h
    exact ⟨_, rfl, List.length_take_of_le (by omega), (List.take_append_drop len bs).symm⟩

section
variable {bs tail : List Byte}

theorem parseSegment_zrunLong {s : BitVec 16} (h : decodeBody bs = .ok (.zrunLong s, tail)) :
    parseSegment bs = .ok (.zl s.toNat, tail) := by
  rw [parseSegment, h]

theorem parseSegment_zrunShort {v : BitVec 7} (h : decodeBody bs = .ok (.zrunShort v, tail)) :
    parseSegment bs = .ok (.zs v.toNat, tail) := by
  rw [parseSegment, h]

theorem parseSegment_litLong {s : BitVec 16} (h : decodeBody bs = .ok (.litLong s, tail)) :
    parseSegment bs = takePayload .ll s.toNat tail := by
  rw [parseSegment, h]

theorem parseSegment_litShort {n : BitVec 7} (h : decodeBody bs = .ok (.litShort n, tail)) :
    parseSegment bs = takePayload .ls n.toNat tail := by
  rw [parseSegment, h]

end

theorem parseSegment_encode {g : Segment} (hwf : g.wf = true) (rest : List Byte) :
    parseSegment (g.encode ++ rest) = .ok (g, rest) := by
  cases g with
  | zs v =>
    obtain ⟨hpos, hle⟩ : 1 ≤ v ∧ v ≤ 127 := by simpa [Segment.wf] using hwf
    obtain ⟨count, rfl⟩ : ∃ count : BitVec 7, count.toNat = v := exists_toNat_eq (by omega)
    exact parseSegment_zrunShort (decodeBody_of_encode (i := .zrunShort count) (bne_zero_iff.2 hpos) rfl rest)
  | zl s =>
    have hle : s ≤ 65535 := of_decide_eq_true hwf
    obtain ⟨count, rfl⟩ : ∃ count : BitVec 16, count.toNat = s := exists_toNat_eq (by omega)
    exact parseSegment_zrunLong (decodeBody_of_encode (i := .zrunLong count) rfl rfl rest)
  | ls p =>
    obtain ⟨hpos, hle⟩ : 1 ≤ p.length ∧ p.length ≤ 127 := by simpa [Segment.wf] using hwf
    obtain ⟨count, hcount⟩ : ∃ count : BitVec 7, count.toNat = p.length := exists_toNat_eq (by omega)
    have hbody : decodeBody ((Segment.ls p).encode ++ rest) = .ok (.litShort count, p ++ rest) := by
      rw [Segment.encode, ← hcount]
      exact decodeBody_of_encode (i := .litShort count) (bne_zero_iff.2 (hcount ▸ hpos)) rfl (p ++ rest)
    rw [parseSegment_litShort hbody, hcount, takePayload_append]
  | ll p =>
    have hle : p.length ≤ 65535 := of_decide_eq_true hwf
    obtain ⟨count, hcount⟩ : ∃ count : BitVec 16, count.toNat = p.length := exists_toNat_eq (by omega)
    have hbody : decodeBody ((Segment.ll p).encode ++ rest) = .ok (.litLong count, p ++ rest) := by
      rw [Segment.encode, ← hcount, List.cons_append, List.append_assoc]
      exact decodeBody_of_encode (i := .litLong count) rfl rfl (p ++ rest)
    rw [parseSegment_litLong hbody, hcount, takePayload_append]

theorem parseSegment_ok_bytes {bs rest : List Byte} {g : Segment} (h : parseSegment bs = .ok (g, rest)) :
    g.wf = true ∧ bs = g.encode ++ rest := by
  cases hbody : decodeBody bs with
  | error e =>
    rw [parseSegment, hbody] at h
    cases h
  | ok r =>
    obtain ⟨i, tail⟩ := r
    obtain ⟨hwf, e, he, hbytes⟩ := decodeBody_encodes hbody
    cases i with
    | zrunLong s =>
      cases he
      have hlt := s.isLt
      cases (parseSegment_zrunLong hbody).symm.trans h
      exact ⟨decide_eq_true (by omega), hbytes⟩
    | zrunShort v =>
      cases he
      have hlt := v.isLt
      have hpos := bne_zero_iff.1 hwf
      cases (parseSegment_zrunShort hbody).symm.trans h
      exact ⟨by simp only [Segment.wf, Bool.and_eq_true, decide_eq_true_eq]; omega, hbytes⟩
    | litLong s =>
      cases he
      have hlt := s.isLt
      obtain ⟨p, rfl, hlen, rfl⟩ := takePayload_ok_bytes ((parseSegment_litLong hbody).symm.trans h)
      refine ⟨decide_eq_true (by omega), ?_⟩
      rw [hbytes, ← hlen, Segment.encode, List.cons_append, List.cons_append, List.append_assoc]
    | litShort n =>
      cases he
      have hlt := n.isLt
      have hpos := bne_zero_iff.1 hwf
      obtain ⟨p, rfl, hlen, rfl⟩ := takePayload_ok_bytes ((parseSegment_litShort hbody).symm.trans h)
      refine ⟨by simp only [Segment.wf, Bool.and_eq_true, decide_eq_true_eq]; omega, ?_⟩
      rw [hbytes, ← hlen]
      rfl
    | _ => cases he

/-! ### Whole bodies -/

/-- Every segment has its control byte. -/
theorem encode_segment_eq_cons (g : Segment) : ∃ c tail, g.encode = c :: tail := by
  cases g <;> exact ⟨_, _, rfl⟩

theorem parseSegments_encodeBody {fuel : Nat} {segs : List Segment} (hwf : ∀ g ∈ segs, g.wf = true)
    (hfuel : (encodeBody segs).length ≤ fuel) : parseSegments fuel (encodeBody segs) = .ok segs := by
  induction segs generalizing fuel with
  | nil => cases fuel <;> rfl
  | cons g gs ih =>
    obtain ⟨hg, hgs⟩ := List.forall_mem_cons.1 hwf
    have hbody : encodeBody (g :: gs) = g.encode ++ encodeBody gs := List.flatMap_cons
    have hparse := parseSegment_encode hg (encodeBody gs)
    obtain ⟨c, tail, hc⟩ := encode_segment_eq_cons g
    rw [hbody, hc, List.cons_append] at hfuel ⊢
    rw [hc, List.cons_append] at hparse
    cases fuel with
    | zero => cases hfuel
    | succ fuel =>
      have hrest : parseSegments fuel (encodeBody gs) = .ok gs := ih hgs (by simp at hfuel; omega)
      simp only [parseSegments, hparse, hrest]

theorem parseSegments_ok_bytes {fuel : Nat} {bs : List Byte} {segs : List Segment}
    (h : parseSegments fuel bs = .ok segs) : (∀ g ∈ segs, g.wf = true) ∧ encodeBody segs = bs := by
  induction fuel generalizing bs segs with
  | zero =>
    cases bs with
    | nil =>
      cases h
      exact ⟨nofun, rfl⟩
    | cons b bs => cases h
  | succ fuel ih =>
    cases bs with
    | nil =>
      cases h
      exact ⟨nofun, rfl⟩
    | cons b bs =>
      rw [parseSegments] at h
      split at h
      · cases h
      next g rest hparse =>
        split at h
        · cases h
        next gs hrest =>
          cases h
          obtain ⟨hg, hbytes⟩ := parseSegment_ok_bytes hparse
          obtain ⟨hgs, htail⟩ := ih hrest
          exact ⟨List.forall_mem_cons.2 ⟨hg, hgs⟩, by rw [hbytes, ← htail]; rfl⟩

/-- Settles O8: parsing answers exactly the well-formed segments whose bytes these are. -/
theorem bodiesSplitUniquelyIntoSegments : Obligations.BodiesSplitUniquelyIntoSegments := by
  refine fun segs bs => ⟨parseSegments_ok_bytes, ?_⟩
  rintro ⟨hwf, rfl⟩
  exact parseSegments_encodeBody hwf le_rfl

end Sys2Proof
end

section
/-! PROOFS. Fixed words of the encodings (30_encoding.md R60 to R63, R71), and the compressed header as an instruction
(43_decoder.md R180, R182, R184). -/

namespace Sys2Proof.Machine

/-- Settles O1: the decoder run on each word. -/
theorem specWordsDecodeToTheirInstructions : Obligations.SpecWordsDecodeToTheirInstructions :=
  ⟨rfl, rfl, rfl, rfl, rfl, rfl, rfl, rfl, rfl, rfl, rfl⟩

/-- Settles O39: the two answers of taking a header, with V = 0. -/
theorem compressedHeaderEntersTheBody : Obligations.CompressedHeaderEntersTheBody := by
  intro len s
  have hexec : exec (.hdrCompressed len) s = takeHeader false len s := rfl
  rcases takeHeader_cases false len s with ⟨hover, htake⟩ | ⟨hfits, htake⟩ <;> rw [hexec, htake]
  · exact ⟨fun hfits => absurd hover (Nat.not_lt.2 hfits), fun _ => raise_eq_failed .capacity s⟩
  · exact ⟨fun _ => rfl, fun hover => absurd hover (Nat.not_lt.2 hfits)⟩

end Sys2Proof.Machine
end

section
/-! PROOFS. The zero-run detector, the layout extractor and the run classifier (40_swar_classifier.md): the detector works on each
lane alone, the extractor is the reference loop on a legal mask, and the classifier's table holds the lengths of two bit runs. -/

namespace Sys2Proof.Machine

/-! ### The lanes of a word -/

theorem getLsbD_eq_lane (x : Word) (i : Nat) {j : Nat} (hj : j < 8) :
    x.getLsbD (8 * i + j) = (x.extractLsb' (8 * i) 8).getLsbD j := by
  rw [BitVec.getLsbD_extractLsb', decide_eq_true hj, Bool.true_and]

theorem eq_zero_iff_lanes (w : Word) : w = 0 ↔ ∀ i < 8, w.extractLsb' (8 * i) 8 = 0 := by
  refine ⟨fun h i _ => h ▸ BitVec.extractLsb'_zero, fun h => BitVec.eq_of_getLsbD_eq fun n hn => ?_⟩
  have hbit := getLsbD_eq_lane w (n / 8) (Nat.mod_lt n (by decide))
  rw [Nat.div_add_mod, h (n / 8) (by omega)] at hbit
  simpa using hbit

theorem toNat_eq_sum_lanes (w : Word) :
    w.toNat = ∑ i ∈ Finset.range 8, (w.extractLsb' (8 * i) 8).toNat * 2 ^ (8 * i) := by
  have hlt := w.isLt
  simp only [Finset.sum_range_succ, Finset.sum_range_zero, BitVec.extractLsb'_toNat, Nat.shiftRight_eq_div_pow]
  omega

/-! ### The detector (40_swar_classifier.md R100, R101) -/

/-- Where nothing is carried into bit `a`, the bits of a sum from `a` on are the sum of the bits from `a` on. -/
theorem extractLsb'_add_of_no_carry {n a len : Nat} {x y : BitVec n} (hlen : a + len ≤ n)
    (hcarry : x.toNat % 2 ^ a + y.toNat % 2 ^ a < 2 ^ a) :
    (x + y).extractLsb' a len = x.extractLsb' a len + y.extractLsb' a len := by
  apply BitVec.eq_of_toNat_eq
  have hwrap : (x.toNat + y.toNat) % 2 ^ n / 2 ^ a % 2 ^ len = (x.toNat + y.toNat) / 2 ^ a % 2 ^ len := by
    have hpow : 2 ^ n = 2 ^ a * 2 ^ (n - a) := (pow_mul_pow_sub 2 (by omega)).symm
    rw [hpow, Nat.mod_mul_right_div_self, Nat.mod_mod_of_dvd _ (Nat.pow_dvd_pow 2 (by omega))]
  simp only [BitVec.extractLsb'_toNat, BitVec.toNat_add, Nat.shiftRight_eq_div_pow]
  rw [hwrap, Nat.add_div_eq_of_add_mod_lt hcarry, Nat.add_mod]

/-- A byte's low seven bits are at most 0x7F, and two of those make no carry (40_swar_classifier.md R101). -/
theorem lane_add_lowMask (w : Word) {i : Nat} (hi : i < 8) :
    ((w &&& lowMask) + lowMask).extractLsb' (8 * i) 8 = (w.extractLsb' (8 * i) 8 &&& 0x7F) + 0x7F := by
  have hmask : ∀ i < 8, lowMask.extractLsb' (8 * i) 8 = 0x7F ∧ 2 * (lowMask.toNat % 2 ^ (8 * i)) < 2 ^ (8 * i) := by decide
  obtain ⟨hlane, htwice⟩ := hmask i hi
  have hle : (w &&& lowMask).toNat % 2 ^ (8 * i) ≤ lowMask.toNat % 2 ^ (8 * i) := by
    rw [BitVec.toNat_and, Nat.and_mod_two_pow]
    exact Nat.and_le_right
  rw [extractLsb'_add_of_no_carry (by omega) (by omega), BitVec.extractLsb'_and, hlane]

/-- The mask-add-or form on one byte (40_swar_classifier.md R101). -/
theorem markByte_eq : ∀ b : Byte, ((((b &&& 0x7F) + 0x7F) ||| b) &&& 0x80) ^^^ 0x80 = if b = 0 then 0x80 else 0 := by decide

theorem lane_zeroMask (w : Word) {i : Nat} (hi : i < 8) :
    (zeroMask w).extractLsb' (8 * i) 8 = if w.extractLsb' (8 * i) 8 = 0 then 0x80 else 0 := by
  have hmsb : ∀ i < 8, msbMask.extractLsb' (8 * i) 8 = 0x80 := by decide
  rw [zeroMask, BitVec.extractLsb'_xor, BitVec.extractLsb'_and, BitVec.extractLsb'_or, lane_add_lowMask w hi, hmsb i hi,
    markByte_eq]

theorem getLsbD_zeroMask_msb (w : Word) {i : Nat} (hi : i < 8) :
    (zeroMask w).getLsbD (8 * i + 7) = decide (w.extractLsb' (8 * i) 8 = 0) := by
  rw [getLsbD_eq_lane _ _ (by decide), lane_zeroMask w hi]
  split
  next hzero => rw [decide_eq_true hzero]; rfl
  next hnonzero => rw [decide_eq_false hnonzero]; rfl

/-- The only possible set bits are the bits 8i+7 (40_swar_classifier.md R104). -/
def LegalMask (m : Word) : Prop := ∀ i < 8, ∀ j < 7, m.getLsbD (8 * i + j) = false

theorem legalMask_zeroMask (w : Word) : LegalMask (zeroMask w) := by
  intro i hi j hj
  have hbyte : ∀ j < 7, (0x80 : Byte).getLsbD j = false := by decide
  rw [getLsbD_eq_lane _ _ (by omega), lane_zeroMask w hi]
  split
  · exact hbyte j hj
  · exact BitVec.getLsbD_zero

/-- Settles O18: no lane carries into the next, so each byte of W is tested alone. -/
theorem markZerosMarksExactlyTheZeroLanes : Obligations.MarkZerosMarksExactlyTheZeroLanes :=
  fun s => ⟨zeroMask s.w, rfl, rfl, fun _ hi => ⟨getLsbD_zeroMask_msb s.w hi, legalMask_zeroMask s.w _ hi⟩⟩

/-! ### The extractor (40_swar_classifier.md R103 to R105) -/

theorem toNat_layoutOf (m : Word) : (layoutOf m).toNat = m.toNat * 0x0002040810204081 % 2 ^ 64 / 2 ^ 56 := by
  rw [layoutOf, BitVec.toNat_setWidth, BitVec.toNat_ushiftRight, BitVec.toNat_mul, Nat.shiftRight_eq_div_pow,
    Nat.mod_eq_of_lt (by omega)]
  rfl

/-- The reference loop: L = Σ m[8i+7] · 2^i (40_swar_classifier.md R104). -/
def gatheredMsbs (m : Word) : Byte := BitVec.ofFnLE fun i : Fin 8 => m.getLsbD (8 * i + 7)

theorem getLsbD_gatheredMsbs (m : Word) {i : Nat} (hi : i < 8) : (gatheredMsbs m).getLsbD i = m.getLsbD (8 * i + 7) := by
  rw [gatheredMsbs, BitVec.getLsbD_ofFnLE, dif_pos hi]

theorem toNat_gatheredMsbs (m : Word) :
    (gatheredMsbs m).toNat = ∑ i ∈ Finset.range 8, (m.getLsbD (8 * i + 7)).toNat * 2 ^ i := by
  rw [gatheredMsbs, BitVec.toNat_ofFnLE, Nat.ofBits]
  simp only [Fin.foldr_succ, Fin.foldr_zero, Finset.sum_range_succ, Finset.sum_range_zero, Fin.val_succ, Fin.val_zero,
    Nat.reduceMul, Nat.reduceAdd]
  omega

/-- The value of a mask of lane MSBs. -/
theorem toNat_of_legalMask {m : Word} (h : LegalMask m) :
    m.toNat = ∑ i ∈ Finset.range 8, (m.getLsbD (8 * i + 7)).toNat * 2 ^ (8 * i + 7) := by
  have hbyte : ∀ b : Byte, (∀ j < 7, b.getLsbD j = false) → b.toNat = (b.getLsbD 7).toNat * 2 ^ 7 := by decide
  rw [toNat_eq_sum_lanes]
  refine Finset.sum_congr rfl fun i hi => ?_
  have hlow : ∀ j < 7, (m.extractLsb' (8 * i) 8).getLsbD j = false := fun j hj => by
    rw [← getLsbD_eq_lane m i (by omega), h i (Finset.mem_range.1 hi) j hj]
  rw [hbyte _ hlow, ← getLsbD_eq_lane m i (by decide), Nat.mul_assoc, ← Nat.pow_add, Nat.add_comm]

/-- What bit 8i+7 of the mask adds to the product. -/
def msbProduct (i : Nat) : Nat := 2 ^ (8 * i + 7) * 0x0002040810204081

/-- The multiplier's bit 7(7-i) puts bit 8i+7 of the mask on bit 56+i; its lower bits put it below bit 56, its higher bits at bit 64
or above (40_swar_classifier.md R104). -/
theorem msbProduct_eq : ∀ i < 8, msbProduct i = 2 ^ 64 * (msbProduct i / 2 ^ 64) + (2 ^ 56 * 2 ^ i + msbProduct i % 2 ^ 56) := by
  decide

theorem sum_bits_mul_le {b : Nat → Nat} (hb : ∀ i, b i ≤ 1) (c : Nat → Nat) :
    ∑ i ∈ Finset.range 8, b i * c i ≤ ∑ i ∈ Finset.range 8, c i :=
  Finset.sum_le_sum fun i _ => mul_le_of_le_one_left (Nat.zero_le _) (hb i)

/-- The top byte of the product gathers the lanes' bits: what lands below it, from all lanes together, does not carry into it. -/
theorem gathered_product {b : Nat → Nat} (hb : ∀ i, b i ≤ 1) :
    (∑ i ∈ Finset.range 8, b i * 2 ^ (8 * i + 7)) * 0x0002040810204081 % 2 ^ 64 / 2 ^ 56 =
      ∑ i ∈ Finset.range 8, b i * 2 ^ i := by
  have hproduct : (∑ i ∈ Finset.range 8, b i * 2 ^ (8 * i + 7)) * 0x0002040810204081 =
      2 ^ 64 * (∑ i ∈ Finset.range 8, b i * (msbProduct i / 2 ^ 64)) +
        (2 ^ 56 * (∑ i ∈ Finset.range 8, b i * 2 ^ i) + ∑ i ∈ Finset.range 8, b i * (msbProduct i % 2 ^ 56)) := by
    simp only [Finset.sum_mul, Finset.mul_sum, ← Finset.sum_add_distrib]
    refine Finset.sum_congr rfl fun i hi => ?_
    have hmsb := msbProduct_eq i (Finset.mem_range.1 hi)
    rw [Nat.mul_assoc, ← msbProduct]
    linear_combination b i * hmsb
  have hlow : ∑ i ∈ Finset.range 8, b i * (msbProduct i % 2 ^ 56) < 2 ^ 56 := (sum_bits_mul_le hb _).trans_lt (by decide)
  have hbyte : ∑ i ∈ Finset.range 8, b i * 2 ^ i < 2 ^ 8 := (sum_bits_mul_le hb _).trans_lt (by decide)
  rw [hproduct, Nat.mul_add_mod, Nat.mod_eq_of_lt (by omega), Nat.mul_add_div (by decide), Nat.div_eq_of_lt hlow, Nat.add_zero]

/-- On a legal mask the multiply form is the reference loop (40_swar_classifier.md R104). -/
theorem layoutOf_of_legalMask {m : Word} (h : LegalMask m) : layoutOf m = gatheredMsbs m := by
  apply BitVec.eq_of_toNat_eq
  rw [toNat_layoutOf, toNat_of_legalMask h, toNat_gatheredMsbs]
  exact gathered_product fun i => Bool.toNat_le _

theorem getLsbD_layoutOf {m : Word} (h : LegalMask m) {i : Nat} (hi : i < 8) :
    (layoutOf m).getLsbD i = m.getLsbD (8 * i + 7) := by
  rw [layoutOf_of_legalMask h, getLsbD_gatheredMsbs m hi]

/-- Settles O19: the product's top byte, which on a legal mask is the reference loop's. -/
theorem extractMsbsGathersTheLaneMsbs : Obligations.ExtractMsbsGathersTheLaneMsbs :=
  fun s => ⟨layoutOf s.m, rfl, toNat_layoutOf s.m, fun hlegal _ => getLsbD_layoutOf hlegal⟩

theorem getLsbD_layoutOf_zeroMask (w : Word) {i : Nat} (hi : i < 8) :
    (layoutOf (zeroMask w)).getLsbD i = decide (w.extractLsb' (8 * i) 8 = 0) := by
  rw [getLsbD_layoutOf (legalMask_zeroMask w) hi, getLsbD_zeroMask_msb w hi]

/-- Settles O20: the layout byte is compared with 0xFF and with 0x00 bit by bit. -/
theorem layoutByteNamesTheZeroBytes : Obligations.LayoutByteNamesTheZeroBytes := by
  intro w
  have hones : ∀ i < 8, (0xFF : Byte).getLsbD i = true := by decide
  refine ⟨fun i => getLsbD_layoutOf_zeroMask w, ?_, ?_⟩
  · rw [eq_zero_iff_lanes, BitVec.eq_of_getLsbD_eq_iff]
    refine forall₂_congr fun i hi => ?_
    rw [getLsbD_layoutOf_zeroMask w hi, hones i hi, decide_eq_true_iff]
  · rw [BitVec.eq_of_getLsbD_eq_iff]
    refine forall₂_congr fun i hi => ?_
    rw [getLsbD_layoutOf_zeroMask w hi, BitVec.ofNat_eq_ofNat, BitVec.getLsbD_zero, decide_eq_false_iff_not]

/-! ### The classifier (40_swar_classifier.md R106 to R110) -/

/-- How many bits of `l` from bit `p` on are `v`, up to the first that is not, or bit 8 (40_swar_classifier.md R106, R107). -/
def bitRun (v : Bool) (l : Byte) (p : Nat) : Nat := (List.range' p (8 - p)).findIdx fun i => l.getLsbD i != v

theorem add_bitRun_le (v : Bool) (l : Byte) {p : Nat} (hp : p ≤ 8) : p + bitRun v l p ≤ 8 := by
  have hle : bitRun v l p ≤ (List.range' p (8 - p)).length := List.findIdx_le_length
  rw [List.length_range'] at hle
  omega

theorem getLsbD_of_lt_bitRun {v : Bool} {l : Byte} {p i : Nat} (hp : p ≤ i) (hi : i < p + bitRun v l p) : l.getLsbD i = v := by
  have hbit := List.not_of_lt_findIdx (show i - p < bitRun v l p by omega)
  rw [List.getElem_range', Nat.one_mul, Nat.add_sub_of_le hp] at hbit
  simpa using hbit

theorem getLsbD_add_bitRun {v : Bool} {l : Byte} {p : Nat} (h : p + bitRun v l p < 8) : l.getLsbD (p + bitRun v l p) = !v := by
  have hlt : bitRun v l p < (List.range' p (8 - p)).length := by rw [List.length_range']; omega
  have hbit : (l.getLsbD (List.range' p (8 - p))[bitRun v l p] != v) = true := List.findIdx_getElem (w := hlt)
  rw [List.getElem_range', Nat.one_mul] at hbit
  exact Bool.eq_not.2 (bne_iff_ne.1 hbit)

theorem bitRun_pos {v : Bool} {l : Byte} {p : Nat} (hp : p < 8) (hbit : l.getLsbD p = v) : 0 < bitRun v l p := by
  by_contra hnone
  have hnil : bitRun v l p = 0 := Nat.eq_zero_of_not_pos hnone
  have hend := getLsbD_add_bitRun (v := v) (l := l) (p := p) (by omega)
  rw [hnil, Nat.add_zero, hbit] at hend
  exact Bool.eq_not.1 hend rfl

/-- The table of 40_swar_classifier.md R109 holds the counts of R106, checked entry by entry. -/
theorem classEntry_zeros_eq : ∀ l : Byte, (entryZeros (classEntry l)).toNat = bitRun true l 0 := by decide

/-- The table of 40_swar_classifier.md R109 holds the counts of R107, checked entry by entry. -/
theorem classEntry_run_eq : ∀ l : Byte, (entryRun (classEntry l)).toNat = bitRun false l (bitRun true l 0) := by decide

/-- Settles O21: the table holds the lengths of the run of ones at bit 0 and of the run of zeros after it. -/
theorem classifyCountsLeadingZerosAndRun : Obligations.ClassifyCountsLeadingZerosAndRun := by
  intro s
  refine ⟨entryZeros (classEntry s.l), entryRun (classEntry s.l), rfl, ?_⟩
  generalize s.l = l
  have hle : bitRun true l 0 ≤ 8 := by simpa using add_bitRun_le true l (Nat.zero_le 8)
  have hzero (hlt : bitRun true l 0 < 8) : l.getLsbD (bitRun true l 0) = false := by
    simpa using getLsbD_add_bitRun (v := true) (l := l) (p := 0) (by omega)
  rw [classEntry_zeros_eq, classEntry_run_eq]
  refine ⟨add_bitRun_le false l hle, fun i hi => getLsbD_of_lt_bitRun (Nat.zero_le i) (by omega),
    fun hlt => ⟨hzero hlt, bitRun_pos hlt (hzero hlt)⟩, fun i => getLsbD_of_lt_bitRun, getLsbD_add_bitRun, ?_, ?_⟩
  · rintro rfl
    decide
  · rintro rfl
    decide

end Sys2Proof.Machine
end

section
/-! PROOFS. What the emission writer's segments stand for (41_encoder.md R139; 42_emission.md R161, R163, R166): exactly the run it was
given, in forms that can be written down. -/

namespace Sys2Proof.Machine

/-! ### The sizes of the pieces -/

/-- The counts a piece of that form may have (42_emission.md R166). -/
def Piece.InRange : Piece → Prop
  | .long c => 255 ≤ c ∧ c ≤ 65535
  | .short c => 1 ≤ c ∧ c ≤ 127

theorem inRange_of_mem_piecesFrom {fuel c : Nat} : ∀ p ∈ piecesFrom fuel c, p.InRange := by
  induction fuel generalizing c with
  | zero => exact List.forall_mem_nil _
  | succ fuel ih =>
    unfold piecesFrom
    split
    · exact List.forall_mem_cons.2 ⟨⟨by omega, by omega⟩, ih⟩
    split
    · exact List.forall_mem_singleton.2 ⟨by omega, by omega⟩
    split
    · exact List.forall_mem_cons.2 ⟨⟨by omega, by omega⟩, ih⟩
    split
    · exact List.forall_mem_singleton.2 ⟨by omega, by omega⟩
    · exact List.forall_mem_nil _

theorem canonical_zeroSegment {p : Piece} (h : p.InRange) : p.zeroSegment.canonical = true := by
  cases p <;> simpa only [Piece.zeroSegment, Segment.canonical, Bool.and_eq_true, decide_eq_true_eq, Piece.InRange] using h

theorem canonical_literalSegment {p : Piece} (h : p.InRange) {payload : List Byte} (hlen : payload.length = p.items) :
    (p.literalSegment payload).canonical = true := by
  cases p <;> simpa only [Piece.literalSegment, Segment.canonical, hlen, Piece.items, Piece.InRange, Bool.and_eq_true,
    decide_eq_true_eq] using h

/-- The emitted forms are among those that can be written down (30_encoding.md R66). -/
theorem wf_of_canonical {g : Segment} (h : g.canonical = true) : g.wf = true := by
  cases g with
  | zs | ls => exact h
  | zl | ll =>
    simp only [Segment.canonical, Segment.wf, Bool.and_eq_true, decide_eq_true_eq] at h ⊢
    exact h.2

theorem canonical_of_mem_writeZeros {z : Nat} : ∀ g ∈ writeZeros z, g.canonical = true :=
  List.forall_mem_map.2 fun p hp => canonical_zeroSegment (inRange_of_mem_piecesFrom p hp)

theorem canonical_of_mem_cutLiterals {ps : List Piece} (h : ∀ p ∈ ps, p.InRange) {bs : List Byte}
    (hlen : bs.length = (ps.map Piece.items).sum) : ∀ g ∈ cutLiterals ps bs, g.canonical = true := by
  induction ps generalizing bs with
  | nil => exact List.forall_mem_nil _
  | cons p ps ih =>
    obtain ⟨hp, hps⟩ := List.forall_mem_cons.1 h
    rw [List.map_cons, List.sum_cons] at hlen
    have hpayload : (bs.take p.items).length = p.items := List.length_take_of_le (by omega)
    have hrest : (bs.drop p.items).length = (ps.map Piece.items).sum := by rw [List.length_drop]; omega
    exact List.forall_mem_cons.2 ⟨canonical_literalSegment hp hpayload, ih hps hrest⟩

theorem canonical_of_mem_writeLiterals {bs : List Byte} : ∀ g ∈ writeLiterals bs, g.canonical = true :=
  canonical_of_mem_cutLiterals inRange_of_mem_piecesFrom (pieces_items bs.length).symm

/-! ### What the segments stand for -/

theorem expandBody_zeroSegments (ps : List Piece) :
    expandBody (ps.map Piece.zeroSegment) = List.replicate (ps.map Piece.items).sum 0 := by
  induction ps with
  | nil => rfl
  | cons p ps ih =>
    have hp : p.zeroSegment.expand = List.replicate p.items 0 := by cases p <;> rfl
    rw [expandBody] at ih ⊢
    rw [List.map_cons, List.flatMap_cons, ih, hp, List.map_cons, List.sum_cons, List.replicate_add]

theorem expandBody_cutLiterals (ps : List Piece) (bs : List Byte) :
    expandBody (cutLiterals ps bs) = bs.take (ps.map Piece.items).sum := by
  induction ps generalizing bs with
  | nil => rfl
  | cons p ps ih =>
    have hp : (p.literalSegment (bs.take p.items)).expand = bs.take p.items := by cases p <;> rfl
    have hrest := ih (bs.drop p.items)
    rw [expandBody] at hrest ⊢
    rw [cutLiterals, List.flatMap_cons, hrest, hp, List.map_cons, List.sum_cons, List.take_add]

theorem expandBody_writeZeros (z : Nat) : expandBody (writeZeros z) = List.replicate z 0 := by
  rw [writeZeros, expandBody_zeroSegments, pieces_items]

theorem expandBody_writeLiterals (bs : List Byte) : expandBody (writeLiterals bs) = bs := by
  rw [writeLiterals, expandBody_cutLiterals, pieces_items, List.take_length]

/-- Settles O27: the pieces of a count hold its items in order, and each costs no more than its items. -/
theorem emittedSegmentsStandForTheRun : Obligations.EmittedSegmentsStandForTheRun :=
  ⟨fun z => ⟨expandBody_writeZeros z, length_encodeBody_writeZeros_le z⟩,
    fun bs => ⟨expandBody_writeLiterals bs, length_encodeBody_writeLiterals_le bs⟩⟩

end Sys2Proof.Machine
end

section
/-! PROOFS. The encoder's steps (41_encoder.md R120 to R129) as the statements write them, and the two ends of an encode (R132 to
R134). -/

namespace Sys2Proof.Machine

/-! ### The steps -/

/-- Settles O28: the header with the verbatim bit clear is IN_LEN itself. -/
theorem encStartPreparesTheFrame : Obligations.EncStartPreparesTheFrame := fun _ hout => execEncStart_eq hout

/-- Settles O30: the guarded literal flush, then the count. -/
theorem caseAFlushesLiteralsAndCountsZeros : Obligations.CaseAFlushesLiteralsAndCountsZeros :=
  fun _ hroom => execEncCaseA_eq hroom

/-- Settles O31: the class of the layout decides both flushes. -/
theorem caseBFlushesAndStartsLiterals : Obligations.CaseBFlushesAndStartsLiterals := fun _ hroom => execEncCaseB_eq hroom

/-- Literals become pending after a zero flush, which changes neither their count nor `it`. -/
theorem addLiterals_afterZeros (c : Word) (s : State) : addLiterals c s.afterZeros =
    { s.afterZeros with uPtr := if s.uc = 0 then s.it else s.uPtr, uc := s.uc + c, it := s.it + c } := by
  rw [addLiterals]
  simp only [toNat_eq_zero_iff]
  rfl

/-- Settles O32: the guarded zero flush, then the run grows. -/
theorem caseCFlushesZerosAndExtendsLiterals : Obligations.CaseCFlushesZerosAndExtendsLiterals :=
  fun s hroom => addLiterals_afterZeros 8 s ▸ execEncCaseC_eq hroom

/-- The detector marks nothing exactly where no byte is zero, so not in the zero word (40_swar_classifier.md R100). -/
theorem zeroMask_zero_ne_zero : zeroMask 0 ≠ 0 := by decide

/-- Settles O29: the loaded word and its mask select the case; a word with an empty mask is not the zero word. -/
theorem encWordTakesTheSelectedCase : Obligations.EncWordTakesTheSelectedCase := by
  intro s hin
  have hword : exec .encWord s = _ := execEncWord_eq hin
  rw [hword]
  have hmask : s.wordLoaded.m = zeroMask s.wordLoaded.w := rfl
  generalize s.wordLoaded = u at hmask
  refine ⟨fun hw hroom => ?_, fun hw hm hroom => ?_, fun hm hroom => ?_⟩
  · rw [if_pos hw]
    exact execEncCaseA_eq hroom
  · rw [if_neg hw, if_pos hm]
    exact execEncCaseB_eq hroom
  · have hw : u.w ≠ 0 := fun hw => zeroMask_zero_ne_zero ((congrArg zeroMask hw).symm.trans (hmask.symm.trans hm))
    rw [if_neg hw, if_neg (not_not_intro hm)]
    exact caseCFlushesZerosAndExtendsLiterals _ hroom

/-- Settles O33: as CASE_A and CASE_C, for one byte. -/
theorem tailStepsCountOneByte : Obligations.TailStepsCountOneByte :=
  fun s => ⟨fun hroom => execEncTailZero_eq hroom, fun hroom => addLiterals_afterZeros 1 s ▸ execEncTailNonzero_eq hroom⟩

/-- Settles O34: the two guarded flushes in their order. -/
theorem encFinalFlushesWhatIsPending : Obligations.EncFinalFlushesWhatIsPending :=
  fun _ hliterals hzeros => execEncFinal_eq hliterals hzeros

/-! ### The ends -/

/-- A string stored behind what is there is read behind it. -/
theorem outBytes_storeOut_append (s : State) (a : Nat) (bs : List Byte) :
    (s.storeOut a bs).outBytes 0 (a + bs.length) = s.outBytes 0 a ++ bs := by
  refine List.ext_getElem? fun i => ?_
  rw [outBytes_getElem?, outByte_storeOut, List.getElem?_append, outBytes_getElem?, outBytes_length, Nat.zero_add]
  split
  · next hlt =>
    split
    · next hin =>
      have hi : i - a < bs.length := by omega
      simp [Nat.not_lt.2 hin.1, hi]
    · next hout =>
      have hi : i < a := by omega
      simp [hi]
  · next hge => simp [show ¬i < a by omega, List.getElem?_eq_none (show bs.length ≤ i - a by omega)]

/-- Bytes of OUT are alike where each byte is. -/
theorem outBytes_congr {s t : State} {a len : Nat} (h : ∀ x, a ≤ x → x < a + len → t.outByte x = s.outByte x) :
    t.outBytes a len = s.outBytes a len := by
  refine List.ext_getElem? fun i => ?_
  rw [outBytes_getElem?, outBytes_getElem?]
  split
  · next hi => rw [h (a + i) (by omega) (by omega)]
  · rfl

/-- The state after ENC_DONE (41_encoder.md R134; 20_memory.md R58). -/
def State.encodeDone (s : State) : State := (s.loseOut s.outLen.toNat s.outSize.toNat).close .none s.status.verb s.outLen

theorem execEncDone_eq (s : State) : execEncDone s = .next s.encodeDone := rfl

@[simp] theorem encodeDone_outLen (s : State) : s.encodeDone.outLen = s.outLen := rfl

theorem encodeDone_eq (s : State) : s.encodeDone = { s with
    phase := .done, status := { busy := false, done := true, err := .none, verb := s.status.verb },
    outMem := s.encodeDone.outMem, outLost := s.encodeDone.outLost } := rfl

/-- Only OUT beyond the result becomes any value. -/
theorem outByte_encodeDone {s : State} {a : Nat} (h : a < s.outLen.toNat) : s.encodeDone.outByte a = s.outByte a :=
  (outByte_congr rfl rfl a).trans (outByte_loseOut_outside (.inl h))

/-- The state before ENC_DONE in ENC_NO_FALLBACK (41_encoder.md R133). -/
def State.kept (s : State) : State := { s with outLen := s.dst, status := { s.status with verb := false } }

theorem execEncNoFallback_eq (s : State) : execEncNoFallback s = .next s.kept.encodeDone := rfl

/-- Settles O36: ENC_NO_FALLBACK is ENC_DONE once OUT_LEN and VERB are set, and ENC_DONE loses nothing of the result. -/
theorem encodeEndsKeepTheResult : Obligations.EncodeEndsKeepTheResult :=
  fun s => ⟨⟨s.kept.encodeDone, execEncNoFallback_eq s, encodeDone_eq s.kept, fun _ => outByte_encodeDone (s := s.kept)⟩,
    ⟨s.encodeDone, execEncDone_eq s, encodeDone_eq s, fun _ => outByte_encodeDone⟩⟩

/-- The header of a verbatim frame (41_encoder.md R132): the flag is the top bit, which a length leaves clear. -/
theorem toNat_headerWord_verbatim {n : Word} (h : n.toNat < 2 ^ 63) : (headerWord true n).toNat = n.toNat + 2 ^ 63 := by
  have hdisjoint : n.toNat ||| 2 ^ 63 * 1 = 2 ^ 63 * 1 + n.toNat := by
    rw [Nat.or_comm, Nat.two_pow_add_eq_or_of_lt h]
  calc (headerWord true n).toNat = n.toNat ||| verbatimBit.toNat := BitVec.toNat_or ..
    _ = n.toNat ||| 2 ^ 63 * 1 := rfl
    _ = n.toNat + 2 ^ 63 := by rw [hdisjoint, Nat.mul_one, Nat.add_comm]

/-- Two stores, OUT_LEN and VERB. -/
theorem fallenBack_eq (s : State) : s.fallenBack = { s with
    outMem := s.fallenBack.outMem, outLen := 8 + s.n, status := { s.status with verb := true } } := by
  unfold State.fallenBack
  generalize bytesLE (headerWord true s.n).toNat 8 = header
  rfl

/-- What ENC_FALLBACK has in OUT before ENC_DONE: header, then input. -/
theorem outBytes_fallenBack {s : State} (h : s.n.toNat < 2 ^ 63) :
    s.fallenBack.outBytes 0 (8 + s.n.toNat) = bytesLE (s.n.toNat + 2 ^ 63) 8 ++ s.inBytes 0 s.n.toNat := by
  have hheader := outBytes_storeOut_same s 0 (bytesLE (s.n.toNat + 2 ^ 63) 8)
  have hinput := outBytes_storeOut_append (s.storeOut 0 (bytesLE (s.n.toNat + 2 ^ 63) 8)) 8 (s.inBytes 0 s.n.toNat)
  rw [bytesLE_length] at hheader
  rw [inBytes_length, hheader] at hinput
  rw [← hinput, ← toNat_headerWord_verbatim h]
  exact outBytes_congr fun x _ _ => outByte_congr rfl rfl x

theorem toNat_outLen_fallenBack {s : State} (h : s.n.toNat < 2 ^ 63) : s.fallenBack.outLen.toNat = 8 + s.n.toNat := by
  rw [fallenBack_eq, BitVec.toNat_add_of_lt (by simp; omega)]
  rfl

/-- The verbatim frame is the result. -/
theorem outBytes_fallenBack_encodeDone {s : State} (h : s.n.toNat < 2 ^ 63) :
    s.fallenBack.encodeDone.outBytes 0 (8 + s.n.toNat) = bytesLE (s.n.toNat + 2 ^ 63) 8 ++ s.inBytes 0 s.n.toNat := by
  rw [← outBytes_fallenBack h]
  exact outBytes_congr fun x _ hx => outByte_encodeDone (by rw [toNat_outLen_fallenBack h]; omega)

/-- Settles O35: header and input are stored, and ENC_DONE loses nothing of them. -/
theorem fallbackWritesTheVerbatimFrame : Obligations.FallbackWritesTheVerbatimFrame := by
  intro s hlen hin hout
  refine ⟨s.fallenBack.encodeDone, execEncFallback_eq hin hout, ?_, ?_, outBytes_fallenBack_encodeDone hlen⟩
  · rw [encodeDone_eq]
    generalize s.fallenBack.encodeDone = t
    rw [fallenBack_eq]
  · rw [encodeDone_outLen, toNat_outLen_fallenBack hlen]

end Sys2Proof.Machine
end

section
/-! PROOFS. What the encoder's storing steps change (41_encoder.md R123 to R129; 42_emission.md R160): one frame for each flush, and the
steps' frames from those. -/

namespace Sys2Proof.Machine

/-- OUT changes only between the old and the new `dst`, which never moves back. -/
def StoresFromDst (s t : State) : Prop :=
  s.dst.toNat ≤ t.dst.toNat ∧ ∀ a, a < s.dst.toNat ∨ t.dst.toNat ≤ a → t.outByte a = s.outByte a

section
variable {s t u : State}

theorem StoresFromDst.of_same (hdst : t.dst = s.dst) (hmem : t.outMem = s.outMem) (hlost : t.outLost = s.outLost) :
    StoresFromDst s t :=
  ⟨hdst ▸ Nat.le_refl _, fun a _ => outByte_congr hmem hlost a⟩

theorem StoresFromDst.trans (h₁ : StoresFromDst s t) (h₂ : StoresFromDst t u) : StoresFromDst s u := by
  obtain ⟨hle₁, hout₁⟩ := h₁
  obtain ⟨hle₂, hout₂⟩ := h₂
  exact ⟨hle₁.trans hle₂, fun a ha => (hout₂ a (by omega)).trans (hout₁ a (by omega))⟩

/-- What is stored at `dst` where OUT has room lies between the old and the new `dst`. -/
theorem StoresFromDst.of_store {bs : List Byte} (hroom : bs = [] ∨ s.dst.toNat + bs.length ≤ s.outSize.toNat)
    (hdst : t.dst = s.dst + BitVec.ofNat 64 bs.length) (hmem : t.outMem = s.outMem.writeBytes s.dst.toNat bs)
    (hlost : t.outLost = s.outLost) : StoresFromDst s t := by
  have hmoved : t.dst.toNat = s.dst.toNat + bs.length := by
    rcases hroom with rfl | hroom
    · simp [hdst]
    · rw [hdst, toNat_add_ofNat_of_le hroom]
  refine ⟨by omega, fun a ha => ?_⟩
  rw [outByte_congr (s := s.storeOut s.dst.toNat bs) hmem hlost, outByte_storeOut_outside (by omega)]

/-! ### The flushes -/

theorem flushZeros_frame (h : flushZeros s = .next t) :
    (∃ out dst zc, t = { s with outMem := out, dst := dst, zc := zc }) ∧ StoresFromDst s t := by
  obtain ⟨hroom, rfl⟩ := flushZeros_eq_next_iff.1 h
  exact ⟨⟨_, _, _, rfl⟩, .of_store hroom rfl rfl rfl⟩

theorem flushLiterals_frame (h : flushLiterals s = .next t) :
    (∃ out dst uc uPtr, t = { s with outMem := out, dst := dst, uc := uc, uPtr := uPtr }) ∧ StoresFromDst s t := by
  obtain ⟨-, hroom, rfl⟩ := flushLiterals_eq_next_iff.1 h
  exact ⟨⟨_, _, _, _, rfl⟩, .of_store hroom rfl rfl rfl⟩

theorem flushPendingZeros_frame (h : flushPendingZeros s = .next t) :
    (∃ out dst zc, t = { s with outMem := out, dst := dst, zc := zc }) ∧ StoresFromDst s t := by
  rcases flushPendingZeros_cases h with ⟨-, rfl⟩ | ⟨-, h⟩
  · exact ⟨⟨_, _, _, rfl⟩, .of_same rfl rfl rfl⟩
  · exact flushZeros_frame h

theorem flushPendingLiterals_frame (h : flushPendingLiterals s = .next t) :
    (∃ out dst uc uPtr, t = { s with outMem := out, dst := dst, uc := uc, uPtr := uPtr }) ∧ StoresFromDst s t := by
  rcases flushPendingLiterals_cases h with ⟨-, rfl⟩ | ⟨-, h⟩
  · exact ⟨⟨_, _, _, _, rfl⟩, .of_same rfl rfl rfl⟩
  · exact flushLiterals_frame h

/-! ### The steps -/

/-- CASE_A and the zero tail step, of `c` zeros. -/
theorem countZeros_frame {c : Word} (h : andThen (flushPendingLiterals s) (fun u => .next (addZeros c u)) = .next t) :
    (∃ out dst uc uPtr zc it, t = { s with outMem := out, dst := dst, uc := uc, uPtr := uPtr, zc := zc, it := it }) ∧
      StoresFromDst s t := by
  obtain ⟨u, hflush, hcount⟩ := andThen_eq_next_iff.1 h
  cases hcount
  obtain ⟨⟨out, dst, uc, uPtr, rfl⟩, hstore⟩ := flushPendingLiterals_frame hflush
  exact ⟨⟨_, _, _, _, _, _, rfl⟩, hstore.trans (.of_same rfl rfl rfl)⟩

/-- CASE_C and the nonzero tail step, of `c` literals. -/
theorem countLiterals_frame {c : Word} (h : andThen (flushPendingZeros s) (fun u => .next (addLiterals c u)) = .next t) :
    (∃ out dst uc uPtr zc it, t = { s with outMem := out, dst := dst, uc := uc, uPtr := uPtr, zc := zc, it := it }) ∧
      StoresFromDst s t := by
  obtain ⟨u, hflush, hcount⟩ := andThen_eq_next_iff.1 h
  cases hcount
  obtain ⟨⟨out, dst, zc, rfl⟩, hstore⟩ := flushPendingZeros_frame hflush
  exact ⟨⟨_, _, _, _, _, _, rfl⟩, hstore.trans (.of_same rfl rfl rfl)⟩

/-- CASE_B's literal flush, where it is due (41_encoder.md R124). -/
theorem settleLiterals_frame
    (h : (if s.zc.toNat > 0 ∨ s.k.toNat > 0 then flushPendingLiterals s else .next s) = .next t) :
    (∃ out dst uc uPtr, t = { s with outMem := out, dst := dst, uc := uc, uPtr := uPtr }) ∧ StoresFromDst s t := by
  split at h
  · exact flushPendingLiterals_frame h
  · cases h
    exact ⟨⟨_, _, _, _, rfl⟩, .of_same rfl rfl rfl⟩

theorem flushAndCount_frame (h : flushAndCount s = .next t) :
    (∃ out dst uc uPtr zc it, t = { s with outMem := out, dst := dst, uc := uc, uPtr := uPtr, zc := zc, it := it }) ∧
      StoresFromDst s t := by
  obtain ⟨u, hsettle, hrest⟩ := andThen_eq_next_iff.1 h
  obtain ⟨v, hflush, hcount⟩ := andThen_eq_next_iff.1 hrest
  cases hcount
  obtain ⟨⟨out, dst, uc, uPtr, hu⟩, hstore⟩ := settleLiterals_frame hsettle
  obtain ⟨⟨out', dst', zc', hv⟩, hstore'⟩ := flushPendingZeros_frame hflush
  have hcounted : StoresFromDst u v := StoresFromDst.trans (.of_same rfl rfl rfl) hstore'
  have hrun : StoresFromDst v (addLiterals (v.r.setWidth 64) { v with it := v.it + v.k.setWidth 64 }) := .of_same rfl rfl rfl
  refine ⟨?_, (hstore.trans hcounted).trans hrun⟩
  rw [hv, hu]
  exact ⟨_, _, _, _, _, _, rfl⟩

theorem execEncCaseB_frame (h : execEncCaseB s = .next t) :
    (∃ out dst uc uPtr zc it l k r, t = { s with
      outMem := out, dst := dst, uc := uc, uPtr := uPtr, zc := zc, it := it, l := l, k := k, r := r }) ∧
      StoresFromDst s t := by
  have hclass : ∃ l k r, s.classified = { s with l := l, k := k, r := r } := ⟨_, _, _, rfl⟩
  obtain ⟨l, k, r, hclass⟩ := hclass
  rw [execEncCaseB_eq_flushAndCount, hclass] at h
  obtain ⟨⟨out, dst, uc, uPtr, zc, it, rfl⟩, hstore⟩ := flushAndCount_frame h
  exact ⟨⟨_, _, _, _, _, _, _, _, _, rfl⟩, StoresFromDst.trans (.of_same rfl rfl rfl) hstore⟩

/-- The word and its mask are set, then one of the three cases runs. -/
theorem execEncWord_frame (h : execEncWord s = .next t) :
    (∃ out dst uc uPtr zc it l k r w m, t = { s with
      outMem := out, dst := dst, uc := uc, uPtr := uPtr, zc := zc, it := it, l := l, k := k, r := r, w := w, m := m }) ∧
      StoresFromDst s t := by
  unfold execEncWord at h
  split at h
  · cases h
  next w hload =>
  rw [execMarkZeros, andThen_next] at h
  have hloaded : StoresFromDst s { s with w := w, m := zeroMask w } := .of_same rfl rfl rfl
  split at h
  · obtain ⟨⟨out, dst, uc, uPtr, zc, it, rfl⟩, hstore⟩ := countZeros_frame h
    exact ⟨⟨_, _, _, _, _, _, _, _, _, _, _, rfl⟩, hloaded.trans hstore⟩
  split at h
  · obtain ⟨⟨out, dst, uc, uPtr, zc, it, l, k, r, rfl⟩, hstore⟩ := execEncCaseB_frame h
    exact ⟨⟨_, _, _, _, _, _, _, _, _, _, _, rfl⟩, hloaded.trans hstore⟩
  · obtain ⟨⟨out, dst, uc, uPtr, zc, it, rfl⟩, hstore⟩ := countLiterals_frame h
    exact ⟨⟨_, _, _, _, _, _, _, _, _, _, _, rfl⟩, hloaded.trans hstore⟩

theorem execEncFinal_frame (h : execEncFinal s = .next t) :
    (∃ out dst uc uPtr zc, t = { s with
      outMem := out, dst := dst, uc := uc, uPtr := uPtr, zc := zc, phase := .encFallback }) ∧ StoresFromDst s t := by
  obtain ⟨u, hliterals, hrest⟩ := andThen_eq_next_iff.1 h
  obtain ⟨v, hzeros, henter⟩ := andThen_eq_next_iff.1 hrest
  cases henter
  obtain ⟨⟨out, dst, uc, uPtr, rfl⟩, hstore⟩ := flushPendingLiterals_frame hliterals
  obtain ⟨⟨out', dst', zc', rfl⟩, hstore'⟩ := flushPendingZeros_frame hzeros
  exact ⟨⟨_, _, _, _, _, rfl⟩, (hstore.trans hstore').trans (.of_same rfl rfl rfl)⟩

end

/-- The two cases and the two tail steps that count a run of one kind. -/
theorem exec_count_frame {i : Instr} (hi : i ∈ [Instr.encCaseA, .encCaseC, .encTailZero, .encTailNonzero]) {s t : State}
    (h : exec i s = .next t) :
    (∃ out dst uc uPtr zc it, t = { s with outMem := out, dst := dst, uc := uc, uPtr := uPtr, zc := zc, it := it }) ∧
      StoresFromDst s t := by
  simp only [List.mem_cons, List.not_mem_nil, or_false] at hi
  rcases hi with rfl | rfl | rfl | rfl
  · exact countZeros_frame h
  · exact countLiterals_frame h
  · exact countZeros_frame h
  · exact countLiterals_frame h

theorem exec_encoder_storesFromDst {i : Instr} (hi : i ∈ [Instr.flushZeros, .flushLiterals, .encCaseA, .encCaseB, .encCaseC,
    .encTailZero, .encTailNonzero, .encWord, .encFinal]) {s t : State} (h : exec i s = .next t) : StoresFromDst s t := by
  simp only [List.mem_cons, List.not_mem_nil, or_false] at hi
  rcases hi with rfl | rfl | rfl | rfl | rfl | rfl | rfl | rfl | rfl
  · exact (flushZeros_frame h).2
  · exact (flushLiterals_frame h).2
  · exact (countZeros_frame h).2
  · exact (execEncCaseB_frame h).2
  · exact (countLiterals_frame h).2
  · exact (countZeros_frame h).2
  · exact (countLiterals_frame h).2
  · exact (execEncWord_frame h).2
  · exact (execEncFinal_frame h).2

/-- Settles O37: the frame of each step, in the statement's words. -/
theorem encoderStepsStoreOnlyAtDst : Obligations.EncoderStepsStoreOnlyAtDst := by
  intro s t
  refine ⟨fun h => ?_, fun h => ?_, fun i hi h => ?_, fun h => ?_, fun h => ?_, fun h => ?_,
    fun i hi h => exec_encoder_storesFromDst hi h⟩
  · obtain ⟨⟨out, dst, zc, rfl⟩, -⟩ := flushZeros_frame h
    rfl
  · obtain ⟨⟨out, dst, uc, uPtr, rfl⟩, -⟩ := flushLiterals_frame h
    rfl
  · obtain ⟨⟨out, dst, uc, uPtr, zc, it, rfl⟩, -⟩ := exec_count_frame hi h
    rfl
  · obtain ⟨⟨out, dst, uc, uPtr, zc, it, l, k, r, rfl⟩, -⟩ := execEncCaseB_frame h
    rfl
  · obtain ⟨⟨out, dst, uc, uPtr, zc, it, l, k, r, w, m, rfl⟩, -⟩ := execEncWord_frame h
    rfl
  · obtain ⟨⟨out, dst, uc, uPtr, zc, rfl⟩, -⟩ := execEncFinal_frame h
    rfl

end Sys2Proof.Machine
end

section
/-! PROOFS. The maximal runs of a byte string (41_encoder.md R139): a list of runs of which neighbours differ in kind is the list of
the maximal runs of what it spells out. -/

namespace Sys2Proof.Machine

/-- The bytes a run spells out. -/
def Run.bytes : Run → List Byte
  | .zeros len => List.replicate len 0
  | .literals bs => bs

/-- Whether a run is one of zero bytes. -/
def Run.isZeros : Run → Bool
  | .zeros _ => true
  | .literals _ => false

/-- A run has a byte, and literals are not zero. -/
def Run.Proper : Run → Prop
  | .zeros len => 0 < len
  | .literals bs => bs ≠ [] ∧ 0 ∉ bs

/-- Proper runs, neighbours of different kinds. -/
def Maximal (runs : List Run) : Prop := (∀ r ∈ runs, r.Proper) ∧ runs.IsChain fun x y => x.isZeros ≠ y.isZeros

/-! ### Lists of maximal runs -/

theorem maximal_nil : Maximal [] := ⟨List.forall_mem_nil _, .nil⟩

theorem maximal_singleton {r : Run} (h : r.Proper) : Maximal [r] := ⟨List.forall_mem_singleton.2 h, .singleton r⟩

theorem maximal_append_singleton_iff {runs : List Run} {r : Run} :
    Maximal (runs ++ [r]) ↔ Maximal runs ∧ r.Proper ∧ ∀ x ∈ runs.getLast?, x.isZeros ≠ r.isZeros := by
  simp only [Maximal, List.forall_mem_append, List.forall_mem_singleton, List.isChain_append, List.isChain_singleton, true_and,
    List.head?_cons, Option.mem_some_iff, forall_eq']
  tauto

/-- A last run may grow, or be any other of its kind. -/
theorem Maximal.replace_last {runs : List Run} {x y : Run} (h : Maximal (runs ++ [x])) (hy : y.Proper)
    (hkind : y.isZeros = x.isZeros) : Maximal (runs ++ [y]) := by
  obtain ⟨hruns, -, hlast⟩ := maximal_append_singleton_iff.1 h
  exact maximal_append_singleton_iff.2 ⟨hruns, hy, hkind ▸ hlast⟩

/-- After a last run there may be one of the other kind. -/
theorem Maximal.append_other {runs : List Run} {x y : Run} (h : Maximal (runs ++ [x])) (hy : y.Proper)
    (hkind : x.isZeros ≠ y.isZeros) : Maximal (runs ++ [x] ++ [y]) := by
  refine maximal_append_singleton_iff.2 ⟨h, hy, fun z hz => ?_⟩
  rw [List.getLast?_concat, Option.mem_some_iff] at hz
  exact hz ▸ hkind

/-! ### The runs of a byte string -/

/-- Zeros in front of a run that is not one of zeros are a run of their own. -/
theorem foldr_consRun_zeros {rest : List Run} (hrest : ∀ y ∈ rest.head?, true ≠ y.isZeros) (len : Nat) :
    (List.replicate (len + 1) 0).foldr consRun rest = .zeros (len + 1) :: rest := by
  induction len with
  | zero =>
    match rest, hrest with
    | [], _ => rfl
    | .literals _ :: _, _ => rfl
    | .zeros _ :: _, h => exact absurd rfl (h _ rfl)
  | succ len ih => rw [List.replicate_succ, List.foldr_cons, ih, consRun, if_pos rfl]

/-- Literals in front of a run that is not one of literals are a run of their own. -/
theorem foldr_consRun_literals {rest : List Run} (hrest : ∀ y ∈ rest.head?, false ≠ y.isZeros) {b : Byte} {bs : List Byte}
    (hne : 0 ∉ b :: bs) : (b :: bs).foldr consRun rest = .literals (b :: bs) :: rest := by
  induction bs generalizing b with
  | nil =>
    have hb : b ≠ 0 := fun hb => hne (by simp [hb])
    match rest, hrest with
    | [], _ => rw [List.foldr_cons, List.foldr_nil, consRun, if_neg hb]
    | .zeros _ :: _, _ => rw [List.foldr_cons, List.foldr_nil, consRun, if_neg hb]
    | .literals _ :: _, h => exact absurd rfl (h _ rfl)
  | cons c bs ih =>
    obtain ⟨hb, hbs⟩ := not_or.1 (List.mem_cons.not.1 hne)
    rw [List.foldr_cons, ih hbs, consRun, if_neg (Ne.symm hb)]

theorem runsOf_append (as bs : List Byte) : runsOf (as ++ bs) = as.foldr consRun (runsOf bs) := List.foldr_append

/-- Runs whose neighbours differ in kind are the maximal runs of what they spell out. -/
theorem runsOf_flatMap_bytes {runs : List Run} (h : Maximal runs) : runsOf (runs.flatMap Run.bytes) = runs := by
  induction runs with
  | nil => rfl
  | cons r rest ih =>
    obtain ⟨hproper, hchain⟩ := h
    obtain ⟨hr, hrest⟩ := List.forall_mem_cons.1 hproper
    obtain ⟨hkind, hchain⟩ := List.isChain_cons.1 hchain
    rw [List.flatMap_cons, runsOf_append, ih ⟨hrest, hchain⟩]
    match r, hr, hkind with
    | .zeros (len + 1), _, hkind => exact foldr_consRun_zeros hkind len
    | .literals (_ :: _), hr, hkind => exact foldr_consRun_literals hkind hr.2
    | .literals [], hr, _ => exact absurd rfl hr.1

theorem flatMap_bytes_consRun (b : Byte) (runs : List Run) :
    (consRun b runs).flatMap Run.bytes = b :: runs.flatMap Run.bytes := by
  match runs with
  | [] | .zeros _ :: _ | .literals _ :: _ =>
    simp only [consRun]
    split
    · next hb => simp [hb, Run.bytes, List.replicate_succ]
    · simp [Run.bytes]

/-- The runs of a byte string spell it out. -/
theorem flatMap_bytes_runsOf (bs : List Byte) : (runsOf bs).flatMap Run.bytes = bs := by
  induction bs with
  | nil => rfl
  | cons b bs ih => rw [show runsOf (b :: bs) = consRun b (runsOf bs) from rfl, flatMap_bytes_consRun, ih]

/-! ### How the runs are written -/

/-- What is written for a run stands for its bytes. -/
theorem expandBody_segments (r : Run) : expandBody r.segments = r.bytes := by
  cases r with
  | zeros len => exact expandBody_writeZeros len
  | literals bs => exact expandBody_writeLiterals bs

theorem wf_of_mem_segments {r : Run} : ∀ g ∈ r.segments, g.wf = true := by
  cases r with
  | zeros len => exact fun g hg => wf_of_canonical (canonical_of_mem_writeZeros g hg)
  | literals bs => exact fun g hg => wf_of_canonical (canonical_of_mem_writeLiterals g hg)

theorem encodeBody_append (gs hs : List Segment) : encodeBody (gs ++ hs) = encodeBody gs ++ encodeBody hs :=
  List.flatMap_append

/-- The segments of a compressed body (41_encoder.md R139). -/
def bodySegments (bytes : List Byte) : List Segment := (runsOf bytes).flatMap Run.segments

theorem compressedBody_eq (bytes : List Byte) : compressedBody bytes = encodeBody (bodySegments bytes) := rfl

/-- A compressed body stands for its input. -/
theorem expandBody_bodySegments (bytes : List Byte) : expandBody (bodySegments bytes) = bytes := by
  calc expandBody (bodySegments bytes) = (runsOf bytes).flatMap fun r => expandBody r.segments := List.flatMap_assoc
    _ = (runsOf bytes).flatMap Run.bytes := by simp only [expandBody_segments]
    _ = bytes := flatMap_bytes_runsOf bytes

theorem wf_of_mem_bodySegments {bytes : List Byte} : ∀ g ∈ bodySegments bytes, g.wf = true := by
  intro g hg
  obtain ⟨r, -, hg⟩ := List.mem_flatMap.1 hg
  exact wf_of_mem_segments g hg

end Sys2Proof.Machine
end

section
/-! PROOFS. The word the encoder loads (41_encoder.md R122, R124): its lanes are eight bytes of IN, and its class counts the zero bytes
at its head and the nonzero bytes after them. -/

namespace Sys2Proof.Machine

theorem inBytes_eq_replicate {s : State} {a len : Nat} (h : ∀ i < len, s.inByte (a + i) = 0) :
    s.inBytes a len = List.replicate len 0 := by
  refine List.ext_getElem? fun i => ?_
  rw [inBytes_getElem?, List.getElem?_replicate]
  split
  · next hi => rw [h i hi]
  · rfl

theorem zero_notMem_inBytes {s : State} {a len : Nat} (h : ∀ i < len, s.inByte (a + i) ≠ 0) : 0 ∉ s.inBytes a len := by
  intro hmem
  obtain ⟨i, hi⟩ := List.mem_iff_getElem?.1 hmem
  rw [inBytes_getElem?] at hi
  split at hi
  · next hlt => exact h i hlt (Option.some.inj hi)
  · cases hi

/-- A byte of a little-endian value. -/
theorem leNat_div_mod (bs : List Byte) (i : Nat) : leNat bs / 256 ^ i % 256 = (bs[i]?.getD 0).toNat := by
  induction bs generalizing i with
  | nil => simp [leNat]
  | cons b bs ih =>
    have hb := b.isLt
    cases i with
    | zero =>
      rw [leNat, Nat.pow_zero, Nat.div_one, List.getElem?_cons_zero, Option.getD_some]
      omega
    | succ i =>
      have hrest : (b.toNat + 256 * leNat bs) / 256 = leNat bs := by omega
      rw [leNat, Nat.pow_succ', ← Nat.div_div_eq_div_mul, hrest, ih, List.getElem?_cons_succ]

/-- Lane `i` of the word loaded at `a` is IN[a + i] (20_memory.md R41). -/
theorem lane_loaded (s : State) (a : Nat) {i : Nat} (hi : i < 8) :
    (BitVec.ofNat 64 (leNat (s.inBytes a 8))).extractLsb' (8 * i) 8 = s.inByte (a + i) := by
  apply BitVec.eq_of_toNat_eq
  have hvalue := toNat_ofNat_leNat (w := 64) (bs := s.inBytes a 8) (by rw [inBytes_length])
  have hbyte := leNat_div_mod (s.inBytes a 8) i
  rw [inBytes_getElem?, if_pos hi, Option.getD_some] at hbyte
  rw [BitVec.extractLsb'_toNat, hvalue, Nat.shiftRight_eq_div_pow, Nat.pow_mul]
  exact hbyte

theorem lane_ne_zero_of_zeroMask_eq_zero {w : Word} (h : zeroMask w = 0) {i : Nat} (hi : i < 8) : w.extractLsb' (8 * i) 8 ≠ 0 := by
  have hmark := getLsbD_zeroMask_msb w hi
  rw [h, BitVec.ofNat_eq_ofNat, BitVec.getLsbD_zero] at hmark
  exact of_decide_eq_false hmark.symm

/-- How many zero bytes a word begins with, by its class (40_swar_classifier.md R106). -/
def zerosOf (w : Word) : Byte := entryZeros (classEntry (layoutOf (zeroMask w)))

/-- How many nonzero bytes follow them (40_swar_classifier.md R107). -/
def runOf (w : Word) : Byte := entryRun (classEntry (layoutOf (zeroMask w)))

theorem zerosOf_add_runOf_le (w : Word) : (zerosOf w).toNat + (runOf w).toNat ≤ 8 := classEntry_fields_le _

theorem lane_of_lt_zerosOf {w : Word} {i : Nat} (hi : i < (zerosOf w).toNat) : w.extractLsb' (8 * i) 8 = 0 := by
  have hword := zerosOf_add_runOf_le w
  rw [zerosOf, classEntry_zeros_eq] at hi hword
  have hbit := getLsbD_of_lt_bitRun (Nat.zero_le i) (by rwa [Nat.zero_add])
  rw [getLsbD_layoutOf_zeroMask w (by omega)] at hbit
  exact of_decide_eq_true hbit

theorem lane_of_lt_runOf {w : Word} {i : Nat} (hi : i < (runOf w).toNat) :
    w.extractLsb' (8 * ((zerosOf w).toNat + i)) 8 ≠ 0 := by
  have hword := zerosOf_add_runOf_le w
  rw [zerosOf, classEntry_zeros_eq] at hword ⊢
  rw [runOf, classEntry_run_eq] at hi hword
  have hbit := getLsbD_of_lt_bitRun (Nat.le_add_right (bitRun true (layoutOf (zeroMask w)) 0) i) (Nat.add_lt_add_left hi _)
  rw [getLsbD_layoutOf_zeroMask w (by omega)] at hbit
  exact of_decide_eq_false hbit

/-- Only the zero word has no run. -/
theorem runOf_pos {w : Word} (h : w ≠ 0) : 0 < (runOf w).toNat := by
  have hle : (zerosOf w).toNat ≤ 8 := (Nat.le_add_right ..).trans (zerosOf_add_runOf_le w)
  have hlt : (zerosOf w).toNat < 8 := by
    refine Nat.lt_of_le_of_ne hle fun hall => h ?_
    exact (eq_zero_iff_lanes w).2 fun i hi => lane_of_lt_zerosOf (by omega)
  rw [zerosOf, classEntry_zeros_eq] at hlt
  rw [runOf, classEntry_run_eq]
  refine bitRun_pos hlt ?_
  simpa using getLsbD_add_bitRun (v := true) (p := 0) (l := layoutOf (zeroMask w)) (by omega)

end Sys2Proof.Machine
end

section
/-! PROOFS. Runs of the machine with no host move pending: steps in a row, and a loop that a measure bounds. -/

namespace Sys2Proof.Machine

theorem run_zero (s : State) : Sys2Proof.core.run 0 s = .next s := rfl

theorem run_succ_of_step {s t u : State} {k : Nat} (hstep : step s = .next t) (hrun : Sys2Proof.core.run k t = .next u) :
    Sys2Proof.core.run (k + 1) s = .next u := by
  have hcore : Sys2Proof.core.step s = .next t := hstep
  simp only [Host.Core.run, hcore]
  exact hrun

/-- While `P` holds each step makes `Q` hold or the measure less, so `Q` holds after at most one step more than the measure. -/
theorem run_within {P Q : State → Prop} (measure : State → Nat)
    (hstep : ∀ s, P s → ∃ t, step s = .next t ∧ (Q t ∨ P t ∧ measure t < measure s)) {s : State} (h : P s) :
    ∃ k t, k ≤ measure s + 1 ∧ Sys2Proof.core.run k s = .next t ∧ Q t := by
  induction hbound : measure s using Nat.strong_induction_on generalizing s with
  | _ bound ih =>
    obtain ⟨t, ht, hQ | ⟨hP, hless⟩⟩ := hstep s h
    · exact ⟨1, t, Nat.le_add_left 1 _, run_succ_of_step ht (run_zero t), hQ⟩
    · obtain ⟨k, u, hk, hrun, hQ⟩ := ih (measure t) (hbound ▸ hless) hP rfl
      exact ⟨k + 1, u, by omega, run_succ_of_step ht hrun, hQ⟩

end Sys2Proof.Machine
end

section
/-! PROOFS. What an encode has written and what is pending, in terms of the maximal runs of the input (41_encoder.md R135, R136, R139): the
runs before the pending one stand in OUT behind the header, and with the pending one they spell out the bytes before `it`. -/

namespace Sys2Proof.Machine

/-! ### What stands in OUT -/

/-- OUT holds the header of a compressed frame and the segments of these runs, up to `dst` (41_encoder.md R120, R139). -/
def Emitted (s : State) (closed : List Run) : Prop :=
  s.outBytes 0 s.dst.toNat = bytesLE s.n.toNat 8 ++ encodeBody (closed.flatMap Run.segments)

namespace Emitted

variable {s t : State} {closed : List Run}

/-- It is a matter of OUT, `dst` and `n` alone. -/
theorem congr (h : Emitted s closed) (hdst : t.dst = s.dst) (hn : t.n = s.n) (hmem : t.outMem = s.outMem)
    (hlost : t.outLost = s.outLost) : Emitted t closed := by
  rw [Emitted, hdst, hn, outBytes_congr fun x _ _ => outByte_congr hmem hlost x, h]

/-- A run is appended (42_emission.md R160). -/
theorem store (h : Emitted s closed) {r : Run} (hroom : s.dst.toNat + (encodeBody r.segments).length ≤ s.outSize.toNat)
    (hdst : t.dst = s.dst + BitVec.ofNat 64 (encodeBody r.segments).length) (hn : t.n = s.n)
    (hmem : t.outMem = s.outMem.writeBytes s.dst.toNat (encodeBody r.segments)) (hlost : t.outLost = s.outLost) :
    Emitted t (closed ++ [r]) := by
  have hread : t.outBytes 0 t.dst.toNat =
      (s.storeOut s.dst.toNat (encodeBody r.segments)).outBytes 0 (s.dst.toNat + (encodeBody r.segments).length) := by
    rw [hdst, toNat_add_ofNat_of_le hroom]
    exact outBytes_congr fun x _ _ => outByte_congr (s := s.storeOut s.dst.toNat _) hmem hlost x
  rw [Emitted, hread, outBytes_storeOut_append, h, hn, List.flatMap_append, encodeBody_append, List.flatMap_singleton,
    List.append_assoc]

theorem afterZeros (h : Emitted s closed) (hinv : EncodeInv s) : Emitted s.afterZeros (closed ++ [.zeros s.zc.toNat]) := by
  obtain ⟨-, -, -, hout, hit, -, -, -, hroom⟩ := hinv
  have hlen := length_zeroBytes_le s
  exact h.store (r := .zeros s.zc.toNat) (show s.dst.toNat + s.zeroBytes.length ≤ _ by omega) rfl rfl rfl rfl

theorem afterLiterals (h : Emitted s closed) (hinv : EncodeInv s) :
    Emitted s.afterLiterals (closed ++ [.literals (s.inBytes s.uPtr.toNat s.uc.toNat)]) := by
  obtain ⟨-, -, -, hout, hit, -, -, -, hroom⟩ := hinv
  have hlen := length_literalBytes_le s
  exact h.store (r := .literals (s.inBytes s.uPtr.toNat s.uc.toNat))
    (show s.dst.toNat + s.literalBytes.length ≤ _ by omega) rfl rfl rfl rfl

end Emitted

/-! ### What is pending -/

/-- The run that is counted and not yet written (41_encoder.md R135). -/
def State.pending (s : State) : List Run :=
  if s.zc ≠ 0 then [.zeros s.zc.toNat]
  else if s.uc ≠ 0 then [.literals (s.inBytes s.uPtr.toNat s.uc.toNat)]
  else []

theorem pending_of_zeros {s : State} (hzc : s.zc ≠ 0) : s.pending = [.zeros s.zc.toNat] := if_pos hzc

theorem pending_of_literals {s : State} (hzc : s.zc = 0) (huc : s.uc ≠ 0) :
    s.pending = [.literals (s.inBytes s.uPtr.toNat s.uc.toNat)] :=
  (if_neg (not_not_intro hzc)).trans (if_pos huc)

theorem pending_of_none {s : State} (hzc : s.zc = 0) (huc : s.uc = 0) : s.pending = [] :=
  (if_neg (not_not_intro hzc)).trans (if_neg (not_not_intro huc))

/-- What is pending is a matter of the counts, `uPtr` and IN alone. -/
theorem pending_congr {s t : State} (hzc : t.zc = s.zc) (huc : t.uc = s.uc) (hptr : t.uPtr = s.uPtr)
    (hmem : t.inMem = s.inMem) : t.pending = s.pending := by
  rw [State.pending, hzc, huc, hptr, inBytes_congr hmem]
  rfl

/-- The runs in OUT and the pending one are the maximal runs of the bytes before `it` (41_encoder.md R139), and something is pending as
soon as there is a byte before `it`. -/
structure Written (s : State) (closed : List Run) : Prop where
  emitted : Emitted s closed
  maximal : Maximal (closed ++ s.pending)
  covered : (closed ++ s.pending).flatMap Run.bytes = s.inBytes 0 s.it.toNat
  live : s.pending = [] → closed = []

namespace Written

variable {s t : State} {closed : List Run}

theorem of_last {r : Run} (hemitted : Emitted t closed) (hpending : t.pending = [r]) (hmaximal : Maximal (closed ++ [r]))
    (hcovered : closed.flatMap Run.bytes ++ r.bytes = t.inBytes 0 t.it.toNat) : Written t closed where
  emitted := hemitted
  maximal := hpending ▸ hmaximal
  covered := by rw [hpending, List.flatMap_append, List.flatMap_singleton, hcovered]
  live hnil := by rw [hpending] at hnil; cases hnil

theorem congr (h : Written s closed) (hemitted : Emitted t closed) (hpending : t.pending = s.pending)
    (hit : t.it = s.it) (hmem : t.inMem = s.inMem) : Written t closed :=
  ⟨hemitted, hpending ▸ h.maximal, by rw [hpending, hit, inBytes_congr hmem, h.covered], hpending ▸ h.live⟩

/-- The three states of the counts (41_encoder.md R135): a run of zeros is pending, a run of literals is, or nothing was taken yet. -/
theorem cases (h : Written s closed) (hone : s.zc = 0 ∨ s.uc = 0) :
    (s.zc ≠ 0 ∧ s.uc = 0 ∧ Maximal (closed ++ [.zeros s.zc.toNat]) ∧
      closed.flatMap Run.bytes ++ List.replicate s.zc.toNat 0 = s.inBytes 0 s.it.toNat) ∨
    (s.zc = 0 ∧ s.uc ≠ 0 ∧ Maximal (closed ++ [.literals (s.inBytes s.uPtr.toNat s.uc.toNat)]) ∧
      closed.flatMap Run.bytes ++ s.inBytes s.uPtr.toNat s.uc.toNat = s.inBytes 0 s.it.toNat) ∨
    (s.zc = 0 ∧ s.uc = 0 ∧ closed = [] ∧ s.inBytes 0 s.it.toNat = []) := by
  obtain ⟨-, hmaximal, hcovered, hlive⟩ := h
  by_cases hzc : s.zc = 0
  · by_cases huc : s.uc = 0
    · rw [pending_of_none hzc huc] at hcovered hlive
      obtain rfl := hlive rfl
      exact .inr (.inr ⟨hzc, huc, rfl, hcovered.symm⟩)
    · rw [pending_of_literals hzc huc] at hmaximal hcovered
      rw [List.flatMap_append, List.flatMap_singleton] at hcovered
      exact .inr (.inl ⟨hzc, huc, hmaximal, hcovered⟩)
  · rw [pending_of_zeros hzc] at hmaximal hcovered
    rw [List.flatMap_append, List.flatMap_singleton] at hcovered
    exact .inl ⟨hzc, hone.resolve_left hzc, hmaximal, hcovered⟩

end Written

/-! ### Taking bytes of the input -/

/-- `c` zero bytes are taken: CASE_A, the zeros of CASE_B, the zero tail step (41_encoder.md R123, R124, R127). -/
def State.takeZeros (c : Word) (s : State) : State := addZeros c s.afterLiterals

/-- `c` literals are taken: CASE_C, the run of CASE_B, the nonzero tail step (41_encoder.md R124, R125, R128). -/
def State.takeLiterals (c : Word) (s : State) : State := addLiterals c s.afterZeros

section
variable {s : State} {c : Word} {closed : List Run}

theorem EncodeInv.takeZeros (h : EncodeInv s) (hleft : s.it.toNat + c.toNat ≤ s.n.toNat) : EncodeInv (s.takeZeros c) :=
  h.afterLiterals.addZeros hleft (.inr rfl)

theorem EncodeInv.takeLiterals (h : EncodeInv s) (hleft : s.it.toNat + c.toNat ≤ s.n.toNat) :
    EncodeInv (s.takeLiterals c) :=
  h.afterZeros.addLiterals hleft rfl

theorem EncodeInv.one_pending (h : EncodeInv s) : s.zc = 0 ∨ s.uc = 0 := by
  obtain ⟨-, -, -, -, -, hone, -⟩ := h
  exact hone

theorem EncodeInv.toNat_it_add (h : EncodeInv s) (hleft : s.it.toNat + c.toNat ≤ s.n.toNat) :
    (s.it + c).toNat = s.it.toNat + c.toNat := by
  obtain ⟨-, hlt, -⟩ := h
  exact BitVec.toNat_add_of_lt (by omega)

/-- Taking bytes extends what is taken by them. -/
theorem EncodeInv.inBytes_it_add (h : EncodeInv s) (hleft : s.it.toNat + c.toNat ≤ s.n.toNat) {t : State}
    (hmem : t.inMem = s.inMem) (hit : t.it = s.it + c) :
    t.inBytes 0 t.it.toNat = s.inBytes 0 s.it.toNat ++ s.inBytes s.it.toNat c.toNat := by
  rw [inBytes_congr hmem, hit, h.toNat_it_add hleft, inBytes_append, Nat.zero_add]

/-- Zeros taken extend a pending run of zeros, or close a pending run of literals and are pending themselves. -/
theorem Written.takeZeros (h : Written s closed) (hinv : EncodeInv s) (hc : 0 < c.toNat)
    (hleft : s.it.toNat + c.toNat ≤ s.n.toNat) (hzero : s.inBytes s.it.toNat c.toNat = List.replicate c.toNat 0) :
    ∃ closed', Written (s.takeZeros c) closed' := by
  have hinput := hinv.inBytes_it_add hleft (t := s.takeZeros c) rfl rfl
  rw [hzero] at hinput
  have hflushed (closed' : List Run) (hout : Emitted s.afterLiterals closed') : Emitted (s.takeZeros c) closed' :=
    hout.congr rfl rfl rfl rfl
  have hemitted := h.emitted.afterLiterals hinv
  obtain ⟨-, hlt, -, -, -, hone, -, hdst, hroom⟩ := hinv
  have hzc : (s.takeZeros c).zc.toNat = s.zc.toNat + c.toNat := BitVec.toNat_add_of_lt (x := s.zc) (y := c) (by omega)
  have hpending : (s.takeZeros c).pending = [.zeros (s.zc.toNat + c.toNat)] := by
    rw [pending_of_zeros (by rw [ne_eq, ← toNat_eq_zero_iff]; omega), hzc]
  have hproper : (Run.zeros (s.zc.toNat + c.toNat)).Proper := Nat.add_pos_right _ hc
  rcases h.cases hone with ⟨hz, hu, hmaximal, hcovered⟩ | ⟨hz, hu, hmaximal, hcovered⟩ | ⟨hz, hu, rfl, hnone⟩
  · refine ⟨closed, .of_last (hflushed _ ?_) hpending (hmaximal.replace_last hproper rfl) ?_⟩
    · rw [afterLiterals_of_uc_eq_zero hu]
      exact h.emitted
    · rw [hinput, ← hcovered, List.append_assoc, Run.bytes, List.replicate_add]
  · refine ⟨_, .of_last (hflushed _ hemitted) hpending (hmaximal.append_other hproper (by simp [Run.isZeros])) ?_⟩
    rw [hinput, ← hcovered, List.flatMap_append, List.flatMap_singleton, hz]
    simp [Run.bytes]
  · refine ⟨[], .of_last (hflushed _ ?_) hpending (maximal_singleton hproper) ?_⟩
    · rw [afterLiterals_of_uc_eq_zero hu]
      exact h.emitted
    · rw [hinput, hnone, hz]
      simp [Run.bytes]

/-- Literals taken extend a pending run of literals, or close a pending run of zeros and are pending themselves. -/
theorem Written.takeLiterals (h : Written s closed) (hinv : EncodeInv s) (hc : 0 < c.toNat)
    (hleft : s.it.toNat + c.toNat ≤ s.n.toNat) (hne : 0 ∉ s.inBytes s.it.toNat c.toNat) :
    ∃ closed', Written (s.takeLiterals c) closed' := by
  have hinput := hinv.inBytes_it_add hleft (t := s.takeLiterals c) rfl rfl
  have hflushed (closed' : List Run) (hout : Emitted s.afterZeros closed') : Emitted (s.takeLiterals c) closed' :=
    hout.congr rfl rfl rfl rfl
  have hemitted := h.emitted.afterZeros hinv
  obtain ⟨-, hlt, -, -, -, hone, hptr, hdst, hroom⟩ := hinv
  have huc : (s.takeLiterals c).uc.toNat = s.uc.toNat + c.toNat := BitVec.toNat_add_of_lt (x := s.uc) (y := c) (by omega)
  have hpending : (s.takeLiterals c).pending =
      [.literals (s.inBytes (if s.uc.toNat = 0 then s.it else s.uPtr).toNat (s.uc.toNat + c.toNat))] := by
    rw [pending_of_literals rfl (by rw [ne_eq, ← toNat_eq_zero_iff]; omega), huc,
      inBytes_congr (s := s) (t := s.takeLiterals c) rfl]
    rfl
  have hproper : (Run.literals (s.inBytes s.it.toNat c.toNat)).Proper :=
    ⟨fun hnil => by simpa [← toNat_eq_zero_iff, hc.ne'] using congrArg List.length hnil, hne⟩
  have hstart (hu : s.uc = 0) : (s.takeLiterals c).pending = [.literals (s.inBytes s.it.toNat c.toNat)] := by
    rw [hpending, hu]
    simp
  rcases h.cases hone with ⟨hz, hu, hmaximal, hcovered⟩ | ⟨hz, hu, hmaximal, hcovered⟩ | ⟨hz, hu, rfl, hnone⟩
  · refine ⟨_, .of_last (hflushed _ hemitted) (hstart hu) (hmaximal.append_other hproper (by simp [Run.isZeros])) ?_⟩
    rw [hinput, ← hcovered, List.flatMap_append, List.flatMap_singleton]
    rfl
  · have hgrown : s.inBytes s.uPtr.toNat (s.uc.toNat + c.toNat) =
        s.inBytes s.uPtr.toNat s.uc.toNat ++ s.inBytes s.it.toNat c.toNat := by
      rw [inBytes_append, hptr hu]
    rw [if_neg (by rwa [toNat_eq_zero_iff]), hgrown] at hpending
    have hold := (maximal_append_singleton_iff.1 hmaximal).2.1
    have hboth : (Run.literals (s.inBytes s.uPtr.toNat s.uc.toNat ++ s.inBytes s.it.toNat c.toNat)).Proper :=
      ⟨List.append_ne_nil_of_left_ne_nil hold.1 _, by simpa [List.mem_append] using ⟨hold.2, hne⟩⟩
    refine ⟨closed, .of_last (hflushed _ ?_) hpending (hmaximal.replace_last hboth rfl) ?_⟩
    · rw [afterZeros_of_zc_eq_zero hz]
      exact h.emitted
    · rw [hinput, ← hcovered, List.append_assoc, Run.bytes]
  · refine ⟨[], .of_last (hflushed _ ?_) (hstart hu) (maximal_singleton hproper) ?_⟩
    · rw [afterZeros_of_zc_eq_zero hz]
      exact h.emitted
    · rw [hinput, hnone]
      rfl

/-- When OUT holds all the maximal runs of the input it holds the compressed frame (41_encoder.md R139). -/
theorem Emitted.compressedFrame {input : List Byte} (h : Emitted s closed) (hmaximal : Maximal closed)
    (hcovered : closed.flatMap Run.bytes = input) :
    s.outBytes 0 s.dst.toNat = bytesLE s.n.toNat 8 ++ compressedBody input := by
  rw [h, compressedBody_eq, bodySegments, ← hcovered, runsOf_flatMap_bytes hmaximal]

/-- With both counts flushed OUT holds the compressed frame of the bytes before `it` (41_encoder.md R129). -/
theorem Written.compressedFrame (h : Written s closed) (hinv : EncodeInv s) :
    s.afterLiterals.afterZeros.outBytes 0 s.afterLiterals.afterZeros.dst.toNat =
      bytesLE s.n.toNat 8 ++ compressedBody (s.inBytes 0 s.it.toNat) := by
  rcases h.cases hinv.one_pending with ⟨-, hu, hmaximal, hcovered⟩ | ⟨hz, -, hmaximal, hcovered⟩ | ⟨hz, hu, rfl, hnone⟩
  · rw [afterLiterals_of_uc_eq_zero hu]
    exact (h.emitted.afterZeros hinv).compressedFrame hmaximal
      (by rw [List.flatMap_append, List.flatMap_singleton]; exact hcovered)
  · rw [afterZeros_of_zc_eq_zero (s := s.afterLiterals) hz]
    exact (h.emitted.afterLiterals hinv).compressedFrame hmaximal
      (by rw [List.flatMap_append, List.flatMap_singleton]; exact hcovered)
  · rw [afterLiterals_of_uc_eq_zero hu, afterZeros_of_zc_eq_zero hz]
    exact h.emitted.compressedFrame maximal_nil hnone.symm

end

end Sys2Proof.Machine
end

section
/-! PROOFS. A whole encode (41_encoder.md R131 to R143): each step takes bytes of the input or goes on to the next phase, so that a run
from the start ends with the frame of its input. -/

namespace Sys2Proof.Machine

/-! ### The input, the counts and what is written -/

/-- An encode of `input` runs, with no host move pending, and has written the runs before the pending one. -/
structure Encodes (input : List Byte) (s : State) : Prop where
  alone : s.host = []
  input_eq : s.inBytes 0 s.n.toNat = input
  counts : EncodeInv s
  written : ∃ closed, Written s closed

namespace Encodes

variable {input : List Byte} {s t : State}

theorem length_input (h : Encodes input s) : input.length = s.n.toNat := by rw [← h.input_eq, inBytes_length]

theorem it_le (h : Encodes input s) : s.it.toNat ≤ input.length := by
  obtain ⟨-, -, -, -, hit, -⟩ := h.counts
  rw [h.length_input]
  exact hit

/-- The input stays where it is. -/
theorem input_eq_of_same (h : Encodes input s) (hmem : t.inMem = s.inMem) (hn : t.n = s.n) :
    t.inBytes 0 t.n.toNat = input := by
  rw [inBytes_congr hmem, hn, h.input_eq]

/-- The datapath formats are no part of it. -/
theorem withFormats (h : Encodes input s) (w m : Word) (l k r : Byte) : Encodes input (s.withFormats w m l k r) := by
  obtain ⟨closed, hwritten⟩ := h.written
  exact ⟨h.alone, h.input_eq_of_same rfl rfl, h.counts, closed, hwritten.congr (hwritten.emitted.congr rfl rfl rfl rfl)
    (pending_congr rfl rfl rfl rfl) rfl rfl⟩

/-- Nor is the phase. -/
theorem enter (h : Encodes input s) (p : Phase) : Encodes input (s.enter p) := by
  obtain ⟨closed, hwritten⟩ := h.written
  exact ⟨h.alone, h.input_eq_of_same rfl rfl, h.counts, closed, hwritten.congr (hwritten.emitted.congr rfl rfl rfl rfl)
    (pending_congr rfl rfl rfl rfl) rfl rfl⟩

end Encodes

/-- `t` comes from `s` by taking `c` bytes of the input, in the same phase. -/
structure Takes (input : List Byte) (c : Nat) (s t : State) : Prop where
  encodes : Encodes input t
  phase : t.phase = s.phase
  it : t.it.toNat = s.it.toNat + c

theorem Takes.trans {input : List Byte} {c d : Nat} {s t u : State} (h : Takes input c s t) (h' : Takes input d t u) :
    Takes input (c + d) s u :=
  ⟨h'.encodes, h'.phase.trans h.phase, by rw [h'.it, h.it, Nat.add_assoc]⟩

namespace Encodes

variable {input : List Byte} {s : State} {c : Word}

theorem takeZeros (h : Encodes input s) (hc : 0 < c.toNat) (hleft : s.it.toNat + c.toNat ≤ s.n.toNat)
    (hzero : ∀ i < c.toNat, s.inByte (s.it.toNat + i) = 0) : Takes input c.toNat s (s.takeZeros c) := by
  obtain ⟨closed, hwritten⟩ := h.written
  exact ⟨⟨h.alone, h.input_eq_of_same rfl rfl, h.counts.takeZeros hleft,
    hwritten.takeZeros h.counts hc hleft (inBytes_eq_replicate hzero)⟩, rfl, h.counts.toNat_it_add hleft⟩

theorem takeLiterals (h : Encodes input s) (hc : 0 < c.toNat) (hleft : s.it.toNat + c.toNat ≤ s.n.toNat)
    (hne : ∀ i < c.toNat, s.inByte (s.it.toNat + i) ≠ 0) : Takes input c.toNat s (s.takeLiterals c) := by
  obtain ⟨closed, hwritten⟩ := h.written
  exact ⟨⟨h.alone, h.input_eq_of_same rfl rfl, h.counts.takeLiterals hleft,
    hwritten.takeLiterals h.counts hc hleft (zero_notMem_inBytes hne)⟩, rfl, h.counts.toNat_it_add hleft⟩

end Encodes

/-! ### One word -/

/-- CASE_B's count of zeros: none, or as CASE_A takes them. -/
theorem addZeros_settled {c : State} (hone : c.zc = 0 ∨ c.uc = 0) :
    addZeros (c.settled.k.setWidth 64) c.settled = if c.k = 0 then c else c.takeZeros (c.k.setWidth 64) := by
  have hk : c.settled.k = c.k := by unfold State.settled; split <;> rfl
  rw [hk]
  split
  · next hnone =>
    have hsame : c.settled = c := by
      unfold State.settled
      split
      · rfl
      · next hdue => exact afterLiterals_of_uc_eq_zero (hone.resolve_left fun hz => hdue ⟨hz, hnone⟩)
    rw [hsame, hnone]
    simp [addZeros]
  · next hsome => rw [State.settled, if_neg (fun hskip => hsome hskip.2), State.takeZeros]

/-- CASE_B takes the word's zeros, if there are any, and then its run (41_encoder.md R124). -/
theorem flushAndCount_eq {c : State} (h : EncodeInv c) (hleft : c.it.toNat + c.k.toNat ≤ c.n.toNat) :
    flushAndCount c = .next ((if c.k = 0 then c else c.takeZeros (c.k.setWidth 64)).takeLiterals (c.r.setWidth 64)) := by
  have hcounted : EncodeInv (if c.k = 0 then c else c.takeZeros (c.k.setWidth 64)) := by
    split
    · exact h
    · exact h.takeZeros (by rw [BitVec.toNat_setWidth]; omega)
  have hr : c.settled.r = c.r := by unfold State.settled; split <;> rfl
  rw [← addZeros_settled h.one_pending] at hcounted ⊢
  have hroom : CanFlushZeros { c.settled with zc := c.settled.zc + c.settled.k.setWidth 64 } := hcounted.canFlushZeros
  rw [flushAndCount, settleLiterals_eq (.inr h.canFlushLiterals), andThen_next, flushPendingZeros_eq_next hroom, andThen_next,
    ← hr]
  rfl

namespace Encodes

variable {input : List Byte} {s : State}

/-- CASE_B takes the zero bytes at the head of the word, if there are any, and the nonzero bytes after them. -/
theorem flushAndCount_takes (h : Encodes input s) {w : Word} (hw : w ≠ 0)
    (hlanes : ∀ i < 8, w.extractLsb' (8 * i) 8 = s.inByte (s.it.toNat + i)) (hk : s.k = zerosOf w) (hr : s.r = runOf w)
    (hleft : s.it.toNat + 8 ≤ s.n.toNat) :
    ∃ t c, flushAndCount s = .next t ∧ 0 < c ∧ Takes input c s t := by
  have hword := zerosOf_add_runOf_le w
  have hrun := runOf_pos hw
  have hk' : (s.k.setWidth 64 : Word).toNat = (zerosOf w).toNat := by rw [BitVec.toNat_setWidth, hk]; omega
  have hr' : (s.r.setWidth 64 : Word).toNat = (runOf w).toNat := by rw [BitVec.toNat_setWidth, hr]; omega
  have hzero : ∀ i < (zerosOf w).toNat, s.inByte (s.it.toNat + i) = 0 := fun i hi => by
    rw [← hlanes i (by omega)]
    exact lane_of_lt_zerosOf hi
  have hne : ∀ i < (runOf w).toNat, s.inByte (s.it.toNat + (zerosOf w).toNat + i) ≠ 0 := fun i hi => by
    rw [Nat.add_assoc, ← hlanes _ (by omega)]
    exact lane_of_lt_runOf hi
  rw [flushAndCount_eq h.counts (by rw [hk]; omega)]
  split
  · next hnone =>
    rw [← hk, hnone, BitVec.ofNat_eq_ofNat, BitVec.toNat_ofNat, Nat.zero_mod, Nat.add_zero] at hne
    exact ⟨_, _, rfl, by omega, h.takeLiterals (by omega) (by omega) (hr' ▸ hne)⟩
  · next hsome =>
    rw [← toNat_eq_zero_iff, hk] at hsome
    have hz := h.takeZeros (c := s.k.setWidth 64) (by omega) (by omega) (hk' ▸ hzero)
    have hlen := hz.encodes.length_input.symm.trans h.length_input
    have hit := hz.it
    have hl := hz.encodes.takeLiterals (c := s.r.setWidth 64) (by omega) (by omega) fun i hi => by
      rw [hit, hk']
      exact hne i (by omega)
    exact ⟨_, _, rfl, by omega, hz.trans hl⟩

/-- A word takes at least one byte, whichever case it selects (41_encoder.md R122). -/
theorem execEncWord_takes (h : Encodes input s) (hleft : s.it.toNat + 8 ≤ s.n.toNat) :
    ∃ t c, execEncWord s = .next t ∧ 0 < c ∧ Takes input c s t := by
  obtain ⟨-, -, hin, -⟩ := h.counts
  have hlanes : ∀ i < 8, _ := fun i => lane_loaded s s.it.toNat (i := i)
  rw [execEncWord_eq (by omega), wordLoaded_eq]
  generalize BitVec.ofNat 64 (leNat (s.inBytes s.it.toNat 8)) = w at hlanes
  have hu := h.withFormats w (zeroMask w) s.l s.k s.r
  have hw : (s.withFormats w (zeroMask w) s.l s.k s.r).w = w := rfl
  have hm : (s.withFormats w (zeroMask w) s.l s.k s.r).m = zeroMask w := rfl
  have hleft' : (s.withFormats w (zeroMask w) s.l s.k s.r).it.toNat + (8 : Word).toNat ≤
      (s.withFormats w (zeroMask w) s.l s.k s.r).n.toNat := hleft
  rw [hw, hm]
  split
  · next hzero =>
    have ht := hu.takeZeros (c := 8) (by decide) hleft' fun i hi => by
      rw [← (eq_zero_iff_lanes w).1 hzero i hi]
      exact (hlanes i hi).symm
    exact ⟨_, _, execEncCaseA_eq hu.counts.canFlushLiterals, by decide, ht.encodes, ht.phase, ht.it⟩
  split
  · next hzero hsome =>
    rw [execEncCaseB_eq_flushAndCount, classified_eq]
    obtain ⟨t, c, ht, hc, htakes⟩ := (hu.withFormats w (zeroMask w) (layoutOf (zeroMask w)) (zerosOf w)
      (runOf w)).flushAndCount_takes hzero hlanes rfl rfl hleft
    exact ⟨t, c, ht, hc, htakes.encodes, htakes.phase, htakes.it⟩
  · next hnone =>
    have ht := hu.takeLiterals (c := 8) (by decide) hleft' fun i hi => by
      refine fun hbyte => lane_ne_zero_of_zeroMask_eq_zero (not_not.1 hnone) hi ?_
      exact (hlanes i hi).trans hbyte
    exact ⟨_, _, execEncCaseC_eq hu.counts.canFlushZeros, by decide, ht.encodes, ht.phase, ht.it⟩

/-- A tail byte is taken as a zero or as a literal (41_encoder.md R127, R128). -/
theorem stepTail_takes (h : Encodes input s) (hleft : s.it.toNat < s.n.toNat) :
    ∃ t, stepTail s = .next t ∧ Takes input 1 s t := by
  obtain ⟨-, -, hin, -⟩ := h.counts
  have honly (p : Byte → Prop) (hp : p (s.inByte s.it.toNat)) : ∀ i < (1 : Word).toNat, p (s.inByte (s.it.toNat + i)) := by
    intro i hi
    obtain rfl : i = 0 := Nat.lt_one_iff.1 hi
    exact hp
  rw [stepTail_of_byte_left hleft (by omega)]
  split
  · next hzero =>
    have htakes := h.takeZeros (c := 1) (by decide) hleft (honly (· = 0) hzero)
    exact ⟨_, execEncTailZero_eq h.counts.canFlushLiterals, htakes⟩
  · next hne =>
    have htakes := h.takeLiterals (c := 1) (by decide) hleft (honly (· ≠ 0) hne)
    exact ⟨_, execEncTailNonzero_eq h.counts.canFlushZeros, htakes⟩

end Encodes

end Sys2Proof.Machine
end

section
/-! PROOFS. A run of an encode from its command to its end (41_encoder.md R131 to R143): a measure bounds its steps, and its last step
leaves the frame of the input. -/

namespace Sys2Proof.Machine

/-! ### The end -/

/-- An encode of `input` has ended with its frame (41_encoder.md R132 to R134, R140). -/
structure HoldsFrame (input : List Byte) (t : State) : Prop where
  phase : t.phase = .done
  status : t.status = { busy := false, done := true, err := .none, verb := fallsBack input }
  length : t.outLen.toNat = (frameOf input).length
  result : t.outBytes 0 t.outLen.toNat = frameOf input
  bound : t.outLen.toNat ≤ 8 + input.length

theorem frameOf_of_fallsBack {input : List Byte} (h : fallsBack input = true) :
    frameOf input = bytesLE (input.length + 2 ^ 63) 8 ++ input := if_pos h

theorem frameOf_of_not_fallsBack {input : List Byte} (h : fallsBack input = false) :
    frameOf input = bytesLE input.length 8 ++ compressedBody input := if_neg (ne_true_of_eq_false h)

@[simp] theorem encodeDone_phase (s : State) : s.encodeDone.phase = .done := rfl
@[simp] theorem encodeDone_status (s : State) :
    s.encodeDone.status = { busy := false, done := true, err := .none, verb := s.status.verb } := rfl

/-- ENC_DONE loses nothing of the result. -/
theorem outBytes_encodeDone (s : State) : s.encodeDone.outBytes 0 s.outLen.toNat = s.outBytes 0 s.outLen.toNat :=
  outBytes_congr fun _ _ hx => outByte_encodeDone (by omega)

/-- Both counts are flushed, and OUT holds the compressed frame of the whole input (41_encoder.md R130). -/
structure Framed (input : List Byte) (s : State) : Prop where
  alone : s.host = []
  input_eq : s.inBytes 0 s.n.toNat = input
  counts : EncodeInv s
  frame : s.outBytes 0 s.dst.toNat = bytesLE s.n.toNat 8 ++ compressedBody input

namespace Framed

variable {input : List Byte} {s : State}

theorem length_input (h : Framed input s) : input.length = s.n.toNat := by rw [← h.input_eq, inBytes_length]

theorem toNat_dst (h : Framed input s) : s.dst.toNat = 8 + (compressedBody input).length := by
  simpa using congrArg List.length h.frame

/-- The fallback is taken exactly when the frame is longer than the input (41_encoder.md R131). -/
theorem fallsBack_eq (h : Framed input s) : fallsBack input = decide (s.n.toNat < s.dst.toNat) := by
  rw [fallsBack, h.length_input, h.toNat_dst]

theorem holdsFrame_fallenBack (h : Framed input s) (hlonger : s.n.toNat < s.dst.toNat) :
    HoldsFrame input s.fallenBack.encodeDone := by
  have hback : fallsBack input = true := by rw [h.fallsBack_eq, decide_eq_true hlonger]
  obtain ⟨-, hlt, -⟩ := h.counts
  have hlen := toNat_outLen_fallenBack hlt
  have hframe := outBytes_fallenBack_encodeDone hlt
  have hverb : s.fallenBack.status.verb = true := by rw [fallenBack_eq]
  have hout : frameOf input = bytesLE (s.n.toNat + 2 ^ 63) 8 ++ s.inBytes 0 s.n.toNat := by
    rw [frameOf_of_fallsBack hback, h.length_input, h.input_eq]
  refine ⟨encodeDone_phase _, ?_, ?_, ?_, ?_⟩
  · rw [encodeDone_status, hverb, hback]
  · rw [encodeDone_outLen, hlen, hout, List.length_append, bytesLE_length, inBytes_length]
  · rw [encodeDone_outLen, hlen, hframe, hout]
  · rw [encodeDone_outLen, hlen, h.length_input]

theorem holdsFrame_kept (h : Framed input s) (hfits : s.dst.toNat ≤ s.n.toNat) : HoldsFrame input s.kept.encodeDone := by
  have hback : fallsBack input = false := by rw [h.fallsBack_eq, decide_eq_false (Nat.not_lt.2 hfits)]
  have hout : frameOf input = bytesLE s.n.toNat 8 ++ compressedBody input := by
    rw [frameOf_of_not_fallsBack hback, h.length_input]
  have hkept : s.kept.outBytes 0 s.dst.toNat = frameOf input := by
    rw [hout, ← h.frame]
    exact outBytes_congr fun x _ _ => outByte_congr rfl rfl x
  refine ⟨encodeDone_phase _, ?_, ?_, ?_, ?_⟩
  · rw [encodeDone_status, hback]
    rfl
  · rw [encodeDone_outLen, ← hkept, outBytes_length]
    rfl
  · rw [encodeDone_outLen, outBytes_encodeDone]
    exact hkept
  · rw [encodeDone_outLen, h.length_input]
    exact Nat.le_add_left_of_le hfits

/-- ENC_FALLBACK ends the encode, in one way or the other. -/
theorem stepFallback_ends (h : Framed input s) : ∃ t, stepFallback s = .next t ∧ HoldsFrame input t := by
  obtain ⟨-, -, hin, hout, -⟩ := h.counts
  rcases Nat.lt_or_ge s.n.toNat s.dst.toNat with hlonger | hfits
  · rw [stepFallback_of_longer hlonger]
    exact ⟨_, execEncFallback_eq hin (by omega), h.holdsFrame_fallenBack hlonger⟩
  · rw [stepFallback_of_not_longer hfits]
    exact ⟨_, execEncNoFallback_eq s, h.holdsFrame_kept hfits⟩

end Framed

theorem Framed.enter {input : List Byte} {s : State} (h : Framed input s) (p : Phase) : Framed input (s.enter p) where
  alone := h.alone
  input_eq := (inBytes_congr (s := s) (by rfl) _ _).trans h.input_eq
  counts := h.counts
  frame := (outBytes_congr (s := s) fun x _ _ => outByte_congr (by rfl) (by rfl) x).trans h.frame

/-! ### The last flushes -/

@[simp] theorem afterZeros_host (s : State) : s.afterZeros.host = s.host := rfl
@[simp] theorem afterZeros_inMem (s : State) : s.afterZeros.inMem = s.inMem := rfl
@[simp] theorem afterZeros_n (s : State) : s.afterZeros.n = s.n := rfl
@[simp] theorem afterZeros_it (s : State) : s.afterZeros.it = s.it := rfl
@[simp] theorem afterLiterals_host (s : State) : s.afterLiterals.host = s.host := rfl
@[simp] theorem afterLiterals_inMem (s : State) : s.afterLiterals.inMem = s.inMem := rfl
@[simp] theorem afterLiterals_n (s : State) : s.afterLiterals.n = s.n := rfl
@[simp] theorem afterLiterals_it (s : State) : s.afterLiterals.it = s.it := rfl

/-- With both counts flushed at the end of the input OUT holds its compressed frame (41_encoder.md R129). -/
theorem Encodes.framed_flushed {input : List Byte} {s : State} (h : Encodes input s) (hall : s.it = s.n) :
    Framed input s.afterLiterals.afterZeros := by
  obtain ⟨closed, hwritten⟩ := h.written
  have hframe := hwritten.compressedFrame h.counts
  rw [hall, h.input_eq] at hframe
  refine ⟨by simp [h.alone], h.input_eq_of_same (by simp) (by simp), h.counts.afterLiterals.afterZeros, ?_⟩
  rw [hframe, afterZeros_n, afterLiterals_n]

/-! ### The steps -/

/-- Where an encode of `input` is, by its phase. -/
inductive Running (input : List Byte) (s : State) : Prop
  | main (phase : s.phase = .encMain) (encodes : Encodes input s)
  | tail (phase : s.phase = .encTail) (encodes : Encodes input s)
  | final (phase : s.phase = .encFinal) (encodes : Encodes input s) (all : s.it = s.n)
  | fallback (phase : s.phase = .encFallback) (framed : Framed input s)

/-- How many phases of an encode are to come. -/
def Phase.encodePhasesLeft : Phase → Nat
  | .encMain => 3
  | .encTail => 2
  | .encFinal => 1
  | .idle | .encFallback | .decHeader | .decVerbatim | .decBody | .decCheck | .done => 0

/-- The bytes and the phases to come: each step but the last takes of one or of the other. -/
def encodeLeft (input : List Byte) (s : State) : Nat := (input.length - s.it.toNat) + s.phase.encodePhasesLeft

/-- Taking bytes leaves fewer. -/
theorem Takes.encodeLeft_lt {input : List Byte} {c : Nat} {s t : State} (h : Takes input c s t) (hc : 0 < c) :
    encodeLeft input t < encodeLeft input s := by
  have hle := h.encodes.it_le
  have hit := h.it
  rw [encodeLeft, encodeLeft, h.phase]
  omega

theorem Running.step_advances {input : List Byte} {s : State} (h : Running input s) :
    ∃ t, step s = .next t ∧ (HoldsFrame input t ∨ Running input t ∧ encodeLeft input t < encodeLeft input s) := by
  cases h with
  | main hp h =>
    rw [step_of_host_nil h.alone, coreStep_encMain hp]
    rcases Nat.lt_or_ge s.n.toNat (s.it.toNat + 8) with hshort | hleft
    · refine ⟨_, stepMain_of_no_word_left hshort, .inr ⟨.tail rfl (h.enter .encTail), ?_⟩⟩
      simp [encodeLeft, hp, Phase.encodePhasesLeft]
    · rw [stepMain_of_word_left hleft]
      obtain ⟨t, c, ht, hc, htakes⟩ := h.execEncWord_takes hleft
      exact ⟨t, ht, .inr ⟨.main (htakes.phase.trans hp) htakes.encodes, htakes.encodeLeft_lt hc⟩⟩
  | tail hp h =>
    rw [step_of_host_nil h.alone, coreStep_encTail hp]
    rcases Nat.lt_or_ge s.it.toNat s.n.toNat with hleft | hnone
    · obtain ⟨t, ht, htakes⟩ := h.stepTail_takes hleft
      exact ⟨t, ht, .inr ⟨.tail (htakes.phase.trans hp) htakes.encodes, htakes.encodeLeft_lt Nat.one_pos⟩⟩
    · have hall : s.it.toNat = s.n.toNat := Nat.le_antisymm (h.length_input ▸ h.it_le) hnone
      refine ⟨_, stepTail_of_no_byte_left hnone, .inr ⟨.final rfl (h.enter .encFinal) (BitVec.eq_of_toNat_eq hall), ?_⟩⟩
      simp [encodeLeft, hp, Phase.encodePhasesLeft]
  | final hp h hall =>
    rw [step_of_host_nil h.alone, coreStep_encFinal hp]
    have hframed := h.framed_flushed hall
    refine ⟨_, execEncFinal_eq h.counts.canFlushLiterals h.counts.afterLiterals.canFlushZeros,
      .inr ⟨.fallback (State.enter_phase ..) (hframed.enter .encFallback), ?_⟩⟩
    simp [encodeLeft, hp, Phase.encodePhasesLeft]
  | fallback hp h =>
    rw [step_of_host_nil h.alone, coreStep_encFallback hp]
    obtain ⟨t, ht, hend⟩ := h.stepFallback_ends
    exact ⟨t, ht, .inl hend⟩

/-! ### The whole encode -/

/-- The state after ENC_START, with what OUT then is. -/
def State.ready (s : State) (out : Memory) : State :=
  { s with n := s.inLen, outMem := out, dst := 8, zc := 0, uc := 0, uPtr := 0, it := 0, phase := .encMain }

theorem started_eq_ready (s : State) :
    s.started = s.ready (s.storeOut 0 (bytesLE (headerWord false s.inLen).toNat 8)).outMem := by
  unfold State.started
  generalize bytesLE (headerWord false s.inLen).toNat 8 = header
  rfl

/-- With the header in OUT nothing is written yet, and nothing taken (41_encoder.md R120). -/
theorem encodes_ready {s : State} {out : Memory} (halone : s.host = []) (hlt : s.inLen.toNat < 2 ^ 63)
    (hin : s.inLen.toNat ≤ s.inSize.toNat) (hout : 8 + 2 * s.inLen.toNat ≤ s.outSize.toNat)
    (hheader : (s.ready out).outBytes 0 8 = bytesLE s.inLen.toNat 8) :
    Encodes (s.inBytes 0 s.inLen.toNat) (s.ready out) where
  alone := halone
  input_eq := inBytes_congr (s := s) (by rfl) _ _
  counts := ⟨rfl, hlt, hin, hout, Nat.zero_le _, .inl rfl, fun hne => absurd rfl hne, Nat.le_refl 8, Nat.le_refl 8⟩
  written := ⟨[], hheader.trans (List.append_nil _).symm, maximal_nil, rfl, fun _ => rfl⟩

theorem encodes_started {s : State} (halone : s.host = []) (hlt : s.inLen.toNat < 2 ^ 63)
    (hin : s.inLen.toNat ≤ s.inSize.toNat) (hout : 8 + 2 * s.inLen.toNat ≤ s.outSize.toNat) :
    Encodes (s.inBytes 0 s.inLen.toNat) s.started := by
  have hheader := outBytes_storeOut_same s 0 (bytesLE (headerWord false s.inLen).toNat 8)
  rw [bytesLE_length] at hheader
  rw [started_eq_ready]
  refine encodes_ready halone hlt hin hout (.trans ?_ hheader)
  exact outBytes_congr fun x _ _ => outByte_congr (by rfl) (by rfl) x

/-- The start checks passed, COMPRESS runs ENC_START at once (44_commands.md R212; 60_exceptions.md R246). -/
theorem execCmdCompress_starts {s : State} (ign : BitVec 56) (hidle : s.status.busy = false) (hlt : s.inLen.toNat < 2 ^ 63)
    (hin : s.inLen.toNat ≤ s.inSize.toNat) (hout : 8 + 2 * s.inLen.toNat ≤ s.outSize.toNat) :
    execCmdCompress ign s = .next s.accept.started := by
  rcases unlessBusy_cases s _ with ⟨hbusy, -⟩ | ⟨-, hmeet⟩
  · rw [hidle] at hbusy
    cases hbusy
  · rw [execCmdCompress, hmeet]
    have hroom : 8 ≤ s.accept.outSize.toNat := (Nat.le_add_right 8 _).trans hout
    exact (if_neg (Nat.not_le.2 hlt)).trans <| (if_neg (Nat.not_lt.2 hin)).trans <| (if_neg (Nat.not_lt.2 hout)).trans <|
      execEncStart_eq hroom

/-- An encode whose start checks pass ends with the frame of its input, within IN_LEN + 4 steps (41_encoder.md R137). -/
theorem compress_holdsFrame {s : State} (ign : BitVec 56) (halone : s.host = []) (hidle : s.status.busy = false)
    (hlt : s.inLen.toNat < 2 ^ 63) (hin : s.inLen.toNat ≤ s.inSize.toNat)
    (hout : 8 + 2 * s.inLen.toNat ≤ s.outSize.toNat) :
    ∃ s₁ t k, exec (.cmdCompress ign) s = .next s₁ ∧ k ≤ s.inLen.toNat + 4 ∧ Sys2Proof.core.run k s₁ = .next t ∧
      HoldsFrame (s.inBytes 0 s.inLen.toNat) t := by
  have hinput : s.accept.inBytes 0 s.inLen.toNat = s.inBytes 0 s.inLen.toNat :=
    inBytes_congr (s := s) (t := s.accept) rfl _ _
  have hstart : Encodes (s.inBytes 0 s.inLen.toNat) s.accept.started :=
    hinput ▸ encodes_started (s := s.accept) halone hlt hin hout
  obtain ⟨k, t, hk, hrun, hend⟩ := run_within (encodeLeft _) (fun _ h => Running.step_advances h) (Running.main rfl hstart)
  have hleft : encodeLeft (s.inBytes 0 s.inLen.toNat) s.accept.started = s.inLen.toNat + 3 := by
    rw [encodeLeft, inBytes_length]
    rfl
  exact ⟨_, t, k, execCmdCompress_starts ign hidle hlt hin hout, by omega, hrun, hend⟩

/-- Settles O58: the run from ENC_START, with what its last step leaves. -/
theorem encodeProducesTheFrame : Obligations.EncodeProducesTheFrame := by
  intro s ign halone hidle hlt hin hout
  obtain ⟨s₁, t, k, hstart, hk, hrun, hphase, hstatus, hlength, hresult, hbound⟩ :=
    compress_holdsFrame ign halone hidle hlt hin hout
  rw [inBytes_length] at hbound
  exact ⟨s₁, t, k, hstart, hk, hrun, hphase, hstatus, hlength, hresult, hbound⟩

end Sys2Proof.Machine
end

section
/-! PROOFS. A decode of a frame that is written out segment by segment (43_decoder.md R180 to R193): each step runs the segment at the head
of what is left of the body, and so the decode gives what the segments stand for. -/

namespace Sys2Proof.Machine

/-! ### Bytes of IN -/

/-- A string in IN splits where its bytes do. -/
theorem inBytes_eq_append {s : State} {a len : Nat} {xs ys : List Byte} (h : s.inBytes a len = xs ++ ys) :
    s.inBytes a xs.length = xs ∧ s.inBytes (a + xs.length) ys.length = ys := by
  have hlen : len = xs.length + ys.length := by simpa using congrArg List.length h
  rw [hlen, inBytes_append] at h
  exact List.append_inj h (inBytes_length ..)

/-! ### One segment -/

/-- A control byte says how many length bytes follow it (30_encoding.md R63, R64). -/
theorem encode_body_eq_cons {i : Instr} {e : List Byte} (hwf : i.wf = true) (he : encode i = some (.body, e)) :
    ∃ c b, e = c :: b ∧ b.length = lengthBytes c := by
  cases i with
  | zrunLong x | litLong x =>
    cases he
    exact ⟨_, _, rfl, bytesLE_length ..⟩
  | zrunShort v =>
    cases he
    have hlt := v.isLt
    have hpos := bne_zero_iff.1 hwf
    refine ⟨_, [], rfl, (if_neg ?_).symm⟩
    rw [BitVec.toNat_ofNat]
    omega
  | litShort n =>
    cases he
    have hlt := n.isLt
    have hpos := bne_zero_iff.1 hwf
    refine ⟨_, [], rfl, (if_neg ?_).symm⟩
    rw [BitVec.toNat_ofNat]
    omega
  | _ => cases he

/-- DEC_BODY runs the instruction whose bytes stand at `ip`, past its control byte and length (43_decoder.md R184). -/
theorem stepBody_of_encode {s : State} {i : Instr} {e tail : List Byte} (hwf : i.wf = true)
    (he : encode i = some (.body, e)) (hin : s.inLen.toNat ≤ s.inSize.toNat)
    (hbytes : s.inBytes s.ip.toNat (s.inLen.toNat - s.ip.toNat) = e ++ tail) :
    stepBody s = exec i { s with ip := s.ip + BitVec.ofNat 64 e.length } := by
  obtain ⟨c, b, rfl, hb⟩ := encode_body_eq_cons hwf he
  have hleft : s.inLen.toNat - s.ip.toNat = b.length + tail.length + 1 := by
    simpa [Nat.add_right_comm] using congrArg List.length hbytes
  obtain ⟨hc, hrest⟩ := inBytes_eq_append (xs := [c]) (ys := b ++ tail) hbytes
  obtain ⟨hlength, -⟩ := inBytes_eq_append hrest
  have hdecode : decodeBody ([c] ++ b) = .ok (i, []) := by
    simpa using decodeBody_of_encode hwf he []
  have hlen : min (([c].map lengthBytes).sum) (s.inLen.toNat - s.ip.toNat - 1) = b.length := by
    simp only [List.map_cons, List.map_nil, List.sum_cons, List.sum_nil]
    omega
  simp only [List.length_singleton] at hc hlength
  unfold stepBody
  dsimp only
  rw [if_neg (by omega), withIn_of_fits _ (.inr (by omega)), hc, hlen, withIn_of_fits _ (.inr (by omega)), hlength, hdecode,
    List.length_cons, Nat.add_comm]

/-- A literal segment whose payload is there and fits (43_decoder.md R185, R186). -/
theorem copyLiterals_eq {s : State} {p tail : List Byte} (hip : s.ip.toNat ≤ s.inLen.toNat)
    (hin : s.inLen.toNat ≤ s.inSize.toNat) (hbytes : s.inBytes s.ip.toNat (s.inLen.toNat - s.ip.toNat) = p ++ tail)
    (hroom : s.op.toNat + p.length ≤ s.hN.toNat) (hout : s.hN.toNat ≤ s.outSize.toNat) :
    copyLiterals p.length s = .next { s.storeOut s.op.toNat p with
      ip := s.ip + BitVec.ofNat 64 p.length, op := s.op + BitVec.ofNat 64 p.length } := by
  have hleft : s.inLen.toNat - s.ip.toNat = p.length + tail.length := by simpa using congrArg List.length hbytes
  obtain ⟨hp, -⟩ := inBytes_eq_append hbytes
  rw [copyLiterals, if_neg (by omega), if_neg (by omega), withIn_of_fits _ (.inr (by omega)), hp,
    putOut_of_fits (.inr (by omega)), andThen_next]
  rfl

/-- A zero segment that fits (43_decoder.md R187, R188, R192). -/
theorem fillZeros_eq {s : State} {c : Nat} (hroom : s.op.toNat + c ≤ s.hN.toNat) (hout : s.hN.toNat ≤ s.outSize.toNat) :
    fillZeros c s = .next { s.storeOut s.op.toNat (List.replicate c 0) with op := s.op + BitVec.ofNat 64 c } := by
  rw [fillZeros, if_neg (by omega), putOut_of_fits (.inr (by rw [List.length_replicate]; omega)), andThen_next]
  rfl

/-- A segment is its control byte and length and, where it is one of literals, its payload; the decoder fills in zeros or copies the
payload (30_encoding.md R64). -/
theorem segment_cases {g : Segment} (hwf : g.wf = true) :
    (∃ i e c, i.wf = true ∧ encode i = some (.body, e) ∧ exec i = fillZeros c ∧ g.encode = e ∧
      g.expand = List.replicate c 0) ∨
    (∃ i e p, i.wf = true ∧ encode i = some (.body, e) ∧ exec i = copyLiterals p.length ∧ g.encode = e ++ p ∧
      g.expand = p) := by
  cases g with
  | zs v =>
    obtain ⟨hpos, hle⟩ : 1 ≤ v ∧ v ≤ 127 := by simpa [Segment.wf] using hwf
    obtain ⟨count, rfl⟩ : ∃ count : BitVec 7, count.toNat = v := exists_toNat_eq (by omega)
    exact .inl ⟨.zrunShort count, _, count.toNat, bne_zero_iff.2 hpos, rfl, rfl, rfl, rfl⟩
  | zl s =>
    have hle : s ≤ 65535 := of_decide_eq_true hwf
    obtain ⟨count, rfl⟩ : ∃ count : BitVec 16, count.toNat = s := exists_toNat_eq (by omega)
    exact .inl ⟨.zrunLong count, _, count.toNat, rfl, rfl, rfl, rfl, rfl⟩
  | ls p =>
    obtain ⟨hpos, hle⟩ : 1 ≤ p.length ∧ p.length ≤ 127 := by simpa [Segment.wf] using hwf
    obtain ⟨count, hcount⟩ : ∃ count : BitVec 7, count.toNat = p.length := exists_toNat_eq (by omega)
    refine .inr ⟨.litShort count, _, p, bne_zero_iff.2 (hcount ▸ hpos), rfl, ?_, ?_, rfl⟩
    · rw [← hcount]
      rfl
    · rw [hcount]
      rfl
  | ll p =>
    have hle : p.length ≤ 65535 := of_decide_eq_true hwf
    obtain ⟨count, hcount⟩ : ∃ count : BitVec 16, count.toNat = p.length := exists_toNat_eq (by omega)
    refine .inr ⟨.litLong count, _, p, rfl, rfl, ?_, ?_, rfl⟩
    · rw [← hcount]
      rfl
    · rw [hcount]
      rfl

/-- The state after a segment: its items are in OUT, and both cursors are past it. -/
def State.pastSegment (s : State) (g : Segment) : State :=
  { s.storeOut s.op.toNat g.expand with
    ip := s.ip + BitVec.ofNat 64 g.encode.length, op := s.op + BitVec.ofNat 64 g.expand.length }

theorem inBytes_pastSegment (s : State) (g : Segment) (a len : Nat) : (s.pastSegment g).inBytes a len = s.inBytes a len :=
  inBytes_congr (by rfl) a len

theorem outBytes_pastSegment (s : State) (g : Segment) :
    (s.pastSegment g).outBytes 0 (s.op.toNat + g.expand.length) = s.outBytes 0 s.op.toNat ++ g.expand := by
  rw [← outBytes_storeOut_append]
  exact outBytes_congr fun x _ _ => outByte_congr (by rfl) (by rfl) x

/-- DEC_BODY runs a segment that stands at `ip` and whose items fit (43_decoder.md R184 to R188). -/
theorem stepBody_segment {s : State} {g : Segment} {tail : List Byte} (hwf : g.wf = true)
    (hin : s.inLen.toNat ≤ s.inSize.toNat) (hip : s.ip.toNat ≤ s.inLen.toNat)
    (hbytes : s.inBytes s.ip.toNat (s.inLen.toNat - s.ip.toNat) = g.encode ++ tail)
    (hroom : s.op.toNat + g.expand.length ≤ s.hN.toNat) (hout : s.hN.toNat ≤ s.outSize.toNat) :
    stepBody s = .next (s.pastSegment g) := by
  have hlen : s.inLen.toNat - s.ip.toNat = g.encode.length + tail.length := by simpa using congrArg List.length hbytes
  rcases segment_cases hwf with ⟨i, e, c, hi, he, hexec, hg, hitems⟩ | ⟨i, e, p, hi, he, hexec, hg, hitems⟩
  · rw [hg] at hbytes
    rw [hitems, List.length_replicate] at hroom
    rw [stepBody_of_encode hi he hin hbytes, hexec, State.pastSegment, hg, hitems, List.length_replicate]
    exact fillZeros_eq (s := { s with ip := s.ip + BitVec.ofNat 64 e.length }) hroom hout
  · rw [hg, List.length_append] at hlen
    rw [hg, List.append_assoc] at hbytes
    rw [hitems] at hroom
    obtain ⟨-, hpayload⟩ := inBytes_eq_append hbytes
    have hmoved : (s.ip + BitVec.ofNat 64 e.length).toNat = s.ip.toNat + e.length :=
      toNat_add_ofNat_of_le (y := s.inLen) (by omega)
    rw [stepBody_of_encode hi he hin hbytes, hexec, State.pastSegment, hg, hitems, List.length_append, BitVec.ofNat_add,
      ← BitVec.add_assoc]
    refine copyLiterals_eq (s := { s with ip := s.ip + BitVec.ofNat 64 e.length }) (tail := tail) ?_ hin ?_ hroom hout
    · dsimp only
      omega
    · dsimp only
      rw [hmoved, show s.inLen.toNat - (s.ip.toNat + e.length) = (p ++ tail).length by rw [List.length_append]; omega]
      exact (inBytes_congr (s := s) (by rfl) _ _).trans hpayload

/-! ### The whole body -/

/-- A decode has ended without error, with `content` as its result (43_decoder.md R191, R193). -/
structure Decoded (content : List Byte) (t : State) : Prop where
  done : t.status.done = true
  noError : t.status.err = .none
  length : t.outLen.toNat = content.length
  result : t.outBytes 0 t.outLen.toNat = content

/-- DEC_DONE reports what stands in OUT (43_decoder.md R191). -/
theorem decoded_close {content : List Byte} {s : State} (hlength : s.hN.toNat = content.length)
    (hresult : s.outBytes 0 s.hN.toNat = content) : Decoded content (s.close .none s.hflag s.hN) where
  done := rfl
  noError := rfl
  length := hlength
  result := (outBytes_congr (s := s) fun x _ _ => outByte_congr (by rfl) (by rfl) x).trans hresult

/-- A decode runs, with no host move pending: these segments are left of its body, and with what they stand for OUT will hold
`content`. -/
structure Decodes (content : List Byte) (segs : List Segment) (s : State) : Prop where
  alone : s.host = []
  phase : s.phase = .decBody
  wf : ∀ g ∈ segs, g.wf = true
  ip_le : s.ip.toNat ≤ s.inLen.toNat
  inFits : s.inLen.toNat ≤ s.inSize.toNat
  outFits : s.hN.toNat ≤ s.outSize.toNat
  body : s.inBytes s.ip.toNat (s.inLen.toNat - s.ip.toNat) = encodeBody segs
  length : s.hN.toNat = content.length
  result : s.outBytes 0 s.op.toNat ++ expandBody segs = content

namespace Decodes

variable {content : List Byte} {g : Segment} {segs : List Segment} {s t : State}

/-- What the segments left produce still fits. -/
theorem op_add (h : Decodes content segs s) : s.op.toNat + (expandBody segs).length = s.hN.toNat := by
  simpa [h.length] using congrArg List.length h.result

theorem step_eq (h : Decodes content segs s) : step s = stepBody s := by
  rw [step_of_host_nil h.alone]
  simp only [coreStep, h.phase]

/-- What is left of the body after the segment at its head. -/
theorem body_tail (h : Decodes content (g :: segs) s) :
    s.ip.toNat + g.encode.length ≤ s.inLen.toNat ∧
      s.inBytes (s.ip.toNat + g.encode.length) (s.inLen.toNat - (s.ip.toNat + g.encode.length)) = encodeBody segs := by
  have hbody : s.inBytes s.ip.toNat (s.inLen.toNat - s.ip.toNat) = g.encode ++ encodeBody segs := h.body
  have hlen : s.inLen.toNat - s.ip.toNat = g.encode.length + (encodeBody segs).length := by
    simpa using congrArg List.length hbody
  have hle := h.ip_le
  obtain ⟨-, htail⟩ := inBytes_eq_append hbody
  refine ⟨by omega, ?_⟩
  rwa [show s.inLen.toNat - (s.ip.toNat + g.encode.length) = (encodeBody segs).length by omega]

/-- What the segment at the head produces still fits. -/
theorem op_add_expand_le (h : Decodes content (g :: segs) s) : s.op.toNat + g.expand.length ≤ s.hN.toNat := by
  have hall := h.op_add
  rw [expandBody, List.flatMap_cons, List.length_append] at hall
  omega

/-- The segment at the head is done. -/
theorem pastSegment (h : Decodes content (g :: segs) s) : Decodes content segs (s.pastSegment g) := by
  obtain ⟨hleft, htail⟩ := h.body_tail
  have hip : (s.pastSegment g).ip.toNat = s.ip.toNat + g.encode.length := toNat_add_ofNat_of_le hleft
  have hop : (s.pastSegment g).op.toNat = s.op.toNat + g.expand.length := toNat_add_ofNat_of_le h.op_add_expand_le
  refine ⟨h.alone, h.phase, (List.forall_mem_cons.1 h.wf).2, hip.trans_le hleft, h.inFits, h.outFits, ?_, h.length, ?_⟩
  · rw [hip, inBytes_pastSegment]
    exact htail
  · rw [hop, outBytes_pastSegment, List.append_assoc]
    exact h.result

/-- The segment at the head is run. -/
theorem step_segment (h : Decodes content (g :: segs) s) : step s = .next (s.pastSegment g) := by
  rw [h.step_eq]
  exact stepBody_segment (tail := encodeBody segs) (List.forall_mem_cons.1 h.wf).1 h.inFits h.ip_le h.body
    h.op_add_expand_le h.outFits

/-- With no segment left the decode goes on to its check, which it passes (43_decoder.md R184, R189). -/
theorem run_check (h : Decodes content [] s) : ∃ t, Sys2Proof.core.run 2 s = .next t ∧ Decoded content t := by
  have hend : s.inLen.toNat ≤ s.ip.toNat := by
    have hnone := congrArg List.length h.body
    simp [encodeBody] at hnone
    omega
  have hall : s.op = s.hN := BitVec.eq_of_toNat_eq (by simpa [expandBody] using h.op_add)
  have hcheck : step s = .next (s.enter .decCheck) := by
    rw [h.step_eq, stepBody]
    exact if_pos hend
  have hdone : step (s.enter .decCheck) = .next ((s.enter .decCheck).close .none s.hflag s.hN) := by
    rw [step_of_host_nil (s := s.enter .decCheck) h.alone, coreStep_decCheck rfl]
    exact if_neg (not_not_intro hall)
  have hresult : s.outBytes 0 s.hN.toNat = content := by
    rw [← h.result, ← hall]
    exact (List.append_nil _).symm
  refine ⟨_, run_succ_of_step hcheck (run_succ_of_step hdone (run_zero _)), decoded_close h.length ?_⟩
  exact (outBytes_congr (s := s) fun x _ _ => outByte_congr (by rfl) (by rfl) x).trans hresult

/-- The decode of the segments that are left. -/
theorem run (h : Decodes content segs s) : ∃ k t, Sys2Proof.core.run k s = .next t ∧ Decoded content t := by
  induction segs generalizing s with
  | nil =>
    obtain ⟨t, hrun, hend⟩ := h.run_check
    exact ⟨2, t, hrun, hend⟩
  | cons g segs ih =>
    obtain ⟨k, u, hrun, hend⟩ := ih h.pastSegment
    exact ⟨k + 1, u, run_succ_of_step h.step_segment hrun, hend⟩

end Decodes

end Sys2Proof.Machine
end

section
/-! PROOFS. A decode of the frame of an encode (41_encoder.md R143): its header says which body follows, and either body gives the input
back. -/

namespace Sys2Proof.Machine

/-! ### The header -/

/-- The fields of a header value (30_encoding.md R60). -/
theorem header_fields {n : Nat} (hlt : n < 2 ^ 63) (flag : Bool) :
    headerFlag (BitVec.ofNat 64 (n + 2 ^ 63 * flag.toNat)) = flag ∧
      (headerLength (BitVec.ofNat 64 (n + 2 ^ 63 * flag.toNat))).toNat = n := by
  have hvalue : (BitVec.ofNat 64 (n + 2 ^ 63 * flag.toNat)).toNat = n + 2 ^ 63 * flag.toNat := by
    cases flag <;> simp <;> omega
  constructor
  · rw [headerFlag, getLsbD_last, hvalue]
    cases flag
    · exact decide_eq_false (by simp; omega)
    · exact decide_eq_true (by simp)
  · rw [headerLength, BitVec.extractLsb'_toNat, hvalue, Nat.shiftRight_zero, Nat.add_mul_mod_self_left, Nat.mod_eq_of_lt hlt]

/-- DEC_HEADER takes the header that stands at the head of IN (43_decoder.md R180). -/
theorem execDecHeader_takes {s : State} {n : Nat} {flag : Bool} {rest : List Byte} (hlt : n < 2 ^ 63)
    (hbytes : s.inBytes 0 s.inLen.toNat = bytesLE (n + 2 ^ 63 * flag.toNat) 8 ++ rest)
    (hin : s.inLen.toNat ≤ s.inSize.toNat) (hout : n ≤ s.outSize.toNat) :
    execDecHeader s = .next { s with
      hflag := flag, hN := BitVec.ofNat 64 n, ip := 8, op := 0, phase := if flag then .decVerbatim else .decBody } := by
  obtain ⟨hheader, -⟩ := inBytes_eq_append hbytes
  have hlen : s.inLen.toNat = 8 + rest.length := by simpa using congrArg List.length hbytes
  obtain ⟨hflag, hlength⟩ := header_fields hlt flag
  rw [bytesLE_length] at hheader
  have hload : s.loadWord 0 = some (BitVec.ofNat 64 (n + 2 ^ 63 * flag.toNat)) := by
    rw [State.loadWord, readIn_eq_some_iff.2 ⟨.inr (by omega), rfl⟩, Option.map_some, hheader,
      ofNat_leNat_bytesLE (w := 64) (len := 8) rfl]
  have hN : (headerLength (BitVec.ofNat 64 (n + 2 ^ 63 * flag.toNat))).setWidth 64 = BitVec.ofNat 64 n := by
    rw [← BitVec.ofNat_toNat, hlength]
  rw [execDecHeader, if_neg (by omega), hload]
  dsimp only
  rcases takeHeader_cases (headerFlag _) (headerLength (BitVec.ofNat 64 (n + 2 ^ 63 * flag.toNat))) s with
    ⟨hover, -⟩ | ⟨-, htake⟩
  · omega
  · rw [htake, hN, hflag]

/-! ### The two bodies -/

/-- A verbatim body is copied, and the decode is done (43_decoder.md R183, R191). -/
theorem copyVerbatim_decodes {s : State} {content : List Byte} (hbody : s.inBytes 8 s.hN.toNat = content)
    (hleft : 8 + s.hN.toNat ≤ s.inLen.toNat) (hin : s.inLen.toNat ≤ s.inSize.toNat)
    (hout : s.hN.toNat ≤ s.outSize.toNat) : ∃ t, copyVerbatim s = .next t ∧ Decoded content t := by
  have hlen : s.hN.toNat = content.length := by rw [← hbody, inBytes_length]
  have hread := outBytes_storeOut_same s 0 content
  rw [← hlen] at hread
  rw [copyVerbatim, if_neg (by omega), withIn_of_fits _ (.inr (by omega)), hbody, putOut_of_fits (.inr (by omega)),
    andThen_next]
  refine ⟨_, rfl, decoded_close (s := { s.storeOut 0 content with ip := 8 + s.hN, op := s.hN }) hlen ?_⟩
  exact (outBytes_congr fun x _ _ => outByte_congr (by rfl) (by rfl) x).trans hread

section
variable {input : List Byte} {s : State}

/-- Once its header is taken, a decode of a verbatim frame takes one step (43_decoder.md R183). -/
theorem decode_verbatim (halone : s.host = []) (hlt : input.length < 2 ^ 63) (hin : s.inLen.toNat ≤ s.inSize.toNat)
    (hout : input.length ≤ s.outSize.toNat)
    (hbytes : s.inBytes 0 s.inLen.toNat = bytesLE (input.length + 2 ^ 63) 8 ++ input) :
    ∃ t, Sys2Proof.core.run 1 { s with
      hflag := true, hN := BitVec.ofNat 64 input.length, ip := 8, op := 0, phase := .decVerbatim } = .next t ∧
      Decoded input t := by
  have hlen : s.inLen.toNat = 8 + input.length := by simpa using congrArg List.length hbytes
  obtain ⟨-, hinput⟩ := inBytes_eq_append hbytes
  rw [bytesLE_length] at hinput
  have hN : (BitVec.ofNat 64 input.length).toNat = input.length := by rw [BitVec.toNat_ofNat]; omega
  generalize BitVec.ofNat 64 input.length = len at hN
  rw [← hN] at hinput
  have hbounds : DecodeInv { s with hflag := true, hN := len, ip := 8, op := 0, phase := .decVerbatim } :=
    ⟨hin, hN.trans_le hout, hN.trans_lt hlt, Nat.le_refl 8, Nat.le_of_add_right_le hlen.ge, Nat.zero_le _⟩
  obtain ⟨t, ht, hend⟩ := copyVerbatim_decodes
    (s := { s with hflag := true, hN := len, ip := 8, op := 0, phase := .decVerbatim })
    ((inBytes_congr (s := s) (by rfl) _ _).trans hinput) (by simp only; omega) hin (hN.trans_le hout)
  refine ⟨t, run_succ_of_step ?_ (run_zero t), hend⟩
  rw [step_of_host_nil (s := { s with hflag := true, hN := len, ip := 8, op := 0, phase := .decVerbatim }) halone,
    coreStep_decVerbatim rfl]
  exact (execHdrVerbatim_eq_copyVerbatim rfl hbounds rfl rfl rfl).trans ht

/-- Once its header is taken, a decode of a compressed frame has all its segments before it (43_decoder.md R184). -/
theorem decodes_bodySegments (halone : s.host = []) (hlt : input.length < 2 ^ 63) (hin : s.inLen.toNat ≤ s.inSize.toNat)
    (hout : input.length ≤ s.outSize.toNat)
    (hbytes : s.inBytes 0 s.inLen.toNat = bytesLE input.length 8 ++ compressedBody input) :
    Decodes input (bodySegments input) { s with
      hflag := false, hN := BitVec.ofNat 64 input.length, ip := 8, op := 0, phase := .decBody } := by
  have hlen : s.inLen.toNat = 8 + (compressedBody input).length := by simpa using congrArg List.length hbytes
  obtain ⟨-, hbody⟩ := inBytes_eq_append hbytes
  rw [bytesLE_length, show (compressedBody input).length = s.inLen.toNat - 8 by omega] at hbody
  have hN : (BitVec.ofNat 64 input.length).toNat = input.length := by rw [BitVec.toNat_ofNat]; omega
  exact ⟨halone, rfl, fun _ => wf_of_mem_bodySegments _, Nat.le_of_add_right_le hlen.ge, hin, hN.trans_le hout,
    (inBytes_congr (s := s) (by rfl) _ _).trans hbody, hN, expandBody_bodySegments input⟩

/-! ### The whole decode -/

theorem execCmdDecompress_starts (ign : BitVec 56) (hidle : s.status.busy = false) (hin : s.inLen.toNat ≤ s.inSize.toNat) :
    execCmdDecompress ign s = .next (s.accept.enter .decHeader) := by
  rcases unlessBusy_cases s _ with ⟨hbusy, -⟩ | ⟨-, hmeet⟩
  · rw [hidle] at hbusy
    cases hbusy
  · rw [execCmdDecompress, hmeet]
    exact if_neg (Nat.not_lt.2 hin)

/-- From DEC_HEADER on, a decode of the frame of `input` gives `input` back. -/
theorem decode_frameOf (halone : s.host = []) (hphase : s.phase = .decHeader) (hlt : input.length < 2 ^ 63)
    (hin : s.inLen.toNat ≤ s.inSize.toNat) (hout : input.length ≤ s.outSize.toNat)
    (hbytes : s.inBytes 0 s.inLen.toNat = frameOf input) :
    ∃ k t, Sys2Proof.core.run k s = .next t ∧ Decoded input t := by
  have hstep : step s = execDecHeader s := by
    rw [step_of_host_nil halone, coreStep_decHeader hphase]
    rfl
  cases hback : fallsBack input with
  | true =>
    rw [frameOf_of_fallsBack hback] at hbytes
    obtain ⟨t, hrun, hend⟩ := decode_verbatim halone hlt hin hout hbytes
    exact ⟨2, t, run_succ_of_step (hstep.trans (execDecHeader_takes (flag := true) hlt hbytes hin hout)) hrun, hend⟩
  | false =>
    rw [frameOf_of_not_fallsBack hback] at hbytes
    obtain ⟨k, t, hrun, hend⟩ := (decodes_bodySegments halone hlt hin hout hbytes).run
    exact ⟨k + 1, t, run_succ_of_step (hstep.trans (execDecHeader_takes (flag := false) hlt hbytes hin hout)) hrun, hend⟩

end

/-- Settles O60: the encode ends with the frame of its input, and the decode of that frame ends with the input. -/
theorem decompressOfCompressIsTheInput : Obligations.DecompressOfCompressIsTheInput := by
  intro s ign halone hidle hlt hin hout
  obtain ⟨s₁, t, k, hstart, -, hrun, hframe⟩ := compress_holdsFrame ign halone hidle hlt hin hout
  refine ⟨s₁, t, hstart, ⟨by rw [hframe.status], k, hrun⟩, by rw [hframe.status], ?_⟩
  intro u ign' halone' hidle' hlen hin' hout' hcopy
  rw [hframe.result] at hcopy
  have hinput : (u.accept.enter .decHeader).inBytes 0 u.inLen.toNat = frameOf (s.inBytes 0 s.inLen.toNat) :=
    (inBytes_congr (s := u) (by rfl) _ _).trans hcopy
  obtain ⟨k', v, hrun', hend⟩ := decode_frameOf (s := u.accept.enter .decHeader) halone' rfl
    ((inBytes_length ..).trans_lt hlt) hin' ((inBytes_length ..).trans_le hout') hinput
  have hlength : v.outLen = s.inLen := BitVec.eq_of_toNat_eq (hend.length.trans (inBytes_length ..))
  exact ⟨_, v, execCmdDecompress_starts ign' hidle' hin', ⟨hend.done, k', hrun'⟩, hend.noError, hlength, hend.result⟩

end Sys2Proof.Machine
end

section
/-! PROOFS. What the emission writer emits, in closed form (42_emission.md R161 to R164, R166): the turns of the first loop, then at
most two pieces for what is left of the count. -/

namespace Sys2Proof.Machine

/-! ### The pieces of a count -/

/-- How many turns the first loop takes, with 65535 items in each (42_emission.md R162). -/
def longTurns (c : Nat) : Nat := (c - 1) / 65535

/-- What the first loop leaves of a count. -/
def leftOver (c : Nat) : Nat := c - 65535 * longTurns c

/-- The pieces of a count that skips the first loop. -/
def lastPieces (c : Nat) : List Piece :=
  if 254 < c then [.long c] else if 127 < c then [.short 127, .short (c - 127)] else if 0 < c then [.short c] else []

theorem longTurns_of_le {c : Nat} (h : c ≤ 65535) : longTurns c = 0 := Nat.div_eq_of_lt (by omega)

theorem longTurns_of_gt {c : Nat} (h : 65535 < c) : longTurns c = longTurns (c - 65535) + 1 := by
  unfold longTurns
  omega

theorem leftOver_of_le {c : Nat} (h : c ≤ 65535) : leftOver c = c := by
  rw [leftOver, longTurns_of_le h, Nat.mul_zero, Nat.sub_zero]

theorem leftOver_of_gt {c : Nat} (h : 65535 < c) : leftOver c = leftOver (c - 65535) := by
  rw [leftOver, longTurns_of_gt h, Nat.mul_add_one, Nat.add_comm, Nat.sub_add_eq, leftOver]

theorem leftOver_le (c : Nat) : leftOver c ≤ 65535 := by
  unfold leftOver longTurns
  omega

theorem leftOver_pos {c : Nat} (h : 0 < c) : 0 < leftOver c := by
  unfold leftOver longTurns
  omega

/-- The first loop takes 65535 items a turn; the loop `while c > 127` takes one turn at most, as 254 items at most enter it. With
fuel for the whole count the pieces do not depend on the fuel. -/
theorem piecesFrom_eq {fuel c : Nat} (h : c ≤ fuel) :
    piecesFrom fuel c = List.replicate (longTurns c) (.long 65535) ++ lastPieces (leftOver c) := by
  induction fuel generalizing c with
  | zero =>
    obtain rfl := Nat.le_zero.1 h
    rfl
  | succ fuel ih =>
    by_cases hlong : 65535 < c
    · rw [piecesFrom, if_pos hlong, ih (by omega), longTurns_of_gt hlong, leftOver_of_gt hlong, List.replicate_succ,
        List.cons_append]
    rw [longTurns_of_le (by omega), leftOver_of_le (by omega)]
    by_cases htwo : 127 < c ∧ c ≤ 254
    · have hrest : piecesFrom fuel (c - 127) = [.short (c - 127)] := by
        rw [ih (by omega), longTurns_of_le (by omega), leftOver_of_le (by omega)]
        simp [lastPieces, show ¬254 < c - 127 by omega, show ¬127 < c - 127 by omega, htwo.1]
      simp [piecesFrom, lastPieces, hlong, hrest, htwo.1, Nat.not_lt.2 htwo.2]
    · rw [piecesFrom, if_neg hlong, List.replicate_zero, List.nil_append, lastPieces]
      by_cases hbranch : 254 < c
      · rw [if_pos hbranch, if_pos hbranch]
      · have hshort : ¬127 < c := by omega
        rw [if_neg hbranch, if_neg hbranch, if_neg hshort, if_neg hshort]

theorem pieces_eq (c : Nat) : pieces c = List.replicate (longTurns c) (.long 65535) ++ lastPieces (leftOver c) :=
  piecesFrom_eq (Nat.le_refl c)

theorem pieces_of_gt {c : Nat} (h : 65535 < c) : pieces c = .long 65535 :: pieces (c - 65535) := by
  rw [pieces_eq, longTurns_of_gt h, leftOver_of_gt h, pieces_eq (c - 65535), List.replicate_succ, List.cons_append]

theorem pieces_of_le {c : Nat} (h : c ≤ 65535) : pieces c = lastPieces c := by
  rw [pieces_eq, longTurns_of_le h, leftOver_of_le h]
  rfl

theorem pieces_one_long {c : Nat} (h : 254 < c) (hle : c ≤ 65535) : pieces c = [.long c] := by
  rw [pieces_of_le hle, lastPieces, if_pos h]

theorem pieces_two_short {c : Nat} (h : 127 < c) (hle : c ≤ 254) : pieces c = [.short 127, .short (c - 127)] := by
  rw [pieces_of_le (by omega), lastPieces, if_neg (by omega), if_pos h]

theorem pieces_one_short {c : Nat} (h : 0 < c) (hle : c ≤ 127) : pieces c = [.short c] := by
  rw [pieces_of_le (by omega), lastPieces, if_neg (by omega), if_neg (by omega), if_pos h]

/-! ### Zero runs -/

theorem writeZeros_eq (z : Nat) : writeZeros z =
    List.replicate (longTurns z) (.zl 65535) ++ (lastPieces (leftOver z)).map Piece.zeroSegment := by
  rw [writeZeros, pieces_eq, List.map_append, List.map_replicate]
  rfl

theorem encodeBody_writeZeros (z : Nat) : encodeBody (writeZeros z) =
    (List.replicate (longTurns z) [0x00, 0xFF, 0xFF]).flatten ++
      encodeBody ((lastPieces (leftOver z)).map Piece.zeroSegment) := by
  have hlong : (Segment.zl 65535).encode = [0x00, 0xFF, 0xFF] := rfl
  rw [writeZeros_eq, encodeBody_append, encodeBody, List.flatMap_def, List.map_replicate, hlong]

theorem map_zeroSegment_lastPieces {c : Nat} (h : 0 < c) : (lastPieces c).map Piece.zeroSegment =
    if 255 ≤ c then [.zl c] else if 128 ≤ c then [.zs 127, .zs (c - 127)] else [.zs c] := by
  rw [lastPieces, if_pos h, apply_ite (List.map _), apply_ite (List.map _)]
  rfl

theorem encodeBody_zeroSegments_lastPieces (c : Nat) : encodeBody ((lastPieces c).map Piece.zeroSegment) =
    if c > 254 then 0x00 :: bytesLE c 2
    else if c > 127 then [0x7F, BitVec.ofNat 8 (c - 127)]
    else if c > 0 then [BitVec.ofNat 8 c]
    else [] := by
  rw [lastPieces, apply_ite (List.map _), apply_ite (List.map _), apply_ite (List.map _), apply_ite encodeBody,
    apply_ite encodeBody, apply_ite encodeBody]
  rfl

theorem length_encodeBody_zeroSegments_lastPieces {c : Nat} (h : 0 < c) :
    (encodeBody ((lastPieces c).map Piece.zeroSegment)).length = if 255 ≤ c then 3 else if 128 ≤ c then 2 else 1 := by
  rw [encodeBody_zeroSegments_lastPieces, if_pos h, apply_ite List.length, apply_ite List.length]
  rfl

theorem flushZeros_eq_next {s : State} (h : CanFlushZeros s) : flushZeros s = .next s.afterZeros :=
  flushZeros_eq_next_iff.2 ⟨h.imp_left zeroBytes_of_zc_eq_zero, rfl⟩

/-- Settles O22: what is appended is the encoding of the run's segments, which the closed form of its pieces spells out. -/
theorem flushZerosAppendsTheRun : Obligations.FlushZerosAppendsTheRun := by
  intro s hroom a left bytes
  have hbytes : s.zeroBytes = bytes :=
    (encodeBody_writeZeros s.zc.toNat).trans (congrArg _ (encodeBody_zeroSegments_lastPieces _))
  rw [← hbytes]
  exact flushZeros_eq_next hroom

/-- Settles O23: the closed form of the pieces, as segments and in bytes. -/
theorem zeroSegmentsHaveTheirClosedForm : Obligations.ZeroSegmentsHaveTheirClosedForm := by
  refine ⟨rfl, fun z hz => ⟨⟨leftOver_pos hz, leftOver_le z, longTurns_of_le⟩, ?_, ?_⟩⟩
  · rw [writeZeros_eq, map_zeroSegment_lastPieces (leftOver_pos hz)]
    rfl
  · rw [encodeBody_writeZeros, List.length_append, length_encodeBody_zeroSegments_lastPieces (leftOver_pos hz),
      List.length_flatten, List.map_replicate, List.sum_replicate, smul_eq_mul, Nat.mul_comm]
    rfl

/-! ### Literal runs -/

theorem writeLiterals_of_gt {bs : List Byte} (h : 65535 < bs.length) :
    writeLiterals bs = .ll (bs.take 65535) :: writeLiterals (bs.drop 65535) := by
  rw [writeLiterals, pieces_of_gt h, cutLiterals, writeLiterals, List.length_drop]
  rfl

theorem writeLiterals_one_long {bs : List Byte} (h : 254 < bs.length) (hle : bs.length ≤ 65535) :
    writeLiterals bs = [.ll bs] := by
  simp only [writeLiterals, pieces_one_long h hle, cutLiterals, Piece.literalSegment, Piece.items, List.take_length]

theorem writeLiterals_two_short {bs : List Byte} (h : 127 < bs.length) (hle : bs.length ≤ 254) :
    writeLiterals bs = [.ls (bs.take 127), .ls (bs.drop 127)] := by
  simp only [writeLiterals, pieces_two_short h hle, cutLiterals, Piece.literalSegment, Piece.items, ← List.length_drop,
    List.take_length]

theorem writeLiterals_one_short {bs : List Byte} (h : 0 < bs.length) (hle : bs.length ≤ 127) :
    writeLiterals bs = [.ls bs] := by
  simp only [writeLiterals, pieces_one_short h hle, cutLiterals, Piece.literalSegment, Piece.items, List.take_length]

theorem encodeBody_cons (g : Segment) (gs : List Segment) : encodeBody (g :: gs) = g.encode ++ encodeBody gs :=
  List.flatMap_cons

/-- Settles O25: the segments of each range of lengths, encoded. -/
theorem literalBytesFollowTheThresholds : Obligations.LiteralBytesFollowTheThresholds := by
  have hnil : encodeBody [] = [] := rfl
  refine fun bs => ⟨fun h => ?_, fun h => ?_, fun h => ?_, fun h => ?_, fun h => ?_⟩
  · rw [List.length_eq_zero_iff.1 h]
    rfl
  · rw [writeLiterals_one_short h.1 h.2, encodeBody_cons, hnil, List.append_nil, Segment.encode]
  · rw [writeLiterals_two_short h.1 h.2, encodeBody_cons, encodeBody_cons, hnil, List.append_nil]
    have htake : (bs.take 127).length = 127 := List.length_take_of_le (by omega)
    rw [Segment.encode, Segment.encode, htake, List.length_drop]
    rfl
  · rw [writeLiterals_one_long h.1 h.2, encodeBody_cons, hnil, List.append_nil, Segment.encode]
  · have htake : (bs.take 65535).length = 65535 := List.length_take_of_le (Nat.le_of_lt h)
    rw [writeLiterals_of_gt h, encodeBody_cons, Segment.encode, htake]
    rfl

/-- Settles O26: every piece is in the range of its form, and the middle range has two. -/
theorem emittedSegmentsAreCanonical : Obligations.EmittedSegmentsAreCanonical :=
  ⟨fun _ => ⟨canonical_of_mem_writeZeros, fun h hle => congrArg (List.map Piece.zeroSegment) (pieces_two_short h hle)⟩,
    fun _ => ⟨canonical_of_mem_writeLiterals, writeLiterals_two_short⟩⟩

/-! ### The literal cursor -/

theorem lastPieces_ne_nil {c : Nat} (h : 0 < c) : lastPieces c ≠ [] := by
  rw [lastPieces, if_pos h]
  split
  · exact List.cons_ne_nil _ _
  · split <;> exact List.cons_ne_nil _ _

/-- Of the pieces after the first loop only a first short form is not the last. -/
theorem sum_items_dropLast_lastPieces (c : Nat) :
    ((lastPieces c).dropLast.map Piece.items).sum = if 128 ≤ c ∧ c ≤ 254 then 127 else 0 := by
  by_cases htwo : 128 ≤ c ∧ c ≤ 254
  · rw [if_pos htwo, lastPieces, if_neg (Nat.not_lt.2 htwo.2), if_pos (show 127 < c from htwo.1)]
    rfl
  · rw [if_neg htwo, lastPieces]
    split
    · rfl
    · rw [if_neg (show ¬127 < c by omega)]
      split <;> rfl

theorem literalAdvance_eq (c : Nat) :
    literalAdvance c = 65535 * longTurns c + if 128 ≤ leftOver c ∧ leftOver c ≤ 254 then 127 else 0 := by
  rcases Nat.eq_zero_or_pos c with rfl | hc
  · rfl
  · rw [literalAdvance, pieces_eq, List.dropLast_append_of_ne_nil (lastPieces_ne_nil (leftOver_pos hc)), List.map_append,
      List.sum_append, sum_items_dropLast_lastPieces, List.map_replicate, List.sum_replicate, smul_eq_mul, Nat.mul_comm]
    rfl

theorem flushLiterals_eq_next {s : State} (h : CanFlushLiterals s) : flushLiterals s = .next s.afterLiterals :=
  flushLiterals_eq_next_iff.2 ⟨h.imp (fun huc => (toNat_eq_zero_iff _).2 huc) fun hroom => hroom.1,
    h.imp literalBytes_of_uc_eq_zero fun hroom => hroom.2, rfl⟩

/-- Settles O24: the flush is the state of 42_emission.md R160 and R163, and its cursor moves over all pieces but the last. -/
theorem flushLiteralsAppendsTheRun : Obligations.FlushLiteralsAppendsTheRun := by
  intro s hroom bytes a rest
  have hflush : exec .flushLiterals s = .next s.afterLiterals := flushLiterals_eq_next hroom
  rw [hflush, State.afterLiterals, literalAdvance_eq]
  rfl

end Sys2Proof.Machine
end

section
/-! PROOFS. The decoder's rows one by one (43_decoder.md R180 to R191): for each row what it answers where its checks pass, and what
where one fails. -/

namespace Sys2Proof.Machine

/-! ### The header (43_decoder.md R180, R182) -/

theorem headerFlag_eq (h : Word) : headerFlag h = decide (2 ^ 63 ≤ h.toNat) := getLsbD_last h

theorem toNat_headerLength (h : Word) : (headerLength h).toNat = h.toNat % 2 ^ 63 := by
  rw [headerLength, BitVec.extractLsb'_toNat, Nat.shiftRight_zero]

theorem setWidth_headerLength (h : Word) : (headerLength h).setWidth 64 = BitVec.ofNat 64 (h.toNat % 2 ^ 63) := by
  rw [← BitVec.ofNat_toNat, toNat_headerLength]

/-- The width of a register holds every length. -/
theorem toNat_setWidth_length (len : BitVec 63) : (len.setWidth 64).toNat = len.toNat :=
  BitVec.toNat_setWidth_of_le (by decide)

/-- The state in which a header is taken (43_decoder.md R180). -/
def State.headerTaken (s : State) (flag : Bool) (len : BitVec 63) : State :=
  { s with hflag := flag, hN := len.setWidth 64, ip := 8, op := 0, phase := if flag then .decVerbatim else .decBody }

theorem toNat_hN_headerTaken (s : State) (flag : Bool) (len : BitVec 63) : (s.headerTaken flag len).hN.toNat = len.toNat :=
  toNat_setWidth_length len

section
variable {s : State} {len : BitVec 63}

theorem takeHeader_of_fits (flag : Bool) (hfits : len.toNat ≤ s.outSize.toNat) :
    takeHeader flag len s = .next (s.headerTaken flag len) := by
  rcases takeHeader_cases flag len s with ⟨hover, -⟩ | ⟨-, htake⟩
  · exact absurd hover (Nat.not_lt.2 hfits)
  · exact htake

theorem takeHeader_of_over (flag : Bool) (hover : s.outSize.toNat < len.toNat) :
    takeHeader flag len s = .next (s.failed .capacity) := by
  rcases takeHeader_cases flag len s with ⟨-, htake⟩ | ⟨hfits, -⟩
  · exact htake
  · exact absurd hover (Nat.not_lt.2 hfits)

theorem execDecHeader_of_short (hlen : s.inLen.toNat < 8) : execDecHeader s = .next (s.failed .invalidFrame) := if_pos hlen

theorem execDecHeader_of_not_short (hlen : 8 ≤ s.inLen.toNat) (hin : 8 ≤ s.inSize.toNat) :
    execDecHeader s = takeHeader (headerFlag (BitVec.ofNat 64 (leNat (s.inBytes 0 8))))
      (headerLength (BitVec.ofNat 64 (leNat (s.inBytes 0 8)))) s := by
  rw [execDecHeader, if_neg (Nat.not_lt.2 hlen), State.loadWord, readIn_eq_some_iff.2 ⟨.inr hin, rfl⟩]
  rfl

end

/-- Settles O38: taking the header that the eight bytes are, where they are there. -/
theorem decHeaderTakesFlagAndLength : Obligations.DecHeaderTakesFlagAndLength := by
  intro s h flag len
  have hvalue : (BitVec.ofNat 64 h).toNat = h := toNat_ofNat_leNat (by rw [inBytes_length])
  have hflag : headerFlag (BitVec.ofNat 64 h) = flag := by rw [headerFlag_eq, hvalue]
  have hN : (headerLength (BitVec.ofNat 64 h)).toNat = h % 2 ^ 63 := by rw [toNat_headerLength, hvalue]
  have hlen : (headerLength (BitVec.ofNat 64 h)).setWidth 64 = len := by rw [setWidth_headerLength, hvalue]
  have htake (h8 : 8 ≤ s.inLen.toNat) (hin : 8 ≤ s.inSize.toNat) :
      exec .decHeader s = takeHeader flag (headerLength (BitVec.ofNat 64 h)) s :=
    hflag ▸ execDecHeader_of_not_short h8 hin
  rw [← hN, ← hlen]
  exact ⟨execDecHeader_of_short, fun h8 hin hover => (htake h8 hin).trans (takeHeader_of_over flag hover),
    fun h8 hin hfits => (htake h8 hin).trans (takeHeader_of_fits flag hfits)⟩

/-! ### A verbatim body (43_decoder.md R183, R191) -/

section
variable {s : State} {len : BitVec 63}

theorem copyVerbatim_of_short (hshort : s.inLen.toNat < 8 + s.hN.toNat) :
    copyVerbatim s = .next (s.failed .invalidFrame) := if_pos hshort

theorem copyVerbatim_eq (hleft : 8 + s.hN.toNat ≤ s.inLen.toNat) (hin : 8 + s.hN.toNat ≤ s.inSize.toNat)
    (hout : s.hN.toNat ≤ s.outSize.toNat) :
    copyVerbatim s = .next (({ s.storeOut 0 (s.inBytes 8 s.hN.toNat) with
      ip := 8 + s.hN, op := s.hN } : State).close .none s.hflag s.hN) := by
  have hfit : 0 + (s.inBytes 8 s.hN.toNat).length ≤ s.outSize.toNat := by rwa [inBytes_length, Nat.zero_add]
  rw [copyVerbatim, if_neg (Nat.not_lt.2 hleft), withIn_of_fits _ (.inr hin), putOut_of_fits (.inr hfit)]
  rfl

/-- The row takes the header and goes on to its body. -/
theorem execHdrVerbatim_of_fits (hfits : len.toNat ≤ s.outSize.toNat) :
    execHdrVerbatim len s = copyVerbatim (s.headerTaken true len) := by
  rw [execHdrVerbatim, takeHeader_of_fits true hfits]
  rfl

theorem execHdrVerbatim_of_over (hover : s.outSize.toNat < len.toNat) :
    execHdrVerbatim len s = .next (s.failed .capacity) := by
  rw [execHdrVerbatim, takeHeader_of_over true hover]
  rfl

end

/-- Settles O40: the header is taken or not, and then its body is there or not. -/
theorem verbatimHeaderCopiesTheBody : Obligations.VerbatimHeaderCopiesTheBody := by
  intro len s
  have hN : (s.headerTaken true len).hN.toNat = len.toNat := toNat_hN_headerTaken s true len
  refine ⟨fun hfits hleft hin => ?_, fun hfits hshort => ?_, execHdrVerbatim_of_over⟩
  · have hbody : (s.headerTaken true len).inBytes 8 len.toNat = s.inBytes 8 len.toNat := inBytes_congr (by rfl) ..
    refine (execHdrVerbatim_of_fits hfits).trans ?_
    rw [← hbody]
    rw [← hN] at hfits hleft hin ⊢
    exact copyVerbatim_eq hleft hin hfits
  · rw [← hN] at hshort
    exact (execHdrVerbatim_of_fits hfits).trans (copyVerbatim_of_short hshort)

/-! ### The segments (43_decoder.md R185 to R188, R192) -/

section
variable {s : State} {c : Nat}

/-- Truncation and overflow raise the same error. -/
theorem copyLiterals_raises (h : s.inLen.toNat < s.ip.toNat + c ∨ s.hN.toNat < s.op.toNat + c) :
    copyLiterals c s = raiseInBody .invalidFrame s := by
  unfold copyLiterals
  split
  · rfl
  · next hleft => exact if_pos (h.resolve_left hleft)

theorem fillZeros_raises (h : s.hN.toNat < s.op.toNat + c) : fillZeros c s = raiseInBody .invalidFrame s := if_pos h

theorem copyLiterals_eq_of_le (hleft : s.ip.toNat + c ≤ s.inLen.toNat) (hroom : s.op.toNat + c ≤ s.hN.toNat)
    (hin : s.inLen.toNat ≤ s.inSize.toNat) (hout : s.hN.toNat ≤ s.outSize.toNat) :
    copyLiterals c s = .next { s.storeOut s.op.toNat (s.inBytes s.ip.toNat c) with
      ip := s.ip + BitVec.ofNat 64 c, op := s.op + BitVec.ofNat 64 c } := by
  have hbytes := inBytes_append s s.ip.toNat c (s.inLen.toNat - s.ip.toNat - c)
  rw [show c + (s.inLen.toNat - s.ip.toNat - c) = s.inLen.toNat - s.ip.toNat by omega] at hbytes
  have hcopy := copyLiterals_eq (Nat.le_of_add_right_le hleft) hin hbytes (by rwa [inBytes_length]) hout
  rwa [inBytes_length] at hcopy

end

/-- Settles O41: both forms copy literals, of their own count. -/
theorem literalSegmentsCopyTheirPayload : Obligations.LiteralSegmentsCopyTheirPayload := by
  intro i c s hform
  have hexec : exec i s = copyLiterals c s := by rcases hform with ⟨x, rfl, rfl⟩ | ⟨x, rfl, rfl⟩ <;> rfl
  rw [hexec]
  exact ⟨copyLiterals_eq_of_le, copyLiterals_raises⟩

/-- Settles O42: both forms fill in zeros, of their own count. -/
theorem zeroSegmentsWriteZeroBytes : Obligations.ZeroSegmentsWriteZeroBytes := by
  intro i c s hform
  have hexec : exec i s = fillZeros c s := by rcases hform with ⟨x, rfl, rfl⟩ | ⟨x, rfl, rfl⟩ <;> rfl
  rw [hexec]
  exact ⟨fillZeros_eq, fillZeros_raises⟩

/-! ### The end (43_decoder.md R189, R191) -/

section
variable {s : State}

theorem execDecCheck_of_eq (h : s.op = s.hN) : execDecCheck s = .next (s.close .none s.hflag s.hN) :=
  if_neg (not_not_intro h)

theorem execDecCheck_raises (h : s.op ≠ s.hN) : execDecCheck s = raiseInBody .invalidFrame s := if_pos h

end

/-- Settles O43: the check's two answers, of which the first is DEC_DONE. -/
theorem decCheckAcceptsExactlyN : Obligations.DecCheckAcceptsExactlyN :=
  fun _ => ⟨execDecCheck_of_eq, execDecCheck_raises, rfl⟩

end Sys2Proof.Machine
end

section
/-! PROOFS. A step in DEC_BODY (43_decoder.md R184 to R187): it runs what the bytes at `ip` decode to, or finds a length cut short, or
no byte left. -/

namespace Sys2Proof.Machine

/-- A control byte is rejected only where its length is cut short (30_encoding.md R63, R65). -/
theorem decodeBody_cons_error {c : Byte} {tail : List Byte} {e : DecodeError} (h : decodeBody (c :: tail) = .error e) :
    e = .lengthTruncated ∧ lengthBytes c = 2 ∧ tail.length < 2 := by
  have hlong {mk : BitVec 16 → Instr} (h : decodeLength mk tail = .error e) : e = .lengthTruncated ∧ tail.length < 2 := by
    rcases Nat.lt_or_ge tail.length 2 with hshort | hlength
    · rw [decodeLength_of_length_lt hshort] at h
      cases h
      exact ⟨rfl, hshort⟩
    · obtain ⟨b1, b2, rest, rfl⟩ : ∃ b1 b2 rest, tail = b1 :: b2 :: rest := by
        match tail, hlength with
        | b1 :: b2 :: rest, _ => exact ⟨b1, b2, rest, rfl⟩
      cases h
  rcases controlByte_cases c with hc | ⟨v, hc, hv⟩ | hc | ⟨n, hc, hn⟩
  · obtain ⟨he, hshort⟩ := hlong ((decodeBody_zrunLong hc tail).symm.trans h)
    exact ⟨he, if_pos (.inl hc), hshort⟩
  · cases (decodeBody_zrunShort hc hv tail).symm.trans h
  · obtain ⟨he, hshort⟩ := hlong ((decodeBody_litLong hc tail).symm.trans h)
    exact ⟨he, if_pos (.inr hc), hshort⟩
  · cases (decodeBody_litShort hc hn tail).symm.trans h

section
variable {s : State}

theorem coreStep_decBody (h : s.phase = .decBody) : coreStep s = stepBody s := by simp only [coreStep, h]

theorem stepBody_of_exhausted (h : s.inLen.toNat ≤ s.ip.toNat) : stepBody s = .next (s.enter .decCheck) := if_pos h

theorem stepBody_of_decodes {i : Instr} {rest : List Byte} (hin : s.inLen.toNat ≤ s.inSize.toNat)
    (h : decodeBody (s.inBytes s.ip.toNat (s.inLen.toNat - s.ip.toNat)) = .ok (i, rest)) :
    stepBody s = exec i { s with ip := s.ip + BitVec.ofNat 64 (s.inLen.toNat - s.ip.toNat - rest.length) } := by
  obtain ⟨hwf, e, he, hbytes⟩ := decodeBody_encodes h
  have hlen : s.inLen.toNat - s.ip.toNat = e.length + rest.length := by simpa using congrArg List.length hbytes
  rw [hlen, Nat.add_sub_cancel, stepBody_of_encode hwf he hin hbytes]

/-- All that is left is read, and still it is no length. -/
theorem stepBody_of_truncated {e : DecodeError} (hleft : s.ip.toNat < s.inLen.toNat) (hin : s.inLen.toNat ≤ s.inSize.toNat)
    (h : decodeBody (s.inBytes s.ip.toNat (s.inLen.toNat - s.ip.toNat)) = .error e) :
    stepBody s = raiseInBody .invalidFrame { s with ip := s.ip + 1 } := by
  obtain ⟨left, hl⟩ := Nat.exists_eq_add_one.2 (Nat.sub_pos_of_lt hleft)
  rw [hl] at h
  obtain ⟨-, htwo, hshort⟩ := decodeBody_cons_error h
  rw [inBytes_length] at hshort
  have hread : min (([s.inByte s.ip.toNat].map lengthBytes).sum) left = left := by
    rw [List.map_singleton, List.sum_singleton, htwo]
    omega
  have hbyte : s.inBytes s.ip.toNat 1 = [s.inByte s.ip.toNat] := rfl
  have hdecode : decodeBody ([s.inByte s.ip.toNat] ++ s.inBytes (s.ip.toNat + 1) left) = .error e := h
  unfold stepBody
  dsimp only
  rw [if_neg (Nat.not_le.2 hleft), withIn_of_fits _ (.inr (by omega)), hbyte, hl, Nat.add_sub_cancel, hread,
    withIn_of_fits _ (.inr (by omega)), hdecode]

end

/-- Settles O46: the step is the core's in DEC_BODY, and its bytes decode, are cut short, or are used up. -/
theorem stepRunsTheDecodedControlByte : Obligations.StepRunsTheDecodedControlByte := by
  intro s hhost hphase hin
  rw [step_of_host_nil hhost, coreStep_decBody hphase]
  refine ⟨fun i rest _ => stepBody_of_decodes hin, fun htrunc => ?_, stepBody_of_exhausted⟩
  have hleft : s.ip.toNat < s.inLen.toNat := by
    by_contra hend
    rw [Nat.sub_eq_zero_of_le (Nat.le_of_not_lt hend)] at htrunc
    cases htrunc
  exact stepBody_of_truncated hleft hin htrunc

end Sys2Proof.Machine
end

section
/-! PROOFS. What a decoding step leaves of the memories (43_decoder.md R194; 20_memory.md R59): the segment forms store their own items,
no step of a decode changes OUT at or beyond N, and the rows that store nothing change neither memory. -/

namespace Sys2Proof.Machine

/-! ### The segment forms -/

/-- Everything a segment of `c` items does when it answers: it raises the one error of a body, or its items are stored at `op` below
N, and only the cursors move. -/
theorem segment_eq_next {f : State → Result} {c : Nat} {s t : State} (hf : f = copyLiterals c ∨ f = fillZeros c)
    (h : f s = .next t) : raiseInBody .invalidFrame s = .next t ∨
      s.op.toNat + c ≤ s.hN.toNat ∧
        ∃ bs ip op, bs.length = c ∧ t = { s.storeOut s.op.toNat bs with ip := ip, op := op } := by
  rcases hf with rfl | rfl
  · by_cases hfail : s.inLen.toNat < s.ip.toNat + c ∨ s.hN.toNat < s.op.toNat + c
    · exact .inl ((copyLiterals_raises hfail).symm.trans h)
    · rw [not_or, Nat.not_lt, Nat.not_lt] at hfail
      obtain ⟨hleft, hroom⟩ := hfail
      rw [copyLiterals, if_neg (Nat.not_lt.2 hleft), if_neg (Nat.not_lt.2 hroom)] at h
      obtain ⟨-, h⟩ := withIn_eq_next_iff.1 h
      obtain ⟨u, hstore, hmove⟩ := andThen_eq_next_iff.1 h
      obtain ⟨-, rfl⟩ := putOut_eq_next_iff.1 hstore
      cases hmove
      exact .inr ⟨hroom, _, _, _, inBytes_length .., rfl⟩
  · rcases Nat.lt_or_ge s.hN.toNat (s.op.toNat + c) with hfail | hroom
    · exact .inl ((fillZeros_raises hfail).symm.trans h)
    · rw [fillZeros, if_neg (Nat.not_lt.2 hroom)] at h
      obtain ⟨u, hstore, hmove⟩ := andThen_eq_next_iff.1 h
      obtain ⟨-, rfl⟩ := putOut_eq_next_iff.1 hstore
      cases hmove
      exact .inr ⟨hroom, _, _, _, List.length_replicate, rfl⟩

/-- An error of a body changes OUT below N at most, and besides OUT only what an error changes (60_exceptions.md R245). -/
theorem raiseInBody_frame {e : ErrCode} {s t : State} (h : raiseInBody e s = .next t) :
    t = { s.failed e with outMem := t.outMem, outLost := t.outLost } ∧
      ∀ a, s.hN.toNat ≤ a → t.outByte a = s.outByte a := by
  rw [raiseInBody_eq_failed] at h
  cases h
  split
  · exact ⟨rfl, fun a _ => outByte_congr rfl rfl a⟩
  · exact ⟨rfl, fun a ha => (outByte_congr rfl rfl a).trans (outByte_loseOut_outside (.inr ha))⟩

/-! ### OUT at or beyond N (43_decoder.md R194) -/

section
variable {s t : State}

theorem segment_keepsBeyond {f : State → Result} {c : Nat} (hf : f = copyLiterals c ∨ f = fillZeros c) (h : f s = .next t) :
    ∀ a, s.hN.toNat ≤ a → t.outByte a = s.outByte a := by
  intro a ha
  rcases segment_eq_next hf h with hraise | ⟨hroom, bs, ip, op, hlen, rfl⟩
  · exact (raiseInBody_frame hraise).2 a ha
  · exact (outByte_congr rfl rfl a).trans (outByte_storeOut_outside (.inr (by omega)))

theorem copyVerbatim_keepsBeyond (h : copyVerbatim s = .next t) : ∀ a, s.hN.toNat ≤ a → t.outByte a = s.outByte a := by
  intro a ha
  rcases Nat.lt_or_ge s.inLen.toNat (8 + s.hN.toNat) with hshort | hleft
  · cases (copyVerbatim_of_short hshort).symm.trans h
    exact outByte_congr rfl rfl a
  · rw [copyVerbatim, if_neg (Nat.not_lt.2 hleft)] at h
    obtain ⟨-, h⟩ := withIn_eq_next_iff.1 h
    obtain ⟨u, hstore, hdone⟩ := andThen_eq_next_iff.1 h
    obtain ⟨-, rfl⟩ := putOut_eq_next_iff.1 hstore
    cases hdone
    exact (outByte_congr rfl rfl a).trans
      (outByte_storeOut_outside (.inr (by rwa [inBytes_length, Nat.zero_add])))

theorem execHdrVerbatim_keepsBeyond {len : BitVec 63} (h : execHdrVerbatim len s = .next t) :
    ∀ a, len.toNat ≤ a → t.outByte a = s.outByte a := by
  intro a ha
  rcases Nat.lt_or_ge s.outSize.toNat len.toNat with hover | hfits
  · cases (execHdrVerbatim_of_over hover).symm.trans h
    exact outByte_congr rfl rfl a
  · rw [← toNat_hN_headerTaken s true len] at ha
    exact (copyVerbatim_keepsBeyond ((execHdrVerbatim_of_fits hfits).symm.trans h) a ha).trans (outByte_congr rfl rfl a)

theorem stepBody_keepsBeyond (hin : s.inLen.toNat ≤ s.inSize.toNat) (h : stepBody s = .next t) :
    ∀ a, s.hN.toNat ≤ a → t.outByte a = s.outByte a := by
  intro a ha
  rcases Nat.lt_or_ge s.ip.toNat s.inLen.toNat with hleft | hend
  · cases hdecode : decodeBody (s.inBytes s.ip.toNat (s.inLen.toNat - s.ip.toNat)) with
    | error e =>
      rw [stepBody_of_truncated hleft hin hdecode] at h
      exact (raiseInBody_frame h).2 a ha
    | ok r =>
      obtain ⟨i, rest⟩ := r
      rw [stepBody_of_decodes hin hdecode] at h
      obtain ⟨c, hexec⟩ := exec_of_decodeBody hdecode
      exact segment_keepsBeyond hexec h a ha
  · cases (stepBody_of_exhausted hend).symm.trans h
    exact outByte_congr rfl rfl a

theorem execDecCheck_keepsBeyond (h : execDecCheck s = .next t) : ∀ a, s.hN.toNat ≤ a → t.outByte a = s.outByte a := by
  intro a ha
  by_cases hall : s.op = s.hN
  · cases (execDecCheck_of_eq hall).symm.trans h
    exact outByte_congr rfl rfl a
  · exact (raiseInBody_frame ((execDecCheck_raises hall).symm.trans h)).2 a ha

end

/-- The 63 bits of a length that a register holds. -/
theorem toNat_extractLsb'_length {x : Word} (h : x.toNat < 2 ^ 63) : (x.extractLsb' 0 63).toNat = x.toNat := by
  rw [BitVec.extractLsb'_toNat, Nat.shiftRight_zero, Nat.mod_eq_of_lt h]

/-- Settles O45: a segment form copies literals or fills in zeros, and each phase of a decode keeps OUT at or beyond N. -/
theorem decoderWritesOnlyItsOutput : Obligations.DecoderWritesOnlyItsOutput := by
  refine ⟨fun i c s t hform h => ?_, fun s t hinv hhost hphase h a ha => ?_⟩
  · have hexec : exec i = copyLiterals c ∨ exec i = fillZeros c := by
      rcases hform with ⟨x, rfl | rfl, rfl⟩ | ⟨x, rfl | rfl, rfl⟩
      · exact .inl rfl
      · exact .inr rfl
      · exact .inl rfl
      · exact .inr rfl
    rcases segment_eq_next hexec h with hraise | ⟨-, bs, ip, op, rfl, rfl⟩
    · exact .inr (raiseInBody_frame hraise).1
    · exact .inl ⟨rfl, fun a ha => (outByte_congr rfl rfl a).trans (outByte_storeOut_outside ha)⟩
  · obtain ⟨hin, -, hlt, -⟩ := hinv
    rw [step_of_host_nil hhost] at h
    rcases hphase with hp | hp | hp
    · rw [coreStep_decVerbatim hp] at h
      exact execHdrVerbatim_keepsBeyond h a (by rwa [toNat_extractLsb'_length hlt])
    · rw [coreStep_decBody hp] at h
      exact stepBody_keepsBeyond hin h a ha
    · rw [coreStep_decCheck hp] at h
      exact execDecCheck_keepsBeyond h a ha

/-! ### The rows that store nothing -/

/-- An operation that changes neither memory. -/
def KeepsMemories (f : State → Result) : Prop :=
  ∀ s t, f s = .next t → t.inMem = s.inMem ∧ t.outMem = s.outMem ∧ t.outLost = s.outLost

theorem keepsMemories_next {f : State → State}
    (hf : ∀ s, (f s).inMem = s.inMem ∧ (f s).outMem = s.outMem ∧ (f s).outLost = s.outLost) :
    KeepsMemories fun s => .next (f s) := by
  intro s t h
  cases h
  exact hf s

theorem keepsMemories_raise (e : ErrCode) : KeepsMemories (raise e) := keepsMemories_next fun _ => ⟨rfl, rfl, rfl⟩

/-- A command that is ignored while BUSY changes nothing then. -/
theorem KeepsMemories.unlessBusy {f : State → Result} (hf : KeepsMemories f) : KeepsMemories fun s => unlessBusy s f := by
  intro s t h
  rcases unlessBusy_cases s f with ⟨-, hskip⟩ | ⟨-, hmeet⟩
  · cases hskip.symm.trans h
    exact ⟨rfl, rfl, rfl⟩
  · exact hf s t (hmeet.symm.trans h)

theorem keepsMemories_takeHeader (flag : Bool) (len : BitVec 63) : KeepsMemories (takeHeader flag len) := by
  intro s t h
  rcases takeHeader_cases flag len s with ⟨-, htake⟩ | ⟨-, htake⟩
  · cases htake.symm.trans h
    exact ⟨rfl, rfl, rfl⟩
  · cases htake.symm.trans h
    exact ⟨rfl, rfl, rfl⟩

theorem keepsMemories_execDecHeader : KeepsMemories execDecHeader := by
  intro s t h
  unfold execDecHeader at h
  split at h
  · exact keepsMemories_raise .invalidFrame s t h
  split at h
  · cases h
  · exact keepsMemories_takeHeader _ _ s t h

theorem keepsMemories_execCmdDecompress (ign : BitVec 56) : KeepsMemories (execCmdDecompress ign) := by
  refine KeepsMemories.unlessBusy fun s t h => ?_
  dsimp only at h
  split at h
  · exact keepsMemories_raise .capacity s.accept t h
  · cases h
    exact ⟨rfl, rfl, rfl⟩

/-- Settles O53: a command that is accepted, a register access, a datapath format, or a header, each an update of the registers. -/
theorem registerOnlyInstructionsKeepMemories : Obligations.RegisterOnlyInstructionsKeepMemories := by
  intro i s t ign c x v len hi h
  have hkeep : KeepsMemories (exec i) := by
    simp only [List.mem_cons, List.not_mem_nil, or_false] at hi
    rcases hi with rfl | rfl | rfl | rfl | rfl | rfl | rfl | rfl | rfl | rfl | rfl | rfl
    · exact KeepsMemories.unlessBusy <| keepsMemories_next fun _ => ⟨rfl, rfl, rfl⟩
    · exact keepsMemories_execCmdDecompress ign
    · exact KeepsMemories.unlessBusy <| keepsMemories_next fun _ => ⟨rfl, rfl, rfl⟩
    · exact KeepsMemories.unlessBusy <| keepsMemories_next fun _ => ⟨rfl, rfl, rfl⟩
    · exact keepsMemories_next fun _ => ⟨rfl, rfl, rfl⟩
    · exact keepsMemories_next fun _ => ⟨rfl, rfl, rfl⟩
    · exact keepsMemories_next fun _ => ⟨rfl, rfl, rfl⟩
    · exact keepsMemories_next fun _ => ⟨rfl, rfl, rfl⟩
    · exact keepsMemories_next fun _ => ⟨rfl, rfl, rfl⟩
    · exact keepsMemories_takeHeader false len
    · exact keepsMemories_execDecHeader
    · exact keepsMemories_next fun _ => ⟨rfl, rfl, rfl⟩
  obtain ⟨hin, hmem, hlost⟩ := hkeep s t h
  exact ⟨hin, outByte_congr hmem hlost⟩

end Sys2Proof.Machine
end

section
/-! PROOFS. A whole decode of any frame (43_decoder.md R180 to R196): what is produced and what is left of the body decide between the
content and INVALID_FRAME, and each step of the control-byte loop keeps what they decide. -/

namespace Sys2Proof.Machine

/-! ### What a frame stands for (43_decoder.md R190) -/

/-- The bytes produced so far and the segments `body` splits into give `content`, of `n` bytes. -/
def Completes (n : Nat) (produced body content : List Byte) : Prop :=
  ∃ segs, parseBody body = .ok segs ∧ produced ++ expandBody segs = content ∧ content.length = n

section
variable {n : Nat} {produced rest content : List Byte}

theorem completes_nil_iff : Completes n produced [] content ↔ content = produced ∧ produced.length = n := by
  constructor
  · rintro ⟨segs, hsegs, rfl, hlen⟩
    cases hsegs
    rw [expandBody, List.flatMap_nil, List.append_nil] at hlen ⊢
    exact ⟨rfl, hlen⟩
  · rintro ⟨rfl, hlen⟩
    exact ⟨[], rfl, List.append_nil _, hlen⟩

/-- A body that is not empty begins with a segment. -/
theorem Completes.exists_segment {body : List Byte} (h : Completes n produced body content) (hbody : body ≠ []) :
    ∃ g rest, parseSegment body = .ok (g, rest) ∧ produced.length + g.expand.length ≤ n := by
  obtain ⟨segs, hsegs, rfl, hlen⟩ := h
  obtain ⟨hwf, rfl⟩ := (bodiesSplitUniquelyIntoSegments segs body).1 hsegs
  cases segs with
  | nil => exact absurd rfl hbody
  | cons g segs =>
    refine ⟨g, encodeBody segs, parseSegment_encode (List.forall_mem_cons.1 hwf).1 _, ?_⟩
    rw [expandBody, List.flatMap_cons, List.length_append, List.length_append] at hlen
    omega

/-- A segment of the body may be counted as produced. -/
theorem completes_segment_iff {g : Segment} (hg : g.wf = true) :
    Completes n produced (g.encode ++ rest) content ↔ Completes n (produced ++ g.expand) rest content := by
  constructor
  · rintro ⟨segs, hsegs, rfl, hlen⟩
    obtain ⟨hwf, hbytes⟩ := (bodiesSplitUniquelyIntoSegments segs _).1 hsegs
    have hparse := parseSegment_encode hg rest
    cases segs with
    | nil =>
      rw [← hbytes] at hparse
      cases hparse
    | cons g' segs =>
      obtain ⟨hg', hsegs'⟩ := List.forall_mem_cons.1 hwf
      rw [← hbytes] at hparse
      cases (parseSegment_encode hg' (encodeBody segs)).symm.trans hparse
      exact ⟨segs, (bodiesSplitUniquelyIntoSegments segs _).2 ⟨hsegs', rfl⟩, List.append_assoc .., hlen⟩
  · rintro ⟨segs, hsegs, rfl, hlen⟩
    obtain ⟨hwf, rfl⟩ := (bodiesSplitUniquelyIntoSegments segs _).1 hsegs
    exact ⟨g :: segs, (bodiesSplitUniquelyIntoSegments _ _).2 ⟨List.forall_mem_cons.2 ⟨hg, hwf⟩, rfl⟩,
      (List.append_assoc ..).symm, hlen⟩

end

section
variable {frame content : List Byte}

theorem contentOf_of_short (h : frame.length < 8) : contentOf frame = none := if_pos h

theorem contentOf_of_verbatim (hlen : 8 ≤ frame.length) (hflag : frameFlag frame = true) : contentOf frame =
    if frame.length < 8 + frameLength frame then none else some ((frame.drop 8).take (frameLength frame)) := by
  rw [contentOf, if_neg (Nat.not_lt.2 hlen), if_pos hflag]

theorem contentOf_eq_some_iff (hlen : 8 ≤ frame.length) (hflag : frameFlag frame = false) :
    contentOf frame = some content ↔ Completes (frameLength frame) [] (frame.drop 8) content := by
  rw [contentOf, if_neg (Nat.not_lt.2 hlen), hflag, if_neg Bool.false_ne_true, Completes]
  cases parseBody (frame.drop 8) with
  | error e => simp
  | ok segs =>
    simp only [Except.ok.injEq, exists_eq_left', List.nil_append]
    split
    · next h => rw [Option.some_inj]; exact ⟨fun hc => ⟨hc, hc ▸ h⟩, And.left⟩
    · next h => simp only [reduceCtorEq, false_iff]; rintro ⟨rfl, hc⟩; exact h hc

end

/-! ### How a decode ends (43_decoder.md R190, R191, R194; 60_exceptions.md R245) -/

/-- What the host finds in STATUS, OUT_LEN and OUT. -/
def State.Reports (t : State) (flag : Bool) : Except ErrCode (List Byte) → Prop
  | .ok content => t.status = { busy := false, done := true, err := .none, verb := flag } ∧
      t.outLen.toNat = content.length ∧ t.outBytes 0 t.outLen.toNat = content
  | .error e => t.status = { busy := false, done := true, err := e, verb := false } ∧ t.outLen = 0

/-- A decode that found OUT as in `s` has ended in `t`, with this flag and result, and has kept OUT at or beyond `n`. -/
structure DecodeEnded (s : State) (n : Nat) (flag : Bool) (result : Except ErrCode (List Byte)) (t : State) : Prop where
  phase : t.phase = .done
  report : t.Reports flag result
  kept : ∀ a, n ≤ a → t.outByte a = s.outByte a

/-- The content, or INVALID_FRAME where there is none. -/
def contentResult : Option (List Byte) → Except ErrCode (List Byte)
  | some content => .ok content
  | none => .error .invalidFrame

section
variable {s u : State} {n : Nat}

theorem decodeEnded_failed (e : ErrCode) (flag : Bool) (hkept : ∀ a, n ≤ a → u.outByte a = s.outByte a) :
    DecodeEnded s n flag (.error e) (u.failed e) :=
  ⟨rfl, ⟨rfl, rfl⟩, fun a ha => (outByte_congr rfl rfl a).trans (hkept a ha)⟩

/-- An error of the body loses of OUT what the decode may have written. -/
theorem decodeEnded_raiseInBody (flag : Bool) (hN : u.hN.toNat = n) (hkept : ∀ a, n ≤ a → u.outByte a = s.outByte a) :
    ∃ t, raiseInBody .invalidFrame u = .next t ∧ DecodeEnded s n flag (contentResult none) t := by
  rw [raiseInBody_eq_failed]
  refine ⟨_, rfl, ?_⟩
  split
  · exact decodeEnded_failed .invalidFrame flag hkept
  · exact decodeEnded_failed .invalidFrame flag fun a ha =>
      (outByte_loseOut_outside (.inr (hN.trans_le ha))).trans (hkept a ha)

theorem decodeEnded_close {content : List Byte} (hlength : u.hN.toNat = content.length)
    (hresult : u.outBytes 0 u.hN.toNat = content) (hkept : ∀ a, n ≤ a → u.outByte a = s.outByte a) :
    DecodeEnded s n u.hflag (contentResult (some content)) (u.close .none u.hflag u.hN) where
  phase := rfl
  report := ⟨rfl, hlength, (outBytes_congr (s := u) fun x _ _ => outByte_congr (by rfl) (by rfl) x).trans hresult⟩
  kept a ha := (outByte_congr rfl rfl a).trans (hkept a ha)

end

/-! ### One step of the body -/

/-- The bytes of the body that are still to be read. -/
def State.bodyLeft (s : State) : List Byte := s.inBytes s.ip.toNat (s.inLen.toNat - s.ip.toNat)

theorem length_bodyLeft (s : State) : s.bodyLeft.length = s.inLen.toNat - s.ip.toNat := inBytes_length ..

theorem bodyLeft_eq_nil {s : State} (h : s.inLen.toNat ≤ s.ip.toNat) : s.bodyLeft = [] := by
  rw [State.bodyLeft, Nat.sub_eq_zero_of_le h]
  rfl

/-- How much is left before and after its first bytes. -/
theorem length_left_of_bodyLeft_eq {s : State} {xs ys : List Byte} (h : s.bodyLeft = xs ++ ys) :
    s.inLen.toNat - s.ip.toNat = xs.length + ys.length := by
  rw [← length_bodyLeft, h, List.length_append]

section
variable {s : State} {g : Segment} {rest : List Byte} (hip : s.ip.toNat ≤ s.inLen.toNat)
  (hbytes : s.bodyLeft = g.encode ++ rest)
include hip hbytes

theorem toNat_ip_pastSegment : (s.pastSegment g).ip.toNat = s.ip.toNat + g.encode.length := by
  have hlen := length_left_of_bodyLeft_eq hbytes
  exact toNat_add_ofNat_of_le (y := s.inLen) (by omega)

theorem bodyLeft_pastSegment : (s.pastSegment g).bodyLeft = rest := by
  rw [State.bodyLeft, toNat_ip_pastSegment hip hbytes, inBytes_pastSegment, show (s.pastSegment g).inLen = s.inLen from rfl,
    Nat.sub_add_eq, length_left_of_bodyLeft_eq hbytes, Nat.add_sub_cancel_left]
  exact (inBytes_eq_append hbytes).2

end

/-- What a control byte decodes to is what its segment begins with: a zero form is the segment, a literal form has its payload to
come (30_encoding.md R64). -/
theorem parseSegment_of_decodeBody {bs tail : List Byte} {i : Instr} (h : decodeBody bs = .ok (i, tail)) :
    (∃ c g, exec i = fillZeros c ∧ parseSegment bs = .ok (g, tail) ∧ g.expand.length = c) ∨
    (∃ c mk, exec i = copyLiterals c ∧ parseSegment bs = takePayload mk c tail ∧ ∀ p, (mk p).expand = p) := by
  obtain ⟨-, e, he, -⟩ := decodeBody_encodes h
  cases i with
  | zrunLong x => exact .inl ⟨_, _, rfl, parseSegment_zrunLong h, List.length_replicate⟩
  | zrunShort x => exact .inl ⟨_, _, rfl, parseSegment_zrunShort h, List.length_replicate⟩
  | litLong x => exact .inr ⟨_, _, rfl, parseSegment_litLong h, fun _ => rfl⟩
  | litShort x => exact .inr ⟨_, _, rfl, parseSegment_litShort h, fun _ => rfl⟩
  | _ => cases he

/-- Where no whole segment stands at `ip`, or its items do not fit, DEC_BODY raises INVALID_FRAME (43_decoder.md R185 to R188). -/
theorem stepBody_raises {s : State} (hleft : s.ip.toNat < s.inLen.toNat) (hin : s.inLen.toNat ≤ s.inSize.toNat)
    (hfail : ∀ g rest, parseSegment s.bodyLeft = .ok (g, rest) → s.hN.toNat < s.op.toNat + g.expand.length) :
    ∃ ip, stepBody s = raiseInBody .invalidFrame { s with ip := ip } := by
  cases hdecode : decodeBody s.bodyLeft with
  | error e => exact ⟨_, stepBody_of_truncated hleft hin hdecode⟩
  | ok r =>
    obtain ⟨i, tail⟩ := r
    rw [stepBody_of_decodes hin hdecode]
    refine ⟨s.ip + BitVec.ofNat 64 (s.inLen.toNat - s.ip.toNat - tail.length), ?_⟩
    rcases parseSegment_of_decodeBody hdecode with ⟨c, g, hexec, hparse, rfl⟩ | ⟨c, mk, hexec, hparse, hitems⟩
    · rw [hexec]
      exact fillZeros_raises (hfail g tail hparse)
    · rw [hexec]
      refine copyLiterals_raises ?_
      rcases Nat.lt_or_ge tail.length c with hshort | hpayload
      · obtain ⟨-, e, -, hbytes⟩ := decodeBody_encodes hdecode
        have hlen := length_left_of_bodyLeft_eq hbytes
        have hmoved : (s.ip + BitVec.ofNat 64 (s.inLen.toNat - s.ip.toNat - tail.length)).toNat = _ :=
          toNat_add_ofNat_of_le (y := s.inLen) (by omega)
        refine .inl ?_
        dsimp only
        rw [hmoved]
        omega
      · have hover := hfail _ _ (hparse.trans (if_neg (Nat.not_lt.2 hpayload)))
        rw [hitems, List.length_take_of_le hpayload] at hover
        exact .inr hover

/-! ### The body -/

/-- The control-byte loop of a decode that found OUT as in `s₀` and whose frame stands for `content`, with no host move pending. -/
structure DecodesBody (s₀ : State) (content : Option (List Byte)) (s : State) : Prop where
  alone : s.host = []
  phase : s.phase = .decBody
  compressed : s.hflag = false
  bounds : DecodeInv s
  completes : ∀ c, content = some c ↔ Completes s.hN.toNat (s.outBytes 0 s.op.toNat) s.bodyLeft c
  kept : ∀ a, s.hN.toNat ≤ a → s.outByte a = s₀.outByte a

namespace DecodesBody

variable {s₀ s : State} {content : Option (List Byte)}

theorem step_eq (h : DecodesBody s₀ content s) : step s = stepBody s := by
  rw [step_of_host_nil h.alone, coreStep_decBody h.phase]

/-- With no byte left the check passes where N bytes are produced, and they are the content (43_decoder.md R189). -/
theorem check_ended (h : DecodesBody s₀ content s) (hend : s.inLen.toNat ≤ s.ip.toNat) :
    ∃ t, execDecCheck (s.enter .decCheck) = .next t ∧ DecodeEnded s₀ s.hN.toNat false (contentResult content) t := by
  have hcompletes (c) : content = some c ↔ c = s.outBytes 0 s.op.toNat ∧ s.op.toNat = s.hN.toNat := by
    rw [h.completes, bodyLeft_eq_nil hend, completes_nil_iff, outBytes_length]
  have hkept (a) (ha : s.hN.toNat ≤ a) : (s.enter .decCheck).outByte a = s₀.outByte a :=
    (outByte_congr rfl rfl a).trans (h.kept a ha)
  by_cases hall : s.op = s.hN
  · have hresult : (s.enter .decCheck).outBytes 0 s.hN.toNat = s.outBytes 0 s.op.toNat := by
      rw [hall]
      exact outBytes_congr fun x _ _ => outByte_congr rfl rfl x
    refine ⟨_, execDecCheck_of_eq hall, ?_⟩
    rw [(hcompletes _).2 ⟨rfl, congrArg _ hall⟩, ← h.compressed]
    exact decodeEnded_close (u := s.enter .decCheck) (by rw [outBytes_length, hall]; rfl) hresult hkept
  · have hnone : content = none := Option.eq_none_iff_forall_ne_some.2 fun c hc =>
      hall (BitVec.eq_of_toNat_eq ((hcompletes c).1 hc).2)
    rw [execDecCheck_raises (s := s.enter .decCheck) hall, hnone]
    exact decodeEnded_raiseInBody (u := s.enter .decCheck) false rfl hkept

/-- With no byte left the decode goes on to its check (43_decoder.md R184). -/
theorem run_check (h : DecodesBody s₀ content s) (hend : s.inLen.toNat ≤ s.ip.toNat) :
    ∃ t, Sys2Proof.core.run 2 s = .next t ∧ DecodeEnded s₀ s.hN.toNat false (contentResult content) t := by
  obtain ⟨t, ht, hended⟩ := h.check_ended hend
  have hcheck : step (s.enter .decCheck) = .next t := by
    rw [step_of_host_nil (s := s.enter .decCheck) h.alone, coreStep_decCheck rfl]
    exact ht
  exact ⟨t, run_succ_of_step (h.step_eq.trans (stepBody_of_exhausted hend)) (run_succ_of_step hcheck (run_zero t)), hended⟩

/-- The segment at the head is done. -/
theorem pastSegment {g : Segment} {rest : List Byte} (h : DecodesBody s₀ content s) (hg : g.wf = true)
    (hbytes : s.bodyLeft = g.encode ++ rest) (hroom : s.op.toNat + g.expand.length ≤ s.hN.toNat) :
    DecodesBody s₀ content (s.pastSegment g) := by
  obtain ⟨hin, hout, hlt, hhead, hip, -⟩ := h.bounds
  have hleft : s.ip.toNat + g.encode.length ≤ s.inLen.toNat := by
    have hlen := length_left_of_bodyLeft_eq hbytes
    omega
  have hip' := toNat_ip_pastSegment hip hbytes
  have hop' : (s.pastSegment g).op.toNat = s.op.toNat + g.expand.length := toNat_add_ofNat_of_le hroom
  refine ⟨h.alone, h.phase, h.compressed,
    ⟨hin, hout, hlt, (Nat.le_add_right_of_le hhead).trans hip'.ge, hip'.trans_le hleft, hop'.trans_le hroom⟩, fun c => ?_,
    fun a ha => ?_⟩
  · rw [h.completes c, hbytes, completes_segment_iff hg, ← outBytes_pastSegment, ← hop',
      bodyLeft_pastSegment hip hbytes]
    rfl
  · refine (outByte_congr rfl rfl a).trans ((outByte_storeOut_outside (.inr ?_)).trans (h.kept a ha))
    exact hroom.trans ha

/-- Without a whole segment at `ip` whose items fit the decode ends, and there is no content. -/
theorem step_of_no_segment (h : DecodesBody s₀ content s) (hleft : s.ip.toNat < s.inLen.toNat)
    (hhead : ¬∃ g rest, parseSegment s.bodyLeft = .ok (g, rest) ∧ s.op.toNat + g.expand.length ≤ s.hN.toNat) :
    ∃ t, step s = .next t ∧ DecodeEnded s₀ s.hN.toNat false (contentResult content) t := by
  obtain ⟨hin, -⟩ := h.bounds
  have hbody : s.bodyLeft ≠ [] := List.ne_nil_of_length_pos (by rw [length_bodyLeft]; omega)
  have hnone : content = none := Option.eq_none_iff_forall_ne_some.2 fun c hc => hhead (by
    simpa only [outBytes_length] using ((h.completes c).1 hc).exists_segment hbody)
  obtain ⟨ip, hraise⟩ := stepBody_raises hleft hin fun g rest hparse =>
    Nat.lt_of_not_le fun hroom => hhead ⟨g, rest, hparse, hroom⟩
  rw [h.step_eq, hraise, hnone]
  exact decodeEnded_raiseInBody (u := { s with ip := ip }) false rfl
    fun a ha => (outByte_congr rfl rfl a).trans (h.kept a ha)

/-- The loop takes at most one step for each byte that is left, then two to end (43_decoder.md R196). -/
theorem run (h : DecodesBody s₀ content s) :
    ∃ k t, k ≤ s.bodyLeft.length + 2 ∧ Sys2Proof.core.run k s = .next t ∧
      DecodeEnded s₀ s.hN.toNat false (contentResult content) t := by
  induction hmeasure : s.bodyLeft.length using Nat.strong_induction_on generalizing s with
  | _ left ih =>
    rcases Nat.lt_or_ge s.ip.toNat s.inLen.toNat with hleft | hend
    · by_cases hhead : ∃ g rest, parseSegment s.bodyLeft = .ok (g, rest) ∧ s.op.toNat + g.expand.length ≤ s.hN.toNat
      · obtain ⟨g, rest, hparse, hroom⟩ := hhead
        obtain ⟨hg, hbytes⟩ := parseSegment_ok_bytes hparse
        obtain ⟨hin, hout, -, -, hip, -⟩ := h.bounds
        have hless : rest.length < left := by
          obtain ⟨c, tail, hcons⟩ := encode_segment_eq_cons g
          rw [← hmeasure, hbytes, hcons, List.cons_append, List.length_cons, List.length_append]
          omega
        obtain ⟨k, t, hk, hrun, hended⟩ := ih _ hless (h.pastSegment hg hbytes hroom)
          (congrArg List.length (bodyLeft_pastSegment hip hbytes))
        exact ⟨k + 1, t, by omega,
          run_succ_of_step (h.step_eq.trans (stepBody_segment hg hin hip hbytes hroom hout)) hrun, hended⟩
      · obtain ⟨t, ht, hended⟩ := h.step_of_no_segment hleft hhead
        exact ⟨1, t, Nat.le_add_left 1 _, run_succ_of_step ht (run_zero t), hended⟩
    · obtain ⟨t, hrun, hended⟩ := h.run_check hend
      exact ⟨2, t, Nat.le_add_left 2 _, hrun, hended⟩

end DecodesBody

/-! ### The two bodies -/

section
variable {s : State}

/-- The frame in IN. -/
def State.frame (s : State) : List Byte := s.inBytes 0 s.inLen.toNat

theorem length_frame (s : State) : s.frame.length = s.inLen.toNat := inBytes_length ..

/-- It begins with its header, and its body follows. -/
theorem frame_split (hlen : 8 ≤ s.inLen.toNat) : s.frame.take 8 = s.inBytes 0 8 ∧
    s.frame.drop 8 = s.inBytes 8 (s.inLen.toNat - 8) := by
  have hsplit := inBytes_append s 0 8 (s.inLen.toNat - 8)
  rw [Nat.add_sub_cancel' hlen, Nat.zero_add] at hsplit
  rw [State.frame, hsplit]
  exact ⟨List.take_left' (inBytes_length ..), List.drop_left' (inBytes_length ..)⟩

/-- What DEC_HEADER takes is the header of the frame (43_decoder.md R180). -/
theorem execDecHeader_of_frame (hlen : 8 ≤ s.inLen.toNat) (hin : s.inLen.toNat ≤ s.inSize.toNat) :
    execDecHeader s = takeHeader (frameFlag s.frame) (headerLength (frameHeader s.frame)) s := by
  rw [frameFlag, frameHeader, (frame_split hlen).1]
  exact execDecHeader_of_not_short hlen (hlen.trans hin)

/-- A verbatim frame stands for the N bytes behind its header, if they are there (43_decoder.md R183, R190). -/
theorem contentOf_verbatim_inBytes (hlen : 8 ≤ s.inLen.toNat) (hflag : frameFlag s.frame = true) :
    contentOf s.frame = if s.inLen.toNat < 8 + frameLength s.frame then none
      else some (s.inBytes 8 (frameLength s.frame)) := by
  rw [contentOf_of_verbatim (by rwa [length_frame]) hflag, length_frame, (frame_split hlen).2]
  split
  · rfl
  · next hleft =>
    generalize frameLength s.frame = n at hleft
    have hsplit := inBytes_append s 8 n (s.inLen.toNat - 8 - n)
    rw [Nat.add_sub_cancel' (by omega)] at hsplit
    rw [hsplit, List.take_left' (inBytes_length ..)]

theorem inBytes_headerTaken (flag : Bool) (len : BitVec 63) (a n : Nat) :
    (s.headerTaken flag len).inBytes a n = s.inBytes a n := inBytes_congr (by rfl) a n

/-- Once its header is taken, the bounds of a decode hold (43_decoder.md R180, R182). -/
theorem decodeInv_headerTaken {len : BitVec 63} (flag : Bool) (hlen : 8 ≤ s.inLen.toNat)
    (hin : s.inLen.toNat ≤ s.inSize.toNat) (hfits : len.toNat ≤ s.outSize.toNat) : DecodeInv (s.headerTaken flag len) := by
  have hN := toNat_hN_headerTaken s flag len
  exact ⟨hin, hN.trans_le hfits, hN.trans_lt len.isLt, Nat.le_refl 8, hlen, Nat.zero_le _⟩

/-- A verbatim body that is there is copied; one that is cut short is an INVALID_FRAME (43_decoder.md R183). -/
theorem copyVerbatim_ended {s₀ : State} (hbounds : DecodeInv s) (hflag : s.hflag = true)
    (hkept : ∀ a, s.outByte a = s₀.outByte a) :
    ∃ t, copyVerbatim s = .next t ∧ DecodeEnded s₀ s.hN.toNat true (contentResult
      (if s.inLen.toNat < 8 + s.hN.toNat then none else some (s.inBytes 8 s.hN.toNat))) t := by
  obtain ⟨hin, hout, -⟩ := hbounds
  split
  · next hshort => exact ⟨_, copyVerbatim_of_short hshort, decodeEnded_failed .invalidFrame true fun a _ => hkept a⟩
  · next hleft =>
    have hleft := Nat.le_of_not_lt hleft
    have hcopy := copyVerbatim_eq hleft (hleft.trans hin) hout
    have hread := outBytes_storeOut_same s 0 (s.inBytes 8 s.hN.toNat)
    rw [inBytes_length] at hread
    refine ⟨_, hcopy, ?_⟩
    rw [← hflag]
    refine decodeEnded_close
      (u := { s.storeOut 0 (s.inBytes 8 s.hN.toNat) with ip := 8 + s.hN, op := s.hN }) (inBytes_length ..).symm ?_
      fun a ha => (copyVerbatim_keepsBeyond hcopy a ha).trans (hkept a)
    exact (outBytes_congr fun x _ _ => outByte_congr (by rfl) (by rfl) x).trans hread

section
variable (halone : s.host = []) (hlen : 8 ≤ s.inLen.toNat) (hin : s.inLen.toNat ≤ s.inSize.toNat)
  (hfits : frameLength s.frame ≤ s.outSize.toNat)
include halone hlen hin hfits

/-- A verbatim body takes one step. -/
theorem decode_verbatimBody (hflag : frameFlag s.frame = true) :
    ∃ t, step (s.headerTaken true (headerLength (frameHeader s.frame))) = .next t ∧
      DecodeEnded s (frameLength s.frame) true (contentResult (contentOf s.frame)) t := by
  have hcontent := contentOf_verbatim_inBytes hlen hflag
  have hbounds := decodeInv_headerTaken true hlen hin hfits
  have hN := toNat_hN_headerTaken s true (headerLength (frameHeader s.frame))
  obtain ⟨t, ht, hended⟩ := copyVerbatim_ended (s₀ := s) hbounds rfl fun a => outByte_congr rfl rfl a
  rw [hN, inBytes_headerTaken] at hended
  rw [hcontent]
  refine ⟨t, ?_, hended⟩
  rw [step_of_host_nil (s := s.headerTaken true _) halone, coreStep_decVerbatim rfl]
  exact (execHdrVerbatim_eq_copyVerbatim rfl hbounds rfl rfl rfl).trans ht

/-- A compressed body has nothing produced and all of its segments left. -/
theorem decodesBody_headerTaken (hflag : frameFlag s.frame = false) :
    DecodesBody s (contentOf s.frame) (s.headerTaken false (headerLength (frameHeader s.frame))) where
  alone := halone
  phase := rfl
  compressed := rfl
  bounds := decodeInv_headerTaken false hlen hin hfits
  completes c := by
    have hbody : (s.headerTaken false (headerLength (frameHeader s.frame))).bodyLeft = s.frame.drop 8 :=
      (inBytes_headerTaken ..).trans (frame_split hlen).2.symm
    rw [contentOf_eq_some_iff (by rwa [length_frame]) hflag, toNat_hN_headerTaken, hbody]
    rfl
  kept a _ := outByte_congr rfl rfl a

end

/-! ### The whole decode -/

/-- What a decode of a frame reports (43_decoder.md R182, R190): the capacity check comes before the body. -/
def decodeResult (outSize : Nat) (frame : List Byte) : Except ErrCode (List Byte) :=
  if 8 ≤ frame.length ∧ outSize < frameLength frame then .error .capacity else contentResult (contentOf frame)

/-- From DEC_HEADER on, a decode of any frame ends with what the frame stands for. -/
theorem decode_frame (halone : s.host = []) (hphase : s.phase = .decHeader) (hin : s.inLen.toNat ≤ s.inSize.toNat) :
    ∃ k t, k ≤ s.inLen.toNat + 4 ∧ Sys2Proof.core.run k s = .next t ∧
      DecodeEnded s (frameLength s.frame) (frameFlag s.frame) (decodeResult s.outSize.toNat s.frame) t := by
  have hstep : step s = execDecHeader s := by
    rw [step_of_host_nil halone, coreStep_decHeader hphase]
    rfl
  have hframe := length_frame s
  rcases Nat.lt_or_ge s.inLen.toNat 8 with hshort | hlen
  · rw [decodeResult, if_neg (by omega), contentOf_of_short (by omega)]
    exact ⟨1, _, Nat.le_add_left 1 _, run_succ_of_step (hstep.trans (execDecHeader_of_short hshort)) (run_zero _),
      decodeEnded_failed .invalidFrame _ fun _ _ => rfl⟩
  rw [execDecHeader_of_frame hlen hin] at hstep
  rcases Nat.lt_or_ge s.outSize.toNat (frameLength s.frame) with hover | hfits
  · rw [decodeResult, if_pos ⟨hlen.trans hframe.ge, hover⟩]
    exact ⟨1, _, Nat.le_add_left 1 _, run_succ_of_step (hstep.trans (takeHeader_of_over _ hover)) (run_zero _),
      decodeEnded_failed .capacity _ fun _ _ => rfl⟩
  rw [decodeResult, if_neg fun h => Nat.not_lt.2 hfits h.2]
  rw [takeHeader_of_fits _ hfits] at hstep
  cases hflag : frameFlag s.frame <;> rw [hflag] at hstep
  · obtain ⟨k, t, hk, hrun, hended⟩ := (decodesBody_headerTaken halone hlen hin hfits hflag).run
    rw [toNat_hN_headerTaken] at hended
    rw [length_bodyLeft] at hk
    have hk : k ≤ s.inLen.toNat - 8 + 2 := hk
    exact ⟨k + 1, t, by omega, run_succ_of_step hstep hrun, hended⟩
  · obtain ⟨t, ht, hended⟩ := decode_verbatimBody halone hlen hin hfits hflag
    exact ⟨2, t, by omega, run_succ_of_step hstep (run_succ_of_step ht (run_zero t)), hended⟩

end

/-- A content has the N bytes its frame's header states (43_decoder.md R190). -/
theorem length_of_contentOf_eq_some {frame content : List Byte} (h : contentOf frame = some content) :
    content.length = frameLength frame := by
  rcases Nat.lt_or_ge frame.length 8 with hshort | hlen
  · rw [contentOf_of_short hshort] at h
    cases h
  cases hflag : frameFlag frame
  · obtain ⟨-, -, -, hN⟩ := (contentOf_eq_some_iff hlen hflag).1 h
    exact hN
  · rw [contentOf_of_verbatim hlen hflag] at h
    split at h
    · cases h
    · cases h
      rw [List.length_take_of_le (by rw [List.length_drop]; omega)]

/-- Whatever is reported, the operation has ended. -/
theorem State.Reports.ended {t : State} {flag : Bool} {result : Except ErrCode (List Byte)} (h : t.Reports flag result) :
    t.status.busy = false ∧ t.status.done = true := by
  cases result with
  | ok content =>
    obtain ⟨hstatus, -⟩ := h
    simp [hstatus]
  | error e =>
    obtain ⟨hstatus, -⟩ := h
    simp [hstatus]

/-- Settles O59: the decode ends with what the frame stands for, and a content has the N bytes the header states. -/
theorem decodeProducesTheContent : Obligations.DecodeProducesTheContent := by
  intro s ign halone hidle hin frame
  obtain ⟨k, t, hk, hrun, hphase, hreport, hkept⟩ := decode_frame (s := s.accept.enter .decHeader) halone rfl hin
  have hframe : (s.accept.enter .decHeader).frame = frame := inBytes_congr (s := s) (by rfl) ..
  rw [hframe, State.enter_outSize, State.accept_outSize] at hreport
  rw [hframe] at hkept
  obtain ⟨hbusy, hdone⟩ := hreport.ended
  refine ⟨_, t, k, execCmdDecompress_starts ign hidle hin, hk, hrun, hphase, hbusy, hdone, fun hlen hover => ?_,
    fun hchecked hnone => ?_, fun content hfits hsome => ?_, fun _ a ha => (hkept a ha).trans (outByte_congr rfl rfl a)⟩
  · rw [decodeResult, if_pos ⟨hlen, hover⟩] at hreport
    obtain ⟨hstatus, houtLen⟩ := hreport
    exact ⟨by rw [hstatus], by rw [hstatus], houtLen⟩
  · rw [decodeResult, if_neg (by omega), hnone] at hreport
    obtain ⟨hstatus, houtLen⟩ := hreport
    exact ⟨by rw [hstatus], by rw [hstatus], houtLen⟩
  · rw [decodeResult, if_neg (by omega), hsome] at hreport
    obtain ⟨hstatus, houtLen, hout⟩ := hreport
    exact ⟨by rw [hstatus], by rw [hstatus], houtLen.trans (length_of_contentOf_eq_some hsome), hout⟩

end Sys2Proof.Machine
end

section
/-! PROOFS. The host's commands and register accesses (44_commands.md R211 to R218): what an idle core answers to each command and
to a write of IN_LEN, what each register index reads as, and the writes that are ignored. -/

namespace Sys2Proof.Machine

/-! ### Commands (44_commands.md R211 to R214) -/

theorem unlessBusy_of_idle {s : State} (hidle : s.status.busy = false) (act : State → Result) : unlessBusy s act = act s :=
  if_neg (Bool.eq_false_iff.1 hidle)

/-- Settles O9: a BUSY core ignores the write, and to an idle one NOP does nothing. -/
theorem nopChangesNothing : Obligations.NopChangesNothing := by
  intro ign s
  rcases unlessBusy_cases s .next with ⟨-, hskip⟩ | ⟨-, hmeet⟩
  · exact hskip
  · exact hmeet

/-- Settles O12: the acceptance, then ENC_START, whose header without the verbatim bit is IN_LEN itself. -/
theorem compressStartsEncode : Obligations.CompressStartsEncode :=
  fun ign _ hidle hlt hin hout => execCmdCompress_starts ign hidle hlt hin hout

/-- The start check fails at the acceptance (60_exceptions.md R245, R247). -/
theorem execCmdDecompress_raises {s : State} (ign : BitVec 56) (hidle : s.status.busy = false)
    (hover : s.inSize.toNat < s.inLen.toNat) : execCmdDecompress ign s = .next (s.accept.failed .capacity) := by
  rw [execCmdDecompress, unlessBusy_of_idle hidle]
  exact if_pos hover

/-- Settles O13: the start check fails, or DEC_HEADER is next. -/
theorem decompressStartsDecode : Obligations.DecompressStartsDecode :=
  fun ign _ hidle => ⟨execCmdDecompress_raises ign hidle, execCmdDecompress_starts ign hidle⟩

theorem execCmdReserved_of_idle {s : State} (c : Byte) (ign : BitVec 56) (hidle : s.status.busy = false) :
    execCmdReserved c ign s = .next (s.close .badCommand false s.outLen) := unlessBusy_of_idle hidle _

/-- Settles O14: the command is closed with BAD_COMMAND, and with OUT_LEN as it was. -/
theorem reservedCommandReportsBadCommand : Obligations.ReservedCommandReportsBadCommand := by
  intro c ign s _ hidle
  have hstatus : (s.close .badCommand false s.outLen).status.toWord = 0x12 := rfl
  exact ⟨_, execCmdReserved_of_idle c ign hidle, hstatus, rfl, rfl⟩

/-! ### Register writes (44_commands.md R216, R218) -/

theorem execWriteInLen_of_idle {s : State} (v : Word) (hidle : s.status.busy = false) :
    execWriteInLen v s = .next { s with inLen := v } := unlessBusy_of_idle hidle _

/-- Settles O15: an idle core takes the value. -/
theorem inLenWriteTakesValue : Obligations.InLenWriteTakesValue := fun v _ hidle => execWriteInLen_of_idle v hidle

/-- Settles O17: such an index decodes to an ignored write. -/
theorem otherRegisterWritesAreIgnored : Obligations.OtherRegisterWritesAreIgnored :=
  fun _ v _ hindex => ⟨decodeRegWrite_ignored hindex v, rfl⟩

/-! ### STATUS as a word (10_state.md R14) -/

theorem ErrCode.code_lt_eight (e : ErrCode) : e.code < 8 := by cases e <;> decide

/-- The four fields stand side by side in six bits. -/
theorem Status.toNat_toWord (st : Status) :
    st.toWord.toNat = st.busy.toNat + 2 * st.done.toNat + 4 * st.err.code + 32 * st.verb.toNat := by
  have hbusy := st.busy.toNat_le
  have hdone := st.done.toNat_le
  have herr := st.err.code_lt_eight
  have hverb := st.verb.toNat_le
  rw [Status.toWord, BitVec.toNat_ofNat]
  omega

/-- A bit of a word, from the number the word is. -/
theorem getLsbD_eq_of_toNat {w : Nat} {x : BitVec w} {i : Nat} {b : Bool} (h : x.toNat / 2 ^ i % 2 = b.toNat) :
    x.getLsbD i = b := by
  rw [← BitVec.testBit_toNat, Nat.testBit_eq_decide_div_mod_eq, h]
  simp only [Bool.toNat_eq_one, Bool.decide_eq_true]

/-- Each field stands at its own bits, and bits 63:6 are zero (10_state.md R14). -/
theorem Status.fields_toWord (st : Status) :
    st.toWord.getLsbD 0 = st.busy ∧ st.toWord.getLsbD 1 = st.done ∧ (st.toWord.extractLsb' 2 3).toNat = st.err.code ∧
    st.toWord.getLsbD 5 = st.verb ∧ ∀ j, 6 ≤ j → st.toWord.getLsbD j = false := by
  have hword := st.toNat_toWord
  have hbusy := st.busy.toNat_le
  have hdone := st.done.toNat_le
  have herr := st.err.code_lt_eight
  have hverb := st.verb.toNat_le
  refine ⟨getLsbD_eq_of_toNat ?_, getLsbD_eq_of_toNat ?_, ?_, getLsbD_eq_of_toNat ?_, fun j hj => ?_⟩
  · omega
  · omega
  · rw [BitVec.extractLsb'_toNat, Nat.shiftRight_eq_div_pow]
    omega
  · omega
  · have hlt : st.toWord.toNat < 2 ^ 6 := by omega
    exact (BitVec.testBit_toNat _).symm.trans <| Nat.testBit_lt_two_pow <|
      hlt.trans_le (Nat.pow_le_pow_right (by decide) hj)

/-! ### Register reads (44_commands.md R217) -/

section
variable {s : State} {index : Word}

theorem readReg_inLen (h : index.toNat = 1) : s.readReg index = s.inLen := if_pos h

theorem readReg_status (h : index.toNat = 2) : s.readReg index = s.status.toWord := by
  rw [State.readReg, if_neg (by omega), if_pos h]

theorem readReg_outLen (h : index.toNat = 3) : s.readReg index = s.outLen := by
  rw [State.readReg, if_neg (by omega), if_neg (by omega), if_pos h]

/-- CTRL and the indices of 4 or above hold nothing (10_state.md R12, R16). -/
theorem readReg_of_other (h : index.toNat = 0 ∨ 4 ≤ index.toNat) : s.readReg index = 0 := by
  rw [State.readReg, if_neg (by omega), if_neg (by omega), if_neg (by omega)]

end

/-- While an operation runs OUT_LEN is 0 (10_state.md R15). -/
theorem StatusInv.outLen_eq_zero {s : State} (h : StatusInv s) (hbusy : s.status.busy = true) : s.outLen = 0 := by
  obtain ⟨hrunning, -, -, -, hlen⟩ := h
  exact hlen (hrunning.symm.trans hbusy)

/-- Settles O16: the read returns the register of its index; while BUSY the invariant gives bit 0 of STATUS and OUT_LEN. -/
theorem registerReadsReturnTheirFields : Obligations.RegisterReadsReturnTheirFields := by
  intro index s
  have hfields := s.status.fields_toWord
  refine ⟨s.readReg index, rfl, fun h => readReg_of_other (.inl h), readReg_inLen, fun h => ?_, readReg_outLen,
    fun h => readReg_of_other (.inr h), fun hinv hbusy => ⟨fun h => ?_, fun h => ?_⟩⟩
  · rw [readReg_status h]
    exact hfields
  · obtain ⟨hbit, -⟩ := hfields
    rw [readReg_status h, hbit, hbusy]
  · rw [readReg_outLen h, hinv.outLen_eq_zero hbusy]

end Sys2Proof.Machine
end

section
/-! PROOFS. How a command can end in an error (60_exceptions.md R245 to R247; 20_memory.md R59): the start checks of COMPRESS, and
where a command stands after any number of steps, seen from the state before it. -/

namespace Sys2Proof.Machine

/-! ### The start checks of COMPRESS (60_exceptions.md R246) -/

theorem execCmdCompress_of_idle {s : State} (ign : BitVec 56) (hidle : s.status.busy = false) : execCmdCompress ign s =
    if s.inLen.toNat ≥ 2 ^ 63 then .next (s.accept.failed .length)
    else if s.inLen.toNat > s.inSize.toNat then .next (s.accept.failed .capacity)
    else if 8 + 2 * s.inLen.toNat > s.outSize.toNat then .next (s.accept.failed .capacity)
    else execEncStart s.accept := unlessBusy_of_idle hidle _

/-- Settles O11: the first check that fails raises its error at the acceptance. -/
theorem compressChecksInOrder : Obligations.CompressChecksInOrder := by
  intro ign s hidle failed
  have hexec : exec (.cmdCompress ign) s = _ := execCmdCompress_of_idle ign hidle
  rw [hexec]
  refine ⟨fun hlong => if_pos hlong, fun hlt hover => ?_, fun hlt hin hover => ?_⟩
  · exact (if_neg (Nat.not_le.2 hlt)).trans (if_pos hover)
  · exact (if_neg (Nat.not_le.2 hlt)).trans <| (if_neg (Nat.not_lt.2 hin)).trans (if_pos hover)

/-! ### Where a command stands -/

/-- The phases of a decode (10_state.md R17). -/
def Phase.decodes : Phase → Bool
  | .decHeader | .decVerbatim | .decBody | .decCheck => true
  | .idle | .encMain | .encTail | .encFinal | .encFallback | .done => false

/-- An encode runs, or an operation has ended, and nothing has failed. -/
structure Unfailed (s : State) : Prop where
  alone : s.host = []
  phase : s.phase.decodes = false
  clear : s.status.err = .none

/-- A decode that found the machine in `s₀` runs: all that it has changed besides OUT an error would put back (60_exceptions.md R245;
log 20), and OUT is as it was until the control-byte loop begins. -/
structure DecodeRuns (s₀ s : State) : Prop where
  alone : s.host = []
  phase : s.phase.decodes = true
  running : s.status.done = false
  fits : s.inLen.toNat ≤ s.inSize.toNat
  undone : ∀ e, s.failed e = { s₀.accept.failed e with outMem := s.outMem, outLost := s.outLost }
  unwritten : s.phase = .decHeader ∨ s.phase = .decVerbatim → s.outMem = s₀.outMem ∧ s.outLost = s₀.outLost

/-- A command that found the machine in `s₀` has ended in an error: of what `s₀` held only OUT may be lost besides phase, STATUS and
OUT_LEN, and that by an INVALID_FRAME only. -/
def FailedFrom (s₀ t : State) : Prop :=
  ∃ e om lost, t = { s₀.accept.failed e with outMem := om, outLost := lost } ∧
    (e ≠ .invalidFrame → om = s₀.outMem ∧ lost = s₀.outLost)

/-- Where a command that found the machine in `s₀` stands. -/
inductive CommandAt (s₀ t : State) : Prop
  | unfailed (h : Unfailed t)
  | decoding (h : DecodeRuns s₀ t)
  | failed (alone : t.host = []) (h : FailedFrom s₀ t)

/-! ### The encoder raises no error -/

section
variable {s t : State}

/-- What changes none of the three. -/
theorem Unfailed.of_same (h : Unfailed s) (hhost : t.host = s.host) (hphase : t.phase = s.phase)
    (hstatus : t.status = s.status) : Unfailed t :=
  ⟨hhost.trans h.alone, by rw [hphase, h.phase], by rw [hstatus, h.clear]⟩

theorem Unfailed.stepMain_keeps (h : Unfailed s) (hstep : stepMain s = .next t) : Unfailed t := by
  rcases Nat.lt_or_ge s.n.toNat (s.it.toNat + 8) with hshort | hleft
  · cases (stepMain_of_no_word_left hshort).symm.trans hstep
    exact ⟨h.alone, rfl, h.clear⟩
  · obtain ⟨⟨out, dst, uc, uPtr, zc, it, l, k, r, w, m, rfl⟩, -⟩ :=
      execEncWord_frame ((stepMain_of_word_left hleft).symm.trans hstep)
    exact h.of_same rfl rfl rfl

theorem Unfailed.stepTail_keeps (h : Unfailed s) (hstep : stepTail s = .next t) : Unfailed t := by
  unfold stepTail at hstep
  split at hstep
  · obtain ⟨-, hstep⟩ := withIn_eq_next_iff.1 hstep
    split at hstep
    · obtain ⟨⟨out, dst, uc, uPtr, zc, it, rfl⟩, -⟩ := exec_count_frame (by simp) hstep
      exact h.of_same rfl rfl rfl
    · obtain ⟨⟨out, dst, uc, uPtr, zc, it, rfl⟩, -⟩ := exec_count_frame (by simp) hstep
      exact h.of_same rfl rfl rfl
  · cases hstep
    exact ⟨h.alone, rfl, h.clear⟩

theorem Unfailed.execEncFinal_keeps (h : Unfailed s) (hstep : execEncFinal s = .next t) : Unfailed t := by
  obtain ⟨⟨out, dst, uc, uPtr, zc, rfl⟩, -⟩ := execEncFinal_frame hstep
  exact ⟨h.alone, rfl, h.clear⟩

/-- Both ends of an encode are ENC_DONE, which reports no error (41_encoder.md R134). -/
theorem Unfailed.stepFallback_keeps (h : Unfailed s) (hstep : stepFallback s = .next t) : Unfailed t := by
  unfold stepFallback at hstep
  split at hstep
  · obtain ⟨u, hheader, hstep⟩ := andThen_eq_next_iff.1 hstep
    obtain ⟨-, hstep⟩ := withIn_eq_next_iff.1 hstep
    obtain ⟨v, hinput, hstep⟩ := andThen_eq_next_iff.1 hstep
    obtain ⟨-, rfl⟩ := putOut_eq_next_iff.1 hheader
    obtain ⟨-, rfl⟩ := putOut_eq_next_iff.1 hinput
    cases hstep
    exact ⟨h.alone, rfl, rfl⟩
  · cases hstep
    exact ⟨h.alone, rfl, rfl⟩

theorem Unfailed.coreStep_keeps (h : Unfailed s) (hstep : coreStep s = .next t) : Unfailed t := by
  have hphase := h.phase
  cases hp : s.phase <;> rw [hp] at hphase
  case idle =>
    cases (coreStep_of_not_running (.inl hp)).symm.trans hstep
    exact h
  case done =>
    cases (coreStep_of_not_running (.inr hp)).symm.trans hstep
    exact h
  case encMain => exact h.stepMain_keeps ((coreStep_encMain hp).symm.trans hstep)
  case encTail => exact h.stepTail_keeps ((coreStep_encTail hp).symm.trans hstep)
  case encFinal => exact h.execEncFinal_keeps ((coreStep_encFinal hp).symm.trans hstep)
  case encFallback => exact h.stepFallback_keeps ((coreStep_encFallback hp).symm.trans hstep)
  case decHeader | decVerbatim | decBody | decCheck => cases hphase

end

/-! ### An error of a decode -/

namespace DecodeRuns

variable {s₀ s t : State}

/-- An error before the control-byte loop leaves OUT as it was before the command. -/
theorem failed_commandAt (h : DecodeRuns s₀ s) (hp : s.phase = .decHeader ∨ s.phase = .decVerbatim) (e : ErrCode) :
    CommandAt s₀ (s.failed e) :=
  .failed h.alone ⟨e, _, _, h.undone e, fun _ => h.unwritten hp⟩

/-- In the loop the only error is INVALID_FRAME. -/
theorem raiseInBody_commandAt (h : DecodeRuns s₀ s) (hraise : raiseInBody .invalidFrame s = .next t) : CommandAt s₀ t := by
  obtain ⟨ht, -⟩ := raiseInBody_frame hraise
  rw [h.undone] at ht
  refine .failed ?_ ⟨_, _, _, ht, fun hne => absurd rfl hne⟩
  rw [ht]
  exact (congrArg State.host (h.undone .none)).symm.trans h.alone

/-- Taking the header stores nothing. -/
theorem headerTaken (h : DecodeRuns s₀ s) (hp : s.phase = .decHeader ∨ s.phase = .decVerbatim) (flag : Bool) (len : BitVec 63) :
    DecodeRuns s₀ (s.headerTaken flag len) where
  alone := h.alone
  phase := by cases flag <;> rfl
  running := h.running
  fits := h.fits
  undone := h.undone
  unwritten _ := h.unwritten hp

theorem execDecHeader_commandAt (h : DecodeRuns s₀ s) (hp : s.phase = .decHeader) (hstep : execDecHeader s = .next t) :
    CommandAt s₀ t := by
  rcases Nat.lt_or_ge s.inLen.toNat 8 with hshort | hlen
  · cases (execDecHeader_of_short hshort).symm.trans hstep
    exact h.failed_commandAt (.inl hp) .invalidFrame
  · rw [execDecHeader_of_not_short hlen (hlen.trans h.fits)] at hstep
    generalize BitVec.ofNat 64 (leNat (s.inBytes 0 8)) = header at hstep
    rcases takeHeader_cases (headerFlag header) (headerLength header) s with ⟨-, htake⟩ | ⟨-, htake⟩
    · cases htake.symm.trans hstep
      exact h.failed_commandAt (.inl hp) .capacity
    · cases htake.symm.trans hstep
      exact .decoding (h.headerTaken (.inl hp) _ _)

theorem copyVerbatim_commandAt (h : DecodeRuns s₀ s) (hp : s.phase = .decVerbatim) (hstep : copyVerbatim s = .next t) :
    CommandAt s₀ t := by
  unfold copyVerbatim at hstep
  split at hstep
  · cases hstep
    exact h.failed_commandAt (.inr hp) .invalidFrame
  · obtain ⟨-, hstep⟩ := withIn_eq_next_iff.1 hstep
    obtain ⟨u, hstore, hdone⟩ := andThen_eq_next_iff.1 hstep
    obtain ⟨-, rfl⟩ := putOut_eq_next_iff.1 hstore
    cases hdone
    exact .unfailed ⟨h.alone, rfl, rfl⟩

theorem execHdrVerbatim_commandAt (h : DecodeRuns s₀ s) (hp : s.phase = .decVerbatim) {len : BitVec 63}
    (hstep : execHdrVerbatim len s = .next t) : CommandAt s₀ t := by
  rcases Nat.lt_or_ge s.outSize.toNat len.toNat with hover | hfits
  · cases (execHdrVerbatim_of_over hover).symm.trans hstep
    exact h.failed_commandAt (.inr hp) .capacity
  · exact (h.headerTaken (.inr hp) true len).copyVerbatim_commandAt rfl ((execHdrVerbatim_of_fits hfits).symm.trans hstep)

/-- The loop moves the cursors, writes OUT and goes on to DEC_CHECK: an error puts the cursors back and sets the phase itself. -/
theorem inLoop (h : DecodeRuns s₀ s) {p : Phase} (hp : p = .decBody ∨ p = .decCheck) (ip op : Word) (om : Memory) :
    DecodeRuns s₀ { s with phase := p, ip := ip, op := op, outMem := om } where
  alone := h.alone
  phase := by rcases hp with rfl | rfl <;> rfl
  running := h.running
  fits := h.fits
  undone e := congrArg (fun u : State => { u with outMem := om }) (h.undone e)
  unwritten hfirst := by rcases hp with rfl | rfl <;> simp at hfirst

theorem segment_commandAt (h : DecodeRuns s₀ s) {f : State → Result} {c : Nat} (hf : f = copyLiterals c ∨ f = fillZeros c)
    (hstep : f s = .next t) (hp : s.phase = .decBody) : CommandAt s₀ t := by
  rcases segment_eq_next hf hstep with hraise | ⟨-, bs, ip, op, -, rfl⟩
  · exact h.raiseInBody_commandAt hraise
  · exact .decoding (h.inLoop (.inl hp) ip op _)

theorem stepBody_commandAt (h : DecodeRuns s₀ s) (hp : s.phase = .decBody) (hstep : stepBody s = .next t) : CommandAt s₀ t := by
  have hskip (ip : Word) : DecodeRuns s₀ { s with ip := ip } := h.inLoop (.inl hp) ip s.op s.outMem
  rcases Nat.lt_or_ge s.ip.toNat s.inLen.toNat with hleft | hend
  · cases hdecode : decodeBody (s.inBytes s.ip.toNat (s.inLen.toNat - s.ip.toNat)) with
    | error e => exact (hskip _).raiseInBody_commandAt ((stepBody_of_truncated hleft h.fits hdecode).symm.trans hstep)
    | ok r =>
      obtain ⟨i, rest⟩ := r
      obtain ⟨c, hexec⟩ := exec_of_decodeBody hdecode
      exact (hskip _).segment_commandAt hexec ((stepBody_of_decodes h.fits hdecode).symm.trans hstep) hp
  · cases (stepBody_of_exhausted hend).symm.trans hstep
    exact .decoding (h.inLoop (.inr rfl) s.ip s.op s.outMem)

theorem execDecCheck_commandAt (h : DecodeRuns s₀ s) (hstep : execDecCheck s = .next t) : CommandAt s₀ t := by
  by_cases hall : s.op = s.hN
  · cases (execDecCheck_of_eq hall).symm.trans hstep
    exact .unfailed ⟨h.alone, rfl, rfl⟩
  · exact h.raiseInBody_commandAt ((execDecCheck_raises hall).symm.trans hstep)

theorem coreStep_commandAt (h : DecodeRuns s₀ s) (hstep : coreStep s = .next t) : CommandAt s₀ t := by
  have hphase := h.phase
  cases hp : s.phase <;> rw [hp] at hphase
  case decHeader => exact h.execDecHeader_commandAt hp ((coreStep_decHeader hp).symm.trans hstep)
  case decVerbatim => exact h.execHdrVerbatim_commandAt hp ((coreStep_decVerbatim hp).symm.trans hstep)
  case decBody => exact h.stepBody_commandAt hp ((coreStep_decBody hp).symm.trans hstep)
  case decCheck => exact h.execDecCheck_commandAt ((coreStep_decCheck hp).symm.trans hstep)
  case idle | encMain | encTail | encFinal | encFallback | done => cases hphase

end DecodeRuns

/-! ### A whole command -/

/-- An operation that has failed has ended, so the core stays as it is (60_exceptions.md R254). -/
theorem FailedFrom.phase {s₀ t : State} (h : FailedFrom s₀ t) : t.phase = .done := by
  obtain ⟨e, om, lost, rfl, -⟩ := h
  rfl

theorem CommandAt.step {s₀ s t : State} (h : CommandAt s₀ s) (hstep : step s = .next t) : CommandAt s₀ t := by
  cases h with
  | unfailed h => exact .unfailed (h.coreStep_keeps ((step_of_host_nil h.alone).symm.trans hstep))
  | decoding h => exact h.coreStep_commandAt ((step_of_host_nil h.alone).symm.trans hstep)
  | failed halone h =>
    rw [step_of_host_nil halone, coreStep_of_not_running (.inr h.phase)] at hstep
    cases hstep
    exact .failed halone h

/-- What every step keeps holds after any number of steps. -/
theorem run_keeps {P : State → Prop} (hkeep : ∀ s t, P s → step s = .next t → P t) {k : Nat} {s t : State} (h : P s)
    (hrun : Sys2Proof.core.run k s = .next t) : P t := by
  induction k generalizing s with
  | zero =>
    cases hrun
    exact h
  | succ k ih =>
    simp only [Host.Core.run] at hrun
    split at hrun
    · next u hstep => exact ih (hkeep s u h hstep) hrun
    · cases hrun
    · cases hrun

/-- A start check that fails. -/
theorem commandAt_failed_accept {s : State} (halone : s.host = []) (e : ErrCode) : CommandAt s (s.accept.failed e) :=
  .failed halone ⟨e, _, _, rfl, fun _ => ⟨rfl, rfl⟩⟩

theorem commandAt_compress {s s₁ : State} {ign : BitVec 56} (halone : s.host = []) (hidle : s.status.busy = false)
    (h : exec (.cmdCompress ign) s = .next s₁) : CommandAt s s₁ := by
  have hexec := (execCmdCompress_of_idle ign hidle).symm.trans h
  split at hexec
  · cases hexec
    exact commandAt_failed_accept halone .length
  split at hexec
  · cases hexec
    exact commandAt_failed_accept halone .capacity
  split at hexec
  · cases hexec
    exact commandAt_failed_accept halone .capacity
  · next hout =>
    have hroom : 8 ≤ s.accept.outSize.toNat := (Nat.le_add_right 8 _).trans (Nat.le_of_not_gt hout)
    cases (execEncStart_eq hroom).symm.trans hexec
    exact .unfailed ⟨halone, rfl, rfl⟩

theorem commandAt_decompress {s s₁ : State} {ign : BitVec 56} (halone : s.host = []) (hidle : s.status.busy = false)
    (h : exec (.cmdDecompress ign) s = .next s₁) : CommandAt s s₁ := by
  rcases Nat.lt_or_ge s.inSize.toNat s.inLen.toNat with hover | hin
  · cases (execCmdDecompress_raises ign hidle hover).symm.trans h
    exact commandAt_failed_accept halone .capacity
  · cases (execCmdDecompress_starts ign hidle hin).symm.trans h
    exact .decoding ⟨halone, rfl, rfl, hin, fun _ => rfl, fun _ => ⟨rfl, rfl⟩⟩

/-- A command that has ended and reports an error has failed. -/
theorem CommandAt.failedFrom {s₀ t : State} (h : CommandAt s₀ t) (hdone : t.status.done = true) (herr : t.status.err ≠ .none) :
    FailedFrom s₀ t := by
  cases h with
  | unfailed h => exact absurd h.clear herr
  | decoding h => exact absurd (h.running.symm.trans hdone) Bool.false_ne_true
  | failed _ h => exact h

/-- Settles O44: `raiseInBody` at once, and after any number of steps a command that reports an error has failed. -/
theorem errorEndsTheOperation : Obligations.ErrorEndsTheOperation := by
  refine ⟨fun e s => ?_, fun ign s s₁ t k halone hidle hcommand hrun hdone herr => ?_⟩
  · have hraise := raiseInBody_eq_failed e s
    obtain ⟨hframe, hbeyond⟩ := raiseInBody_frame hraise
    refine ⟨_, hraise, hframe, fun hop a => ?_, hbeyond⟩
    rw [if_pos (by rw [hop]; rfl)]
    exact outByte_congr rfl rfl a
  · have hstart : CommandAt s s₁ := hcommand.elim (commandAt_compress halone hidle) (commandAt_decompress halone hidle)
    have hend : CommandAt s t := run_keeps (fun _ _ => CommandAt.step) hstart hrun
    obtain ⟨e, om, lost, rfl, hkept⟩ := hend.failedFrom hdone herr
    refine ⟨rfl, fun hne a => ?_⟩
    obtain ⟨hmem, hlost⟩ := hkept hne
    exact outByte_congr hmem hlost a

end Sys2Proof.Machine
end

section
/-! PROOFS. What the host can do at any time: to a running core its register writes are ignored (44_commands.md R215; 70_reset_and_hazards.md
R277), and a reset puts every register back and keeps the memories (70_reset_and_hazards.md R270, R271). -/

namespace Sys2Proof.Machine

/-! ### Register writes while BUSY -/

theorem unlessBusy_of_busy {s : State} (hbusy : s.status.busy = true) (act : State → Result) : unlessBusy s act = .next s :=
  if_pos hbusy

/-- A running core ignores every register write: a command and a write of IN_LEN by the guard they share, any other write
always. -/
theorem exec_decodeRegWrite_of_busy {s : State} (hbusy : s.status.busy = true) (i v : Word) :
    exec (decodeRegWrite i v) s = .next s := by
  rcases decodeRegWrite_cases i v with ⟨ign, hi⟩ | ⟨ign, hi⟩ | ⟨ign, hi⟩ | ⟨c, ign, hi⟩ | hi | hi <;> rw [hi, exec]
  case inr.inr.inr.inr.inr => rfl
  all_goals exact unlessBusy_of_busy hbusy _

/-- Settles O10: CTRL and IN_LEN are the register indices 0 and 1. -/
theorem busyCoreIgnoresCommandAndLengthWrites : Obligations.BusyCoreIgnoresCommandAndLengthWrites :=
  fun v _ hbusy => ⟨exec_decodeRegWrite_of_busy hbusy 0 v, exec_decodeRegWrite_of_busy hbusy 1 v⟩

/-! ### Reset -/

/-- Every byte of OUT is kept but those of the range a reset of a running core loses (70_reset_and_hazards.md R271; log 9). -/
theorem outByte_resetCore {s : State} {a : Nat} (h : s.status.busy = false ∨ max (8 + 2 * s.n.toNat) s.hN.toNat ≤ a) :
    s.resetCore.outByte a = s.outByte a := by
  rw [State.resetCore]
  split
  case isTrue hbusy =>
    have hbeyond := h.resolve_left (by simp [hbusy])
    exact (outByte_congr rfl rfl a).trans (outByte_loseOut_outside (.inr hbeyond))
  case isFalse => exact outByte_congr rfl rfl a

/-- Settles O51: the step is the core's reset, and the formats and `before` are what `powerOn` gives them. -/
theorem resetClearsRegistersAndKeepsMemories : Obligations.ResetClearsRegistersAndKeepsMemories := by
  intro s rest hhost
  refine ⟨_, step_reset hhost, ?_, fun a ha => outByte_resetCore (s := { s with host := rest }) ha⟩
  rw [State.resetCore_eq]

end Sys2Proof.Machine
end
